-- ==== Sys2Proof/Word.lean ====
section
/-! DEFINITION. The machine words of CORE: bytes and 7-bit sequence numbers (00_scope.md R10;
10_state.md R17). The width of a time is a parameter, so its type stands in Config.lean. -/

namespace Sys2Proof

/-- A byte: 8 bits, unsigned, arithmetic modulo 256 (R10). -/
abbrev Byte := BitVec 8

/-- A 7-bit number: the registers `last_index` and `next_send`, the index field `k[6:0]` of an ack
byte (R17, R54). The wheel proper is 1..127; the value 0 is on no wheel. -/
abbrev Seq := BitVec 7

end Sys2Proof
end

