-- ==== Sys2Proof/Config.lean ====
section
/-! DEFINITION. The implementation parameters of 00_scope.md R8 as configuration fields, each with
this hardware's value as its default, the constraints of R9 on them, `hw`, this hardware's
configuration, and the type of a time, whose width is `hw`'s. Every operation reads its parameters
here, also where a rule's pseudocode writes the default as a literal, so that a corrected literal
changes one field (R5; log entry 11). CORE has no value that the spec leaves undefined, so there is
no opaque constant here. -/

namespace Sys2Proof

/-- The parameters of R8. -/
structure Config where
  /-- `SYNC0`, first header byte. -/
  sync0 : Byte := 0x0A
  /-- `SYNC1`, second header byte. -/
  sync1 : Byte := 0x3C
  /-- `HDR_LEN`, header bytes, the 2 checksum bytes included. -/
  hdrLen : Nat := 7
  /-- `TRL_LEN`, trailing payload-checksum bytes. -/
  trlLen : Nat := 2
  /-- `MAX_PAYLOAD`, largest payload length. -/
  maxPayload : Nat := 255
  /-- `PAYLOAD_BUF`, payload buffer bytes of a slot. -/
  payloadBuf : Nat := 256
  /-- `MAX_FRAME`, derived: 264 by default. -/
  maxFrame : Nat := hdrLen + maxPayload + trlLen
  /-- `MAX_RESYNC`, longest history the resync re-parses: 263 by default. -/
  maxResync : Nat := maxFrame - 1
  /-- `SEQ_MIN`, first number of the wheel. -/
  seqMin : Nat := 1
  /-- `SEQ_MAX`, last number of the wheel. -/
  seqMax : Nat := 127
  /-- `SEQ_NONE`, sequence byte of an ack-only frame. -/
  seqNone : Byte := 0x00
  /-- `HANDSHAKE`, start-of-sequence marker (sequence byte and ack byte). -/
  handshake : Byte := 0x80
  /-- `IB_CAP`, inbound slots. -/
  ibCap : Nat := 4
  /-- `OB_CAP`, outbound slots. -/
  obCap : Nat := 4
  /-- `IB_WINDOW`, forward-probe steps of `InRange`. -/
  ibWindow : Nat := 4
  /-- `MAX_OUTGOING_INDEX_GAP`, forward-walk bound of the outbound buffer. -/
  maxOutgoingIndexGap : Nat := 15
  /-- `RESEND_TIMEOUT_US`, the resend timeout in microseconds. -/
  resendTimeoutUs : Nat := 100000
  /-- `TIME_W`, bits of the time input (decision D4). -/
  timeW : Nat := 64
  /-- `HDR_CK_FROM`, first header byte the header checksum covers (decision D5). -/
  hdrCkFrom : Nat := 0
deriving DecidableEq, Repr

/-- The constraints of R9, which every rule assumes. Where R9 subtracts 1 from `SEQ_MAX`, 1 is added
on the other side, since naturals cannot go below 0. -/
def Config.valid (c : Config) : Bool :=
  1 ≤ c.ibCap && 1 ≤ c.obCap && c.ibWindow + 1 ≤ c.seqMax &&
    c.maxOutgoingIndexGap + 1 ≤ c.seqMax && c.maxPayload ≤ c.payloadBuf &&
    (c.hdrCkFrom = 0 || c.hdrCkFrom = 2)

/-- This hardware's configuration: every parameter at its default (R8). -/
def hw : Config := {}

/-- A `TIME_W`-bit unsigned count of microseconds; subtraction wraps at `2^TIME_W` (R113, R105). -/
abbrev Time := BitVec hw.timeW

end Sys2Proof
end

