-- ==== Sys2Proof/Syntax.lean ====
section
/-! DEFINITION. What CORE reads, as data: the classes of an ack byte and of a sequence byte
(30_encoding.md R54, R55), the parse results and the parser state of the Frame Codec
(40_frame_codec.md R67, 10_state.md R18), and `Instr`, one constructor for each of the 27 rows of
opcode_table.json. -/

namespace Sys2Proof

/-- The class of an ack byte (R54). -/
inductive AckClass where
  /-- 0x00: no ack. -/
  | empty
  /-- 0x80: the start-sequence ack. -/
  | start
  /-- 0x01..0x7F: a positive ack for `n`. -/
  | pos (n : Seq)
  /-- 0x81..0xFF: a negative ack for `n`. -/
  | neg (n : Seq)
deriving DecidableEq, Repr

/-- The class of a sequence byte (R55). -/
inductive SeqClass where
  /-- 0x00: ack-only frame. -/
  | ackonly
  /-- 0x01..0x7F: data frame. -/
  | data (n : Seq)
  /-- 0x80: handshake frame. -/
  | hshake
  /-- 0x81..0xFF: reserved; `low` is the byte's low seven bits. -/
  | resv (low : Seq)
deriving DecidableEq, Repr

/-- The status `ParseChar` returns (R67). -/
inductive Status where
  | incomplete
  | parsed
  | headerError
  | dataError
deriving DecidableEq, Repr

/-- The status of a run over a whole history: that of `ParseChar`, or `OVERRUN`, a frame that
ended before the last byte, internal to the resync (R69). -/
inductive RunStatus where
  | incomplete
  | parsed
  | headerError
  | dataError
  | overrun
deriving DecidableEq, Repr

/-- How a frame that the Reader acts on ended: both checksums matched, or the payload checksum did
not (R98). -/
inductive FrameEnd where
  | parsed
  | dataError
deriving DecidableEq, Repr

/-- The frame view `ParseChar` returns: the header fields and the payload (R67). -/
structure View where
  ack : Byte
  seq : Byte
  len : Byte
  data : List Byte
deriving DecidableEq, Repr

/-- The parser state `ps` of one inbound slot (R18). `data` lists the bytes received, every later
position of the 256-byte buffer holding 0 (log entry 8). -/
structure ParserState where
  pos : Nat
  ha : Byte
  hb : Byte
  ack : Byte
  seq : Byte
  len : Byte
  data : List Byte
  da : Byte
  db : Byte
deriving DecidableEq, Repr

/-- `PS_EMPTY` (R18). -/
def ParserState.empty : ParserState :=
  { pos := 0, ha := 0, hb := 0, ack := 0, seq := 0, len := 0, data := [], da := 0, db := 0 }

/-- One constructor per row of opcode_table.json, in the table's order: host commands with the
reserved opcodes between them, the pseudo-instruction, the frame classes, the ack classes. A
`reserved` row's operand is the part of the opcode byte that its mask leaves open. -/
inductive Instr where
  /-- `RESET`, opcode 0x00 (R134). -/
  | reset
  /-- `TICK`, opcode 0x01 (R114). -/
  | tick
  /-- `TRANSMIT len data`, opcode 0x02; `len` is the number of data bytes (R115). -/
  | transmit (data : List Byte)
  /-- `RECEIVE`, opcode 0x03 (R116). -/
  | receive
  /-- `INITIALIZED`, opcode 0x04 (R117). -/
  | initialized
  /-- `RESERVED`, opcode 0x05 (R61). -/
  | reserved05
  /-- `RESERVED`, opcodes 0x06..0x07 (R61). -/
  | reserved06 (low : BitVec 1)
  /-- `RESERVED`, opcodes 0x08..0x0F (R61). -/
  | reserved08 (low : BitVec 3)
  /-- `READ_STEP`, opcode 0x10 (R118). -/
  | readStep
  /-- `WRITE_STEP`, opcode 0x11 (R119). -/
  | writeStep
  /-- `PEEK_PACKET idx`, opcode 0x12 (R95). -/
  | peekPacket (idx : Byte)
  /-- `PEEK_RESEND_PACKET`, opcode 0x13 (R96). -/
  | peekResendPacket
  /-- `RESERVED`, opcodes 0x14..0x17 (R61). -/
  | reserved14 (low : BitVec 2)
  /-- `RESERVED`, opcodes 0x18..0x1F (R61). -/
  | reserved18 (low : BitVec 3)
  /-- `RESERVED`, opcodes 0x20..0x3F (R61). -/
  | reserved20 (low : BitVec 5)
  /-- `RESERVED`, opcodes 0x40..0x7F (R61). -/
  | reserved40 (low : BitVec 6)
  /-- `RESERVED`, opcodes 0x80..0xFF (R61). -/
  | reserved80 (low : BitVec 7)
  /-- `TICKS n`: `n` consecutive `TICK` commands (R65). -/
  | ticks (n : Nat)
  /-- `FRAME_ACKONLY`: the Reader finished a frame with sequence byte 0x00 (R101, R102). -/
  | frameAckonly (fin : FrameEnd) (ack : Byte) (data : List Byte)
  /-- `FRAME_DATA`: the Reader finished a frame with sequence byte `n`, 1..127 (R101, R102). -/
  | frameData (fin : FrameEnd) (ack : Byte) (n : Seq) (data : List Byte)
  /-- `FRAME_HANDSHAKE`: the Reader finished a frame with sequence byte 0x80 (R100). -/
  | frameHandshake (fin : FrameEnd) (ack : Byte) (data : List Byte)
  /-- `FRAME_RESV`: the Reader finished a frame with sequence byte `0x80 + low` (R101, R102). -/
  | frameResv (fin : FrameEnd) (ack : Byte) (low : Seq) (data : List Byte)
  /-- `FRAME_HEADER_ERROR`: a header error stood (R99). -/
  | frameHeaderError
  /-- `ACK_EMPTY`: the Writer consumes the ack byte 0x00 (R104). -/
  | ackEmpty
  /-- `ACK_START`: the Writer consumes the ack byte 0x80 (R104). -/
  | ackStart
  /-- `ACK_POS n`: the Writer consumes a positive ack for `n` (R104, R92). -/
  | ackPos (n : Seq)
  /-- `ACK_NEG n`: the Writer consumes a negative ack for `n` (R104, R93). -/
  | ackNeg (n : Seq)
deriving DecidableEq, Repr

/-- Where an instruction's bytes stand: the host command port (R59), a line of a host program that
stands for several commands (R65), the transport's receive port (R52), the ack byte of a received
frame (R54). The same byte means different rows on different channels. -/
inductive Channel where
  | command
  | line
  | wire
  | ack
deriving DecidableEq, Repr

/-- Why a byte string is no instruction of its channel. -/
inductive DecodeError where
  /-- An empty command string (R61: shorter than any operand list). -/
  | emptyCommand
  /-- A command whose byte string is shorter or longer than its opcode's operand list (R61). -/
  | wrongLength
  /-- A host-program line that is no sequence of `TICK` commands (R65). -/
  | notTicks
  /-- The bytes are the beginning of a frame (R69, `INCOMPLETE`). -/
  | incompleteFrame
  /-- A frame ended before the last byte (R69, `OVERRUN`). -/
  | overrunFrame
  /-- An ack is one byte (R54). -/
  | notOneAckByte
deriving DecidableEq, Repr

end Sys2Proof
end

