-- ==== Sys2Proof/WellFormed.lean ====
section
/-! DEFINITION. Which terms of `Instr` stand for an encoding (30_encoding.md R54 to R56, R60):
payloads of at most `MAX_PAYLOAD` bytes; sequence numbers and ack indices that are not 0, since 0
belongs to another row. -/

namespace Sys2Proof

/-- A payload the one-byte length field can count (R56, `MAX_PAYLOAD`). -/
def payloadFits (data : List Byte) : Bool := data.length ≤ hw.maxPayload

/-- The operand checks of each row. -/
def Instr.wellFormed : Instr → Bool
  | .reset => true
  | .tick => true
  | .transmit data => payloadFits data
  | .receive => true
  | .initialized => true
  | .reserved05 => true
  | .reserved06 _ => true
  | .reserved08 _ => true
  | .readStep => true
  | .writeStep => true
  | .peekPacket _ => true
  | .peekResendPacket => true
  | .reserved14 _ => true
  | .reserved18 _ => true
  | .reserved20 _ => true
  | .reserved40 _ => true
  | .reserved80 _ => true
  | .ticks _ => true
  | .frameAckonly _ _ data => payloadFits data
  | .frameData _ _ n data => n != 0 && payloadFits data
  | .frameHandshake _ _ data => payloadFits data
  | .frameResv _ _ low data => low != 0 && payloadFits data
  | .frameHeaderError => true
  | .ackEmpty => true
  | .ackStart => true
  | .ackPos n => n != 0
  | .ackNeg n => n != 0

end Sys2Proof
end

