-- ==== Sys2Proof/Machine/Operands.lean ====
section
/-! DEFINITION. The operand forms of CORE: the fields and classes of an ack byte and of a sequence
byte (30_encoding.md R54, R55; 40_frame_codec.md R74) and the arithmetic of sequence numbers
(41_sequence_space.md R76 to R82). Every function here is pure. -/

namespace Sys2Proof.Machine

/-! ### Ack bytes (R54, R74) -/

/-- `AckError(k) = k[7]`. -/
def ackError (k : Byte) : Bool := k.msb

/-- `AckIndex(k) = k[6:0]`. -/
def ackIndex (k : Byte) : Seq := k.setWidth 7

/-- `AckCompose(error, index) = (error << 7) | index`. -/
def ackCompose (error : Bool) (index : Seq) : Byte := BitVec.cons error index

/-- `AckStartSequence()`, the ack byte `HANDSHAKE` (R74, R8). -/
def ackStartSequence (c : Config) : Byte := c.handshake

/-- `IsStartSequenceAck(k)`. -/
def isStartSequenceAck (c : Config) (k : Byte) : Bool := k == c.handshake

/-- `AckPending(k)`: the whole byte is tested, so 0x80 is pending (conflict C3). -/
def ackPending (k : Byte) : Bool := k != 0x00

/-- The class of an ack byte, tested in the order EMPTY, START, POS, NEG (R54, R125 (f)). -/
def ackClass (c : Config) (k : Byte) : AckClass :=
  if k = 0x00 then .empty
  else if isStartSequenceAck c k then .start
  else if ackError k then .neg (ackIndex k)
  else .pos (ackIndex k)

/-! ### Sequence bytes (R55, R76) -/

/-- The sequence byte of a wheel number. -/
def seqByte (n : Seq) : Byte := n.setWidth 8

/-- A byte of the normal wheel, `SEQ_MIN..SEQ_MAX` (R76). -/
def onWheel (c : Config) (s : Byte) : Bool := c.seqMin ≤ s.toNat && s.toNat ≤ c.seqMax

/-- The class of a sequence byte (R55). `HANDSHAKE` is tested before the reserved range. -/
def seqClass (c : Config) (s : Byte) : SeqClass :=
  if s = c.handshake then .hshake
  else if onWheel c s then .data (s.setWidth 7)
  else if s = c.seqNone then .ackonly
  else .resv (s.setWidth 7)

/-! ### The wheel `SEQ_MIN..SEQ_MAX`, 1..127 (R77 to R82) -/

/-- The first number of the wheel, 1. -/
def firstSeq (c : Config) : Seq := BitVec.ofNat 7 c.seqMin

/-- The last number of the wheel, 127. -/
def lastSeq (c : Config) : Seq := BitVec.ofNat 7 c.seqMax

/-- How many numbers the wheel has, the 127 of R78 and R81. -/
def wheelSize (c : Config) : Nat := c.seqMax + 1 - c.seqMin

/-- `NextIndex(i)`: the successor on the wheel, 127 followed by 1 (R77). DESIGN CHOICE off the wheel,
where R77 gives no value: `NextIndex(0)` is 1 (log entry 9). -/
def nextIndex (c : Config) (i : Seq) : Seq := if i = lastSeq c then firstSeq c else i + 1

/-- `k` steps along the wheel from `n` (R77, R78). -/
def stepsFrom (c : Config) (n : Seq) : Nat → Seq
  | 0 => n
  | k + 1 => nextIndex c (stepsFrom c n k)

/-- `Dist(a, b) = ((b - 1) - (a - 1)) mod 127` for `a`, `b` in 1..127 (R78). It takes numbers of seven
bits, so `HANDSHAKE` is none of its operands (R76). The size of the wheel added keeps the subtraction
of naturals exact. DESIGN CHOICE for the number 0, which is on no wheel and for which
93_implementation_defined.md says to refuse: the formula is computed with it (log entry 9). -/
def wheelDist (c : Config) (a b : Seq) : Nat :=
  (b.toNat + wheelSize c - a.toNat) % wheelSize c

/-- `InRange(i)`: byte `i` is one of the `IB_WINDOW` numbers after `last_index` (R79). -/
def inRange (c : Config) (lastIndex : Seq) (i : Byte) : Bool :=
  onWheel c i && 1 ≤ wheelDist c lastIndex (i.setWidth 7) &&
    wheelDist c lastIndex (i.setWidth 7) ≤ c.ibWindow

/-- `PrecedesIndex(a, b)`: `b` is 1 to `MAX_OUTGOING_INDEX_GAP` steps after `a` (R80). -/
def precedesIndex (c : Config) (a b : Byte) : Bool :=
  onWheel c a && onWheel c b && 1 ≤ wheelDist c (a.setWidth 7) (b.setWidth 7) &&
    wheelDist c (a.setWidth 7) (b.setWidth 7) ≤ c.maxOutgoingIndexGap

/-- `Age(l) = ((Dist(l, next_send) - 1) mod 127) + 1` for `l` in 1..127 (R81). Adding 126 is
subtracting 1 modulo 127. `HANDSHAKE` is a distinct value here and no number (R76). DESIGN CHOICE for
it and for every other byte off the wheel, where R81 gives no value and 93_implementation_defined.md
says to refuse: such a byte has age 0, less than any number's (log entry 9). A live frame has one,
with the Writer active, only in a state that breaks R37. -/
def age (c : Config) (nextSend : Seq) (l : Byte) : Nat :=
  if onWheel c l then
    (wheelDist c (l.setWidth 7) nextSend + (wheelSize c - 1)) % wheelSize c + 1
  else 0

/-- The `n` wheel numbers from `e` on: `e`, `NextIndex(e)`, … -/
def wheelFrom (c : Config) : Nat → Seq → List Seq
  | 0, _ => []
  | n + 1, e => e :: wheelFrom c n (nextIndex c e)

/-- `Scan(e)`: the `MAX_OUTGOING_INDEX_GAP` numbers from `e` on (R82). -/
def scan (c : Config) (e : Seq) : List Seq := wheelFrom c c.maxOutgoingIndexGap e

end Sys2Proof.Machine
end

