-- ==== Sys2Proof/Machine/Codec.lean ====
section
/-! DEFINITION. The Frame Codec's pure functions (40_frame_codec.md R66 to R73): the checksum, one
parser step, a run over a history, the resync search, the parse of one more byte, and the
serializer. What `ParseChar` writes into a slot stands in Machine/Reader.lean. -/

namespace Sys2Proof.Machine

/-! ### Payload buffers (R18, R44)

A buffer is the list of the bytes written into it; every later position reads 0 (log entry 8). -/

/-- The first `n` bytes of a buffer. -/
def bufRead (d : List Byte) (n : Nat) : List Byte := (d ++ List.replicate (n - d.length) 0).take n

/-- The buffer with byte `b` at position `k`. -/
def bufWrite (d : List Byte) (k : Nat) (b : Byte) : List Byte :=
  if k < d.length then d.set k b else d ++ List.replicate (k - d.length) 0 ++ [b]

/-- The codes of `ParseChar`'s statuses (R67). -/
def statusCode : Status → Nat
  | .incomplete => 0
  | .parsed => 1
  | .headerError => 2
  | .dataError => 3

/-! ### Checksum (R66) -/

/-- One round of the running sum: `a <- a + x; b <- b + a`, both modulo 256. -/
def ckAdd (ab : Byte × Byte) (x : Byte) : Byte × Byte := (ab.1 + x, ab.2 + (ab.1 + x))

/-- `Ck(s)` (R66). -/
def ck (s : List Byte) : Byte × Byte := s.foldl ckAdd (0, 0)

/-! ### The places of a frame (R52)

R52 and R68 write the places as numbers; here they follow from `HDR_LEN` and `TRL_LEN` (log entry
11). -/

/-- Where the two bytes of the header checksum begin, byte 5: they are the header's last. -/
def headerSumAt (c : Config) : Nat := c.hdrLen - 2

/-- Byte `k` of the payload checksum that stands behind the payload, given its two sums. -/
def trailerByte (sums : Byte × Byte) (k : Nat) : Byte := if k = 0 then sums.1 else sums.2

/-- The `TRL_LEN` bytes behind the payload. -/
def trailerBytes (c : Config) (sums : Byte × Byte) : List Byte :=
  (List.range c.trlLen).map (trailerByte sums)

/-! ### The parser (R68, R69) -/

/-- A header byte before the header checksum enters its field (R68). -/
def takeHeaderField (ps : ParserState) (b : Byte) : ParserState :=
  if ps.pos = 2 then { ps with ack := b }
  else if ps.pos = 3 then { ps with seq := b }
  else if ps.pos = 4 then { ps with len := b }
  else ps

/-- A header byte before the header checksum enters the header sums, from `HDR_CK_FROM` on (R68). -/
def sumHeader (c : Config) (ps : ParserState) (b : Byte) : ParserState :=
  if c.hdrCkFrom ≤ ps.pos then
    { ps with ha := (ckAdd (ps.ha, ps.hb) b).1, hb := (ckAdd (ps.ha, ps.hb) b).2 }
  else ps

/-- A payload byte enters the buffer and the payload sums (R68). -/
def takePayload (c : Config) (ps : ParserState) (b : Byte) : ParserState :=
  { ps with
    data := bufWrite ps.data (ps.pos - c.hdrLen) b
    da := (ckAdd (ps.da, ps.db) b).1
    db := (ckAdd (ps.da, ps.db) b).2
    pos := ps.pos + 1 }

/-- The payload checksum byte that the parser expects at its position (R68). -/
def expectedTrailer (c : Config) (ps : ParserState) : Byte :=
  trailerByte (ps.da, ps.db) (ps.pos - (c.hdrLen + ps.len.toNat))

/-- `Step(ps, b)`: one byte into the parser (R68). -/
def codecStep (c : Config) (ps : ParserState) (b : Byte) : ParserState × Status :=
  if ps.pos = 0 ∧ b ≠ c.sync0 then (ps, .headerError)
  else if ps.pos = 1 ∧ b ≠ c.sync1 then (ps, .headerError)
  else if ps.pos < headerSumAt c then
    ({ takeHeaderField (sumHeader c ps b) b with pos := ps.pos + 1 }, .incomplete)
  else if ps.pos = headerSumAt c then
    if b ≠ ps.ha then (ps, .headerError) else ({ ps with pos := ps.pos + 1 }, .incomplete)
  else if ps.pos = headerSumAt c + 1 then
    if b ≠ ps.hb then (ps, .headerError) else ({ ps with pos := ps.pos + 1 }, .incomplete)
  else if ps.pos < c.hdrLen + ps.len.toNat then (takePayload c ps b, .incomplete)
  else if b ≠ expectedTrailer c ps then (ps, .dataError)
  else if ps.pos + 1 < c.hdrLen + ps.len.toNat + c.trlLen then
    ({ ps with pos := ps.pos + 1 }, .incomplete)
  else ({ ps with pos := ps.pos + 1 }, .parsed)

/-- `Run` from parser state `ps` on (R69): the first error ends the run, and a frame that ends
before the last byte is an `OVERRUN`. -/
def runFrom (c : Config) (ps : ParserState) : List Byte → RunStatus × ParserState
  | [] => (.incomplete, ps)
  | b :: rest =>
    match codecStep c ps b with
    | (ps', .incomplete) => runFrom c ps' rest
    | (ps', .headerError) => (.headerError, ps')
    | (ps', .dataError) => (.dataError, ps')
    | (ps', .parsed) => (if rest.isEmpty then .parsed else .overrun, ps')

/-- `Run(h)`: a whole history from the empty parser state (R69). -/
def run (c : Config) (h : List Byte) : RunStatus × ParserState := runFrom c ParserState.empty h

/-- `view(ps)` (R70). -/
def frameView (ps : ParserState) : View :=
  { ack := ps.ack, seq := ps.seq, len := ps.len, data := bufRead ps.data ps.len.toNat }

/-! ### Resync and the parse of one more byte (R70, R71) -/

/-- The first of the non-empty tails `h`, `h[1..]`, … whose run is `INCOMPLETE` or `PARSED`, with
that status and the parser state it gives. -/
def firstGoodTail (c : Config) : List Byte → Option (List Byte × Status × ParserState)
  | [] => none
  | b :: rest =>
    match run c (b :: rest) with
    | (.incomplete, ps) => some (b :: rest, .incomplete, ps)
    | (.parsed, ps) => some (b :: rest, .parsed, ps)
    | _ => firstGoodTail c rest

/-- `ReProcess(h)`: every offset `k >= 1` in ascending order, the first that succeeds wins (R71).
The answer holds `h[k..]` where the rule returns `k`. -/
def reProcess (c : Config) (h : List Byte) : Option (List Byte × Status × ParserState) :=
  firstGoodTail c h.tail

/-- What `ParseChar` answers and what it leaves in the slot. -/
structure ParseResult where
  status : Status
  hist : List Byte
  ps : ParserState
  view : View
deriving DecidableEq, Repr

/-- A history whose run failed with status `st` in state `ps`: the resync, or the error stands and
the frame resets to empty (R70, R72). -/
def recoverFrame (c : Config) (h : List Byte) (st : Status) (ps : ParserState) : ParseResult :=
  match reProcess c h with
  | some (h', st', ps') => { status := st', hist := h', ps := ps', view := frameView ps' }
  | none => { status := st, hist := [], ps := ParserState.empty, view := frameView ps }

/-- The parse of history `h`, the byte just taken being its last (R70). `OVERRUN` needs a history
that had already ended its frame, which no reachable slot holds; it is handled as a header error
(log entry 9). -/
def parseHistory (c : Config) (h : List Byte) : ParseResult :=
  match run c h with
  | (.incomplete, ps) => { status := .incomplete, hist := h, ps := ps, view := frameView ps }
  | (.parsed, ps) => { status := .parsed, hist := h, ps := ps, view := frameView ps }
  | (.headerError, ps) => recoverFrame c h .headerError ps
  | (.dataError, ps) => recoverFrame c h .dataError ps
  | (.overrun, ps) => recoverFrame c h .headerError ps

/-! ### Serialize (R73) -/

/-- Byte `p` of the header, before its checksum (R52). A header has no more fields than five; a longer
one would be filled up with 0 (log entry 11). -/
def headerByte (c : Config) (ack seq : Byte) (n p : Nat) : Byte :=
  if p = 0 then c.sync0
  else if p = 1 then c.sync1
  else if p = 2 then ack
  else if p = 3 then seq
  else if p = 4 then BitVec.ofNat 8 n
  else 0

/-- The header bytes before the header checksum, bytes 0..4 (R52). -/
def headerBytes (c : Config) (ack seq : Byte) (n : Nat) : List Byte :=
  (List.range (headerSumAt c)).map (headerByte c ack seq n)

/-- The header with its checksum, bytes 0..6 of a frame (R52, R53). -/
def frameHeader (c : Config) (ack seq : Byte) (n : Nat) : List Byte :=
  let sums := ck ((headerBytes c ack seq n).drop c.hdrCkFrom)
  headerBytes c ack seq n ++ [sums.1, sums.2]

/-- `Serialize(ack, seq, data)` (R73, R38). -/
def serialize (c : Config) (ack seq : Byte) (data : List Byte) : List Byte :=
  frameHeader c ack seq data.length ++ data ++ trailerBytes c (ck data)

end Sys2Proof.Machine
end

