-- ==== Sys2Proof/Decode.lean ====
section
/-! DEFINITION. Decoding and encoding (30_encoding.md R52 to R65). The decoder is total: a byte
string is an instruction of its channel or is rejected by a named `DecodeError`. A command is read
from the command port's opcode map (R60, R61); a frame by the codec's own run (R69) and the
sequence-byte classes (R55, R58); an ack by the ack-byte classes (R54). The encoder writes the
bytes of a well-formed instruction from the same tables. -/

namespace Sys2Proof

open Machine

/-! ### The command port (R59 to R61, R63) -/

/-- The reserved opcode rows, 0x05..0x0F and 0x14..0xFF (R61), by their masks. Every other opcode
is a command's; the catch-all branch is reached by no reserved opcode. -/
def reservedRow (op : Byte) : Option Instr :=
  if op = 0x05 then some .reserved05
  else if op.extractLsb' 1 7 = 3 then some (.reserved06 (op.setWidth 1))
  else if op.extractLsb' 3 5 = 1 then some (.reserved08 (op.setWidth 3))
  else if op.extractLsb' 2 6 = 5 then some (.reserved14 (op.setWidth 2))
  else if op.extractLsb' 3 5 = 3 then some (.reserved18 (op.setWidth 3))
  else if op.extractLsb' 5 3 = 1 then some (.reserved20 (op.setWidth 5))
  else if op.extractLsb' 6 2 = 1 then some (.reserved40 (op.setWidth 6))
  else if op.extractLsb' 7 1 = 1 then some (.reserved80 (op.setWidth 7))
  else none

/-- A command that is its opcode byte alone (R60). -/
def decodeBare (i : Instr) (operands : List Byte) : Except DecodeError Instr :=
  if operands.isEmpty then .ok i else .error .wrongLength

/-- `TRANSMIT`'s operands: `len`, then exactly `len` data bytes (R60, R63). -/
def decodeTransmit : List Byte → Except DecodeError Instr
  | [] => .error .wrongLength
  | len :: data => if data.length = len.toNat then .ok (.transmit data) else .error .wrongLength

/-- `PEEK_PACKET`'s operand: one byte (R60). -/
def decodePeek : List Byte → Except DecodeError Instr
  | [idx] => .ok (.peekPacket idx)
  | _ => .error .wrongLength

/-- A whole command: the opcode byte, then its operand list (R59, R60). -/
def decodeCommand : List Byte → Except DecodeError Instr
  | [] => .error .emptyCommand
  | op :: operands =>
    if op = 0x00 then decodeBare .reset operands
    else if op = 0x01 then decodeBare .tick operands
    else if op = 0x02 then decodeTransmit operands
    else if op = 0x03 then decodeBare .receive operands
    else if op = 0x04 then decodeBare .initialized operands
    else if op = 0x10 then decodeBare .readStep operands
    else if op = 0x11 then decodeBare .writeStep operands
    else if op = 0x12 then decodePeek operands
    else if op = 0x13 then decodeBare .peekResendPacket operands
    else match reservedRow op with
      | some i => decodeBare i operands
      | none => .error .wrongLength

/-! ### Host-program lines (R65) -/

/-- `TICKS n` is `n` one-byte `TICK` commands. -/
def decodeLine (bytes : List Byte) : Except DecodeError Instr :=
  if bytes.all (· == 0x01) then .ok (.ticks bytes.length) else .error .notTicks

/-! ### Frames and acks (R52, R54, R55, R58) -/

/-- The row of a finished frame: its sequence byte's class (R55, R58). -/
def frameInstr (c : Config) (fin : FrameEnd) (v : View) : Instr :=
  match seqClass c v.seq with
  | .ackonly => .frameAckonly fin v.ack v.data
  | .data n => .frameData fin v.ack n v.data
  | .hshake => .frameHandshake fin v.ack v.data
  | .resv low => .frameResv fin v.ack low v.data

/-- One frame on the wire, read by the codec's run from its first byte (R69). -/
def decodeFrame (c : Config) (bytes : List Byte) : Except DecodeError Instr :=
  match run c bytes with
  | (.parsed, ps) => .ok (frameInstr c .parsed (frameView ps))
  | (.dataError, ps) => .ok (frameInstr c .dataError (frameView ps))
  | (.headerError, _) => .ok .frameHeaderError
  | (.incomplete, _) => .error .incompleteFrame
  | (.overrun, _) => .error .overrunFrame

/-- The row of an ack byte: its class (R54, R58). -/
def ackInstr (c : Config) (k : Byte) : Instr :=
  match ackClass c k with
  | .empty => .ackEmpty
  | .start => .ackStart
  | .pos n => .ackPos n
  | .neg n => .ackNeg n

/-- One ack byte (R54). -/
def decodeAck (c : Config) : List Byte → Except DecodeError Instr
  | [k] => .ok (ackInstr c k)
  | _ => .error .notOneAckByte

/-- The decoder of every channel. -/
def decode : Channel → List Byte → Except DecodeError Instr
  | .command, bytes => decodeCommand bytes
  | .line, bytes => decodeLine bytes
  | .wire, bytes => decodeFrame hw bytes
  | .ack, bytes => decodeAck hw bytes

/-! ### Encoding -/

/-- The channel whose encoding a row of the table is. -/
def channelOf : Instr → Channel
  | .reset => .command
  | .tick => .command
  | .transmit _ => .command
  | .receive => .command
  | .initialized => .command
  | .reserved05 => .command
  | .reserved06 _ => .command
  | .reserved08 _ => .command
  | .readStep => .command
  | .writeStep => .command
  | .peekPacket _ => .command
  | .peekResendPacket => .command
  | .reserved14 _ => .command
  | .reserved18 _ => .command
  | .reserved20 _ => .command
  | .reserved40 _ => .command
  | .reserved80 _ => .command
  | .ticks _ => .line
  | .frameAckonly _ _ _ => .wire
  | .frameData _ _ _ _ => .wire
  | .frameHandshake _ _ _ => .wire
  | .frameResv _ _ _ _ => .wire
  | .frameHeaderError => .wire
  | .ackEmpty => .ack
  | .ackStart => .ack
  | .ackPos _ => .ack
  | .ackNeg _ => .ack

/-- A frame as it stands on the wire when it ends `PARSED`; for one that ends `DATA_ERROR`, the
shortest: its first payload checksum byte is one too high and the run ends there (log entry 13). -/
def encodeFrame (c : Config) (fin : FrameEnd) (ack seq : Byte) (data : List Byte) : List Byte :=
  match fin with
  | .parsed => serialize c ack seq data
  | .dataError => frameHeader c ack seq data.length ++ data ++ [(ck data).1 + 1]

/-- The bytes of an instruction on its channel (R52, R54, R60, R61, R65). `FRAME_HEADER_ERROR` has
no bytes of its own in the table; a first byte that is not `SYNC0` stands for it (log entry 13). -/
def encode : Instr → List Byte
  | .reset => [0x00]
  | .tick => [0x01]
  | .transmit data => 0x02 :: BitVec.ofNat 8 data.length :: data
  | .receive => [0x03]
  | .initialized => [0x04]
  | .reserved05 => [0x05]
  | .reserved06 low => [0x06 ||| low.setWidth 8]
  | .reserved08 low => [0x08 ||| low.setWidth 8]
  | .readStep => [0x10]
  | .writeStep => [0x11]
  | .peekPacket idx => [0x12, idx]
  | .peekResendPacket => [0x13]
  | .reserved14 low => [0x14 ||| low.setWidth 8]
  | .reserved18 low => [0x18 ||| low.setWidth 8]
  | .reserved20 low => [0x20 ||| low.setWidth 8]
  | .reserved40 low => [0x40 ||| low.setWidth 8]
  | .reserved80 low => [0x80 ||| low.setWidth 8]
  | .ticks n => List.replicate n 0x01
  | .frameAckonly fin ack data => encodeFrame hw fin ack hw.seqNone data
  | .frameData fin ack n data => encodeFrame hw fin ack (seqByte n) data
  | .frameHandshake fin ack data => encodeFrame hw fin ack hw.handshake data
  | .frameResv fin ack low data => encodeFrame hw fin ack (0x80 ||| low.setWidth 8) data
  | .frameHeaderError => [~~~hw.sync0]
  | .ackEmpty => [0x00]
  | .ackStart => [ackStartSequence hw]
  | .ackPos n => [ackCompose false n]
  | .ackNeg n => [ackCompose true n]

/-! ### The table's numbering -/

/-- A command's length in bytes, from its opcode, and for `TRANSMIT` from its first operand (R63). -/
def commandLength (op second : Nat) : Nat :=
  if op = 0x02 then 2 + second
  else if op = 0x12 then 2
  else 1

/-- The lowest `n` bytes of `w`, the least significant first. -/
def bytesOfNat : Nat → Nat → List Byte
  | 0, _ => []
  | n + 1, w => BitVec.ofNat 8 w :: bytesOfNat n (w / 256)

/-- The command whose low `nbits` bits are `w`, every bit above them 0, of the length its opcode
gives it. A row of the table that is no command has the same bits as some command (log entry 5);
the command port reads them as that command. -/
def tableCommand (nbits w : Nat) : List Byte :=
  let v := w % 2 ^ nbits
  bytesOfNat (max (nbits / 8) (commandLength (v % 256) (v / 256 % 256))) v

/-- The instruction the decoder reads from bits numbered as opcode_table.json numbers them. -/
def decodeTableWord (nbits w : Nat) : Option Instr :=
  match decodeCommand (tableCommand nbits w) with
  | .ok i => some i
  | .error _ => none

end Sys2Proof
end

