-- ==== Sys2Proof/Machine/State.lean ====
section
/-! DEFINITION. CORE's state (10_state.md R17 to R31), the environment's state that its ports read
and write (46_pair_and_host.md R111 to R113), the reasons a step can stop, and the reset state
(70_reset_and_hazards.md R134, R135). Plain data throughout. -/

namespace Sys2Proof.Machine

/-- The state of an inbound slot (R20). -/
inductive SlotState where
  | free
  | filling
  | ready
deriving DecidableEq, Repr

/-- An inbound slot (R20): the parser state and byte history of a frame under construction (R18,
R19), then the fields of a frame that waits for delivery. `data` lists the payload bytes, every
later position of the 256-byte buffer holding 0 (log entry 8). -/
structure InSlot where
  st : SlotState
  ps : ParserState
  hist : List Byte
  idx : Byte
  ack : Byte
  len : Byte
  data : List Byte
deriving DecidableEq, Repr

/-- What `Free(i)` leaves in an inbound slot (R83), and its reset value (R134). -/
def InSlot.freed : InSlot :=
  { st := .free, ps := ParserState.empty, hist := [], idx := 0, ack := 0, len := 0, data := [] }

/-- An outbound slot (R26). `data` lists the payload bytes as in `InSlot`. -/
structure OutSlot where
  live : Bool
  pending : Bool
  idx : Byte
  ack : Byte
  len : Byte
  data : List Byte
deriving DecidableEq, Repr

/-- What `FreeOut(j)` leaves in an outbound slot (R88), and the reset value of all but the first
(R134). -/
def OutSlot.freed : OutSlot :=
  { live := false, pending := false, idx := 0, ack := 0, len := 0, data := [] }

/-- The handshake frame that reset queues (R26, R109). -/
def OutSlot.handshake (c : Config) : OutSlot :=
  { live := true, pending := true, idx := c.handshake, ack := 0, len := 0, data := [] }

/-- The events of the trace (R122). -/
inductive EventCode where
  | headerError
  | dataError
  | sequenceGap
  | bufferFull
  | timeout
deriving DecidableEq, Repr

/-- A record of the event trace (R11, R122). -/
structure Event where
  code : EventCode
  info : Byte
deriving DecidableEq, Repr

/-- What the transport and the time source do at one boundary between two steps of CORE (R110):
bytes that arrive on the receive port (R111) and, if any, a new value of the time input (R113). -/
structure EnvAct where
  rx : List Byte
  time : Option Time
deriving DecidableEq, Repr

/-- Every field of CORE and of its environment. The first twelve are CORE's (R17); the others are
the environment's (R111 to R113) or the model's record of it (INVENTORY.md, '## State'). -/
structure State where
  /-- `ib[0..IB_CAP-1]` (R20). -/
  ib : List InSlot
  /-- `last_index`, the number of the last frame delivered in order (R21). -/
  lastIndex : Seq
  /-- `rd_started` (R22). -/
  rdStarted : Bool
  /-- `cur`, the slot the Reader feeds, or NONE (R23). -/
  cur : Option Nat
  /-- `in_ack`, the ack CORE owes the peer; 0x00 is none (R24). -/
  inAck : Byte
  /-- `out_ack`, the peer's ack the Writer has not consumed; 0x00 is none (R25). -/
  outAck : Byte
  /-- `ob[0..OB_CAP-1]` (R26). -/
  ob : List OutSlot
  /-- `earliest`, the oldest live sequence number (R27). -/
  earliest : Byte
  /-- `wr_started`, the Writer's state (R28). -/
  wrStarted : Bool
  /-- `next_send`, the number of the next data frame queued (R29). -/
  nextSend : Seq
  /-- `last_send`, the time of the last transmission (R30). -/
  lastSend : Time
  /-- `refused`, the model's mark (R31). -/
  refused : Bool
  /-- `rxq`, the receive queue, oldest byte first (R111). -/
  rxq : List Byte
  /-- `txs`, the bytes transmitted so far (R112). -/
  txs : List Byte
  /-- What the time input reads now (R113). -/
  time : Time
  /-- What transport and time source will do, one entry a boundary (R110, log entry 1). -/
  env : List EnvAct
  /-- The host's commands not yet issued, each a whole byte string (R59, log entry 2). -/
  cmds : List (List Byte)
  /-- The results CORE returned, oldest first (R59, log entry 4). -/
  results : List (List Byte)
  /-- The event trace, oldest first (R122, log entry 4). -/
  events : List Event
deriving DecidableEq, Repr

/-- Why a step stops with a fault. There is none: CORE raises no exception and has no fatal state
(R121, R126), so the type is empty and nobody raises it. -/
inductive Fault where
deriving DecidableEq, Repr

/-- Why a step is refused. A command that R61 refuses is no stop: it sets the mark `refused` and
the machine goes on. -/
inductive Refusal where
  /-- Raised by an arm of `exec` whose instruction has no meaning yet; no arm raises it now. Safe:
  nothing is claimed of such a step. -/
  | notModelled (mnemonic : String)
  /-- Raised by `step` when the configuration breaks R9, before the first command (R123). Safe: no
  behaviour is claimed of a machine the spec does not describe; this hardware never raises it. -/
  | badConfiguration
deriving DecidableEq, Repr

/-- The state at power-on, which is also what `RESET` gives (R134, R135), with the environment at
rest: nothing received, transmitted, issued or recorded, and the time input at 0 (log entry 10). -/
def State.reset : State :=
  { ib := List.replicate hw.ibCap InSlot.freed
    lastIndex := lastSeq hw
    rdStarted := false
    cur := none
    inAck := 0x00
    outAck := 0x00
    ob := OutSlot.handshake hw :: List.replicate (hw.obCap - 1) OutSlot.freed
    earliest := hw.handshake
    wrStarted := false
    nextSend := firstSeq hw
    lastSend := 0
    refused := false
    rxq := []
    txs := []
    time := 0
    env := []
    cmds := []
    results := []
    events := [] }

end Sys2Proof.Machine
end

