-- ==== Sys2Proof/Machine/Ops.lean ====
section
/-! DEFINITION. The named operations over State that the rules share: slots, ports, the event trace,
the refusal mark, and the boundaries at which the environment acts (00_scope.md R11,
46_pair_and_host.md R110 to R113). CORE takes no exception and returns from none (60_exceptions.md
R121, R126), so there is no operation for either; an error is recorded by `recordEvent` and CORE
goes on. -/

namespace Sys2Proof.Machine

/-! ### Slots -/

/-- Inbound slot `ib[i]`; a position that does not exist reads as free (log entry 9). -/
def inSlot (s : State) (i : Nat) : InSlot := s.ib.getD i InSlot.freed

/-- `ib[i] <- x`. -/
def setInSlot (i : Nat) (x : InSlot) (s : State) : State := { s with ib := s.ib.set i x }

/-- `ib[cur] <- x`; nothing when the Reader holds no slot (log entry 9). -/
def setCurSlot (x : InSlot) (s : State) : State :=
  match s.cur with
  | none => s
  | some i => setInSlot i x s

/-- Outbound slot `ob[j]`; a position that does not exist reads as free (log entry 9). -/
def outSlot (s : State) (j : Nat) : OutSlot := s.ob.getD j OutSlot.freed

/-- `ob[j] <- x`. -/
def setOutSlot (j : Nat) (x : OutSlot) (s : State) : State := { s with ob := s.ob.set j x }

/-! ### Events, results, refusal -/

/-- The code of an event (R122). -/
def eventNumber : EventCode → Nat
  | .headerError => 1
  | .dataError => 2
  | .sequenceGap => 3
  | .bufferFull => 4
  | .timeout => 5

/-- `Event(code, info)` (R11, R122): the trace grows, nothing else changes. -/
def recordEvent (code : EventCode) (info : Byte) (s : State) : State :=
  { s with events := s.events ++ [{ code := code, info := info }] }

/-- A command ends with a result (R59). A command with the result "none" calls this not at all. -/
def giveResult (bytes : List Byte) (s : State) : State := { s with results := s.results ++ [bytes] }

/-- `Refuse(reason)`: the whole state is marked, nothing else changes (R11, R31, R61). -/
def refuse (s : State) : State := { s with refused := true }

/-! ### Ports -/

/-- `RxAvailable()` (R111). -/
def rxAvailable (s : State) : Bool := !s.rxq.isEmpty

/-- `TxWrite(b)` for each byte of `bytes`, in order (R112). -/
def txWrite (bytes : List Byte) (s : State) : State := { s with txs := s.txs ++ bytes }

/-- `Now()` (R113). -/
def now (s : State) : Time := s.time

/-! ### The environment -/

/-- One boundary between two steps of CORE (R110): the transport appends bytes to the receive queue
and the time source may set a new time. With nothing planned, nothing happens. -/
def envTurn (s : State) : State :=
  match s.env with
  | [] => s
  | a :: rest => { s with env := rest, rxq := s.rxq ++ a.rx, time := a.time.getD s.time }

/-- How many bytes the Reader can find before the environment's plan ends: those in the queue and
those still to arrive. -/
def arrivals (s : State) : Nat := s.rxq.length + (s.env.map (·.rx.length)).sum

/-- The host issues its next command (R59, R110): the command's bytes and the state without it. -/
def takeCommand (s : State) : Option (List Byte × State) :=
  match s.cmds with
  | [] => none
  | bytes :: rest => some (bytes, { s with cmds := rest })

/-- The host's next command is `bytes`. -/
def putCommand (bytes : List Byte) (s : State) : State := { s with cmds := bytes :: s.cmds }

end Sys2Proof.Machine
end

