-- ==== Sys2Proof/Machine/Flags.lean ====
section
/-! DEFINITION. CORE has no condition codes (10_state.md R32). This file holds the state names of
R33 as functions of the registers, which the Reader's stall tests, the Writer's gate and
`INITIALIZED` read. -/

namespace Sys2Proof.Machine

/-- Reader `frame-in-progress`: `cur != NONE` and `ib[cur].hist != []` (R33). -/
def frameInProgress (s : State) : Bool :=
  match s.cur with
  | none => false
  | some i => !(inSlot s i).hist.isEmpty

/-- Reader `awaiting-frame`: `cur = NONE`, or `ib[cur].hist = []` (R33). -/
def awaitingFrame (s : State) : Bool :=
  match s.cur with
  | none => true
  | some i => (inSlot s i).hist.isEmpty

/-- Reader `ack-pending(incoming)` (R33). -/
def ackPendingIncoming (s : State) : Bool := ackPending s.inAck

/-- Reader `ack-pending(outgoing)` (R33). -/
def ackPendingOutgoing (s : State) : Bool := ackPending s.outAck

/-- Writer `pre-handshake` (R33). -/
def writerPreHandshake (s : State) : Bool := !s.wrStarted

/-- Writer `active` (R33). -/
def writerActive (s : State) : Bool := s.wrStarted

/-- `Initialized` (R33, R117). -/
def isInitialized (s : State) : Bool := s.rdStarted && s.wrStarted

/-- A truth value as a result byte (R60). -/
def flagByte (b : Bool) : Byte := if b then 0x01 else 0x00

end Sys2Proof.Machine
end

