-- ==== Sys2Proof/Machine/Inbound.lean ====
section
/-! DEFINITION. The Inbound Ring Buffer (42_inbound_buffer.md R83 to R86): `Cleanup`,
`AllocatePacket`, `PopPacket`, `Clear`, and the host command `RECEIVE` (46_pair_and_host.md
R116). -/

namespace Sys2Proof.Machine

/-- A slot that pass 1 of `Cleanup` evicts: READY with an index outside the window (R83). -/
def outOfWindow (c : Config) (lastIndex : Seq) (x : InSlot) : Bool :=
  x.st == .ready && !inRange c lastIndex x.idx

/-- Pass 1 of `Cleanup` (R83). -/
def evictOutOfWindow (c : Config) (lastIndex : Seq) (ib : List InSlot) : List InSlot :=
  ib.map fun x => if outOfWindow c lastIndex x then InSlot.freed else x

/-- Pass 2 of `Cleanup` (R83): a READY slot whose index an earlier READY slot has is freed. `seen`
holds the indices of the READY slots before this one. -/
def dropDuplicates (seen : List Byte) : List InSlot → List InSlot
  | [] => []
  | x :: rest =>
    if x.st = .ready then
      if x.idx ∈ seen then InSlot.freed :: dropDuplicates seen rest
      else x :: dropDuplicates (x.idx :: seen) rest
    else x :: dropDuplicates seen rest

/-- `Cleanup()` (R83). -/
def cleanup (c : Config) (s : State) : State :=
  { s with ib := dropDuplicates [] (evictOutOfWindow c s.lastIndex s.ib) }

/-- `AllocatePacket()` of the inbound buffer (R84): `Cleanup`, then the lowest free slot. -/
def allocateInbound (c : Config) (s : State) : State × Option Nat :=
  let s1 := cleanup c s
  match s1.ib.findIdx? (·.st == .free) with
  | none => (s1, none)
  | some i =>
    (setInSlot i { inSlot s1 i with st := .filling, ps := ParserState.empty, hist := [] } s1, some i)

/-- The lowest READY slot that holds the next number in order (R85). -/
def nextInOrder (c : Config) (s : State) : Option Nat :=
  s.ib.findIdx? fun x => x.st == .ready && x.idx == seqByte (nextIndex c s.lastIndex)

/-- `PopPacket()` (R85): the payload delivered, if any, as its length byte and its bytes. -/
def popPacket (c : Config) (s : State) : State × Option (Byte × List Byte) :=
  if ackPendingIncoming s then (s, none)
  else
    match nextInOrder c s with
    | none => (s, none)
    | some i =>
      let x := inSlot s i
      ({ setInSlot i InSlot.freed s with
          lastIndex := nextIndex c s.lastIndex
          inAck := ackCompose false (nextIndex c s.lastIndex) },
        some (x.len, bufRead x.data x.len.toNat))

/-- `Clear()` (R86): every slot freed, sequencing restarted, the Reader without a slot. -/
def clearInbound (c : Config) (s : State) : State :=
  { s with ib := s.ib.map fun _ => InSlot.freed, lastIndex := lastSeq c, cur := none }

/-- `RECEIVE`'s result (R116). -/
def receiveResult : Option (Byte × List Byte) → List Byte
  | none => [0x00, 0x00]
  | some (n, d) => 0x01 :: n :: d

/-- `RECEIVE` (R116). -/
def receive (c : Config) (s : State) : State :=
  giveResult (receiveResult (popPacket c s).2) (popPacket c s).1

/-- The meaning of `RECEIVE` (R116). -/
def execReceive (s : State) : Host.Outcome State Fault Refusal := .next (receive hw s)

end Sys2Proof.Machine
end

