-- ==== Sys2Proof/Machine/Reader.lean ====
section
/-! DEFINITION. The Reader (44_reader.md R98 to R102): `ParseChar` on a slot (40_frame_codec.md
R70), the handling of a finished frame, the `Read` step, the meanings of the five frame rows of the
opcode table, and the command `READ_STEP` (46_pair_and_host.md R118). -/

namespace Sys2Proof.Machine

/-- `ParseChar(i, b)` (R70): the slot's new history and parser state, and what is returned. -/
def parseChar (c : Config) (i : Nat) (b : Byte) (s : State) : State × Status × View :=
  let x := inSlot s i
  let r := parseHistory c (x.hist ++ [b])
  (setInSlot i { x with hist := r.hist, ps := r.ps } s, r.status, r.view)

/-! ### Finished frames -/

/-- `RdHeaderError()` (R99). -/
def rdHeaderError (s : State) : State := recordEvent .headerError 0 s

/-- `RdHandshake()` (R100). -/
def rdHandshake (c : Config) (s : State) : State :=
  { clearInbound c { s with inAck := ackStartSequence c } with rdStarted := true }

/-- The READY slot that `RdParsed` stores a frame in (R101). -/
def readySlot (v : View) : InSlot :=
  { st := .ready, ps := ParserState.empty, hist := [], idx := v.seq, ack := v.ack, len := v.len,
    data := v.data }

/-- `RdParsed(v)` (R101): a data frame in the window waits for delivery, one outside it is answered
with a negative ack, any other frame is dropped. -/
def rdParsed (c : Config) (v : View) (s : State) : State :=
  if onWheel c v.seq then
    if inRange c s.lastIndex v.seq then { setCurSlot (readySlot v) s with cur := none }
    else
      { setCurSlot InSlot.freed
          (recordEvent .sequenceGap v.seq { s with inAck := ackCompose true (ackIndex v.seq) })
        with cur := none }
  else { setCurSlot InSlot.freed s with cur := none }

/-- `RdDataError(v)` (R102). -/
def rdDataError (c : Config) (v : View) (s : State) : State :=
  if onWheel c v.seq then
    { recordEvent .dataError v.seq s with inAck := ackCompose true (ackIndex v.seq) }
  else recordEvent .dataError v.seq s

/-- What `Read` does with a frame that ended `PARSED` or `DATA_ERROR` (R98): its ack is captured,
then its sequence byte and its end decide. -/
def rdFrame (c : Config) (fin : FrameEnd) (v : View) (s : State) : State :=
  if v.seq = c.handshake then rdHandshake c { s with outAck := v.ack }
  else
    match fin with
    | .parsed => rdParsed c v { s with outAck := v.ack }
    | .dataError => rdDataError c v { s with outAck := v.ack }

/-- What `Read` does with `ParseChar`'s answer (R98). -/
def rdDispatch (c : Config) (st : Status) (v : View) (s : State) : State :=
  match st with
  | .incomplete => s
  | .headerError => rdHeaderError s
  | .parsed => rdFrame c .parsed v s
  | .dataError => rdFrame c .dataError v s

/-! ### The Read step (R98) -/

/-- The Reader's slot: the one it holds, or a newly allocated one (R98). -/
def acquireSlot (c : Config) (s : State) : State × Option Nat :=
  match s.cur with
  | some i => (s, some i)
  | none => allocateInbound c s

/-- One byte taken into slot `i`, and the frame it may finish (R98). -/
def consumeByte (c : Config) (i : Nat) (b : Byte) (s : State) : State :=
  let r := parseChar c i b { s with cur := some i }
  rdDispatch c r.2.1 r.2.2 r.1

/-- `Read()` (R98): true if a byte was consumed, false if the Reader stalled. -/
def readerStep (c : Config) (s : State) : State × Bool :=
  match s.rxq with
  | [] => (s, false)
  | b :: rest =>
    if ackPendingIncoming s || ackPendingOutgoing s then (s, false)
    else
      match acquireSlot c s with
      | (s1, none) => (recordEvent .bufferFull 0 s1, false)
      | (s1, some i) => (consumeByte c i b { s1 with rxq := rest }, true)

/-! ### Meanings -/

/-- The view of a frame with the given fields (R67). -/
def viewOf (ack seq : Byte) (data : List Byte) : View :=
  { ack := ack, seq := seq, len := BitVec.ofNat 8 data.length, data := data }

/-- The meaning of `FRAME_ACKONLY` (R101 (d), R102 (c)). -/
def execFrameAckonly (fin : FrameEnd) (ack : Byte) (data : List Byte) (s : State) :
    Host.Outcome State Fault Refusal :=
  .next (rdFrame hw fin (viewOf ack hw.seqNone data) s)

/-- The meaning of `FRAME_DATA` (R101, R102). -/
def execFrameData (fin : FrameEnd) (ack : Byte) (n : Seq) (data : List Byte) (s : State) :
    Host.Outcome State Fault Refusal :=
  .next (rdFrame hw fin (viewOf ack (seqByte n) data) s)

/-- The meaning of `FRAME_HANDSHAKE` (R100). -/
def execFrameHandshake (fin : FrameEnd) (ack : Byte) (data : List Byte) (s : State) :
    Host.Outcome State Fault Refusal :=
  .next (rdFrame hw fin (viewOf ack hw.handshake data) s)

/-- The meaning of `FRAME_RESV` (R101 (e), R102 (c)). -/
def execFrameResv (fin : FrameEnd) (ack : Byte) (low : Seq) (data : List Byte) (s : State) :
    Host.Outcome State Fault Refusal :=
  .next (rdFrame hw fin (viewOf ack (0x80 ||| low.setWidth 8) data) s)

/-- The meaning of `FRAME_HEADER_ERROR` (R99). -/
def execFrameHeaderError (s : State) : Host.Outcome State Fault Refusal := .next (rdHeaderError s)

/-- The meaning of `READ_STEP` (R118). -/
def execReadStep (s : State) : Host.Outcome State Fault Refusal :=
  .next (giveResult [flagByte (readerStep hw s).2] (readerStep hw s).1)

end Sys2Proof.Machine
end

