-- ==== Sys2Proof/Machine/Outbound.lean ====
section
/-! DEFINITION. The Outbound Ring Buffer (43_outbound_buffer.md R88 to R96): allocation, the oldest
live number, selection of the next frame, ack handling, resend marking, and the host commands
`PEEK_PACKET` and `PEEK_RESEND_PACKET`. -/

namespace Sys2Proof.Machine

/-- `AllocatePacket()` of the outbound buffer (R89): the lowest slot that is not live, now live and
pending. -/
def allocateOutbound (s : State) : State × Option Nat :=
  match s.ob.findIdx? (fun x => !x.live) with
  | none => (s, none)
  | some j => (setOutSlot j { outSlot s j with live := true, pending := true } s, some j)

/-- The live slot of greatest age, the lowest on a tie (R90, R81). -/
def oldestLive (c : Config) (nextSend : Seq) : List OutSlot → Option OutSlot
  | [] => none
  | x :: rest =>
    if x.live then
      match oldestLive c nextSend rest with
      | none => some x
      | some y => if age c nextSend x.idx < age c nextSend y.idx then some y else some x
    else oldestLive c nextSend rest

/-- The value `UpdateNextIndex` gives `earliest` (R90). -/
def earliestIndex (c : Config) (s : State) : Byte :=
  if writerPreHandshake s then c.handshake
  else
    match oldestLive c s.nextSend s.ob with
    | none => seqByte s.nextSend
    | some x => x.idx

/-- `UpdateNextIndex()` (R90). -/
def updateNextIndex (c : Config) (s : State) : State := { s with earliest := earliestIndex c s }

/-- The lowest live and pending slot with sequence byte `x` (R91). -/
def pendingSlot (s : State) (x : Byte) : Option Nat :=
  s.ob.findIdx? fun o => o.live && o.pending && o.idx == x

/-- The slot `NextPacket` selects, with `earliest` already recomputed (R91). -/
def selectPacket (c : Config) (s : State) : Option Nat :=
  if writerPreHandshake s then pendingSlot s c.handshake
  else (scan c (s.earliest.setWidth 7)).findSome? fun x => pendingSlot s (seqByte x)

/-- `NextPacket()` (R91). -/
def nextPacket (c : Config) (s : State) : State × Option Nat :=
  (updateNextIndex c s, selectPacket c (updateNextIndex c s))

/-- The slots with `f` applied to each that is live and satisfies `p`. -/
def mapLive (p : OutSlot → Bool) (f : OutSlot → OutSlot) (s : State) : State :=
  { s with ob := s.ob.map fun x => if x.live && p x then f x else x }

/-- The slot marked for (re)transmission. -/
def markPending (x : OutSlot) : OutSlot := { x with pending := true }

/-- `RemovePacket(n)` (R92): every live slot with index `n` is freed, then every live slot that
precedes `n` is marked. -/
def removePacket (c : Config) (n : Seq) (s : State) : State :=
  mapLive (fun x => precedesIndex c x.idx (seqByte n)) markPending
    (mapLive (fun x => x.idx == seqByte n) (fun _ => OutSlot.freed) s)

/-- `MarkResend(n)` (R93). -/
def markResend (n : Seq) (s : State) : State := mapLive (fun x => x.idx == seqByte n) markPending s

/-- `MarkAllResend()` (R94). -/
def markAllResend (s : State) : State := mapLive (fun _ => true) markPending s

/-- The lowest slot that satisfies `p`. -/
def lowestOutSlot (s : State) (p : OutSlot → Bool) : Option OutSlot := s.ob.find? p

/-- `PeekPacket(idx)` (R95): the result, with nothing changed. -/
def peekPacket (s : State) (idx : Byte) : List Byte :=
  match lowestOutSlot s (fun x => x.live && x.idx == idx) with
  | none => [0x00, 0x00, 0x00, 0x00]
  | some x => [0x01, x.ack, flagByte x.pending, x.len] ++ bufRead x.data x.len.toNat

/-- `PeekResendPacket()` (R96): the result, with nothing changed. -/
def peekResendPacket (s : State) : List Byte :=
  match lowestOutSlot s (fun x => x.live && x.pending) with
  | none => [0x00, 0x00, 0x00, 0x00]
  | some x => [0x01, x.idx, x.ack, x.len] ++ bufRead x.data x.len.toNat

/-- The meaning of `PEEK_PACKET` (R95). -/
def execPeekPacket (idx : Byte) (s : State) : Host.Outcome State Fault Refusal :=
  .next (giveResult (peekPacket s idx) s)

/-- The meaning of `PEEK_RESEND_PACKET` (R96). -/
def execPeekResendPacket (s : State) : Host.Outcome State Fault Refusal :=
  .next (giveResult (peekResendPacket s) s)

end Sys2Proof.Machine
end

