-- ==== Sys2Proof/Machine/Writer.lean ====
section
/-! DEFINITION. The Writer (45_writer.md R103 to R109): ack consumption, the resend timeout, the
transmission of a frame or of an ack-only frame, the `Write` step, the queueing of a payload, the
meanings of the four ack rows of the opcode table, and the commands `WRITE_STEP` and `TRANSMIT`
(46_pair_and_host.md R115, R119). -/

namespace Sys2Proof.Machine

/-! ### Step 1: acks (R104) -/

/-- The Writer becomes active: the handshake frames are freed and numbering starts at 1 (R104). -/
def wrActivate (c : Config) (s : State) : State :=
  { mapLive (fun x => x.idx == c.handshake) (fun _ => OutSlot.freed) s with
    wrStarted := true, nextSend := firstSeq c, earliest := seqByte (firstSeq c) }

/-- The Writer consumes an ack of the given class (R104). An empty ack leaves `out_ack` as it is;
a start-sequence ack is ignored once the Writer is active. -/
def wrConsume (c : Config) (k : AckClass) (s : State) : State :=
  match k with
  | .empty => s
  | .start =>
    if s.wrStarted then { s with outAck := 0x00 } else wrActivate c { s with outAck := 0x00 }
  | .neg n => markResend n { s with outAck := 0x00 }
  | .pos n => removePacket c n { s with outAck := 0x00 }

/-- `WrDrain()` (R104). -/
def wrDrain (c : Config) (s : State) : State := wrConsume c (ackClass c s.outAck) s

/-! ### Step 2: the timeout (R105) -/

/-- `((now - last_send) mod 2^TIME_W) > RESEND_TIMEOUT_US` (R105): both times are taken as
`TIME_W`-bit values before the subtraction (R113). -/
def timedOut (c : Config) (t : Time) (s : State) : Bool :=
  c.resendTimeoutUs < (t.setWidth c.timeW - s.lastSend.setWidth c.timeW).toNat

/-- `WrTimeout(now)` (R105): the event is recorded only if some frame is live. -/
def wrTimeout (c : Config) (t : Time) (s : State) : State :=
  if timedOut c t s then
    markAllResend (if s.ob.any (·.live) then recordEvent .timeout 0 s else s)
  else s

/-! ### Steps 3 and 4: transmission (R106, R107) -/

/-- The piggy-back of `WrSend` (R106): a frame without an ack takes the pending incoming ack. -/
def piggyBack (j : Nat) (s : State) : State :=
  if (outSlot s j).ack = 0x00 ∧ s.inAck ≠ 0x00 then
    { setOutSlot j { outSlot s j with ack := s.inAck } s with inAck := 0x00 }
  else s

/-- The bytes of the frame in outbound slot `x` (R106). -/
def slotBytes (c : Config) (x : OutSlot) : List Byte :=
  serialize c x.ack x.idx (bufRead x.data x.len.toNat)

/-- The transmission of the frame in slot `j` as it stands (R106). -/
def transmitSlot (c : Config) (j : Nat) (t : Time) (s : State) : State :=
  { setOutSlot j { outSlot s j with pending := false } (txWrite (slotBytes c (outSlot s j)) s) with
    lastSend := t }

/-- `WrSend(j, now)` (R106). -/
def wrSend (c : Config) (j : Nat) (t : Time) (s : State) : State :=
  transmitSlot c j t (piggyBack j s)

/-- `WrAckOnly(now)` (R107). -/
def wrAckOnly (c : Config) (t : Time) (s : State) : State :=
  { txWrite (serialize c s.inAck c.seqNone []) s with inAck := 0x00, lastSend := t }

/-! ### The Write step (R103) -/

/-- Steps 3 to 5 of `Write()` (R103): the selected frame, else an ack-only frame, else nothing. -/
def wrEmit (c : Config) (t : Time) (s : State) : State :=
  match nextPacket c s with
  | (s1, some j) => wrSend c j t s1
  | (s1, none) => if ackPendingIncoming s1 then wrAckOnly c t s1 else s1

/-- `Write()` (R103); the time input is read once. -/
def writerStep (c : Config) (s : State) : State :=
  wrEmit c (now s) (wrTimeout c (now s) (wrDrain c s))

/-! ### Queueing a payload (R108) -/

/-- The slot fields that `AddToOutgoingQueue` fills (R108). -/
def queuedSlot (x : OutSlot) (n : Seq) (data : List Byte) : OutSlot :=
  { x with idx := seqByte n, ack := 0x00, len := BitVec.ofNat 8 data.length, data := data }

/-- `AddToOutgoingQueue(data)` (R108): true if queued. -/
def addToOutgoingQueue (c : Config) (data : List Byte) (s : State) : State × Bool :=
  if writerPreHandshake s then (s, false)
  else
    match allocateOutbound s with
    | (s1, none) => (recordEvent .bufferFull 1 s1, false)
    | (s1, some j) =>
      ({ setOutSlot j (queuedSlot (outSlot s1 j) s1.nextSend data) s1 with
          nextSend := nextIndex c s1.nextSend }, true)

/-- `TRANSMIT` (R115). -/
def transmit (c : Config) (data : List Byte) (s : State) : State :=
  giveResult [flagByte (addToOutgoingQueue c data s).2] (addToOutgoingQueue c data s).1

/-! ### Meanings -/

/-- The meaning of `ACK_EMPTY` (R104). -/
def execAckEmpty (s : State) : Host.Outcome State Fault Refusal := .next (wrConsume hw .empty s)

/-- The meaning of `ACK_START` (R104). -/
def execAckStart (s : State) : Host.Outcome State Fault Refusal := .next (wrConsume hw .start s)

/-- The meaning of `ACK_POS` (R104, R92). -/
def execAckPos (n : Seq) (s : State) : Host.Outcome State Fault Refusal :=
  .next (wrConsume hw (.pos n) s)

/-- The meaning of `ACK_NEG` (R104, R93). -/
def execAckNeg (n : Seq) (s : State) : Host.Outcome State Fault Refusal :=
  .next (wrConsume hw (.neg n) s)

/-- The meaning of `WRITE_STEP` (R119). -/
def execWriteStep (s : State) : Host.Outcome State Fault Refusal := .next (writerStep hw s)

/-- The meaning of `TRANSMIT` (R115). -/
def execTransmit (data : List Byte) (s : State) : Host.Outcome State Fault Refusal :=
  .next (transmit hw data s)

end Sys2Proof.Machine
end

