-- ==== Sys2Proof/Machine/Pair.lean ====
section
/-! DEFINITION. RxTxPair (46_pair_and_host.md R114; 30_encoding.md R65): `TICK`, which drains the
receive queue and then makes one write decision, with the environment's boundaries between its
steps, and the pseudo-instruction `TICKS`. -/

namespace Sys2Proof.Machine

/-- `while Read(): skip` (R114), at most `fuel` times, with a boundary after each `Read` that
consumed a byte. -/
def readLoop (c : Config) : Nat → State → State
  | 0, s => s
  | fuel + 1, s =>
    match readerStep c s with
    | (s1, true) => readLoop c fuel (envTurn s1)
    | (s1, false) => s1

/-- `Tick()` (R114). Each `Read` that returns true takes one byte, so one more round than there are
bytes to come ends the loop (log entry 3). A boundary precedes the `Write`. -/
def tick (c : Config) (s : State) : State :=
  writerStep c (envTurn (readLoop c (arrivals s + 1) s))

/-- `n` more `TICK`s, each after a boundary. -/
def moreTicks (c : Config) : Nat → State → State
  | 0, s => s
  | n + 1, s => moreTicks c n (tick c (envTurn s))

/-- `TICKS n` (R65): `n` `TICK`s with a boundary between each two. -/
def ticks (c : Config) : Nat → State → State
  | 0, s => s
  | n + 1, s => moreTicks c n (tick c s)

/-- The meaning of `TICK` (R114). -/
def execTick (s : State) : Host.Outcome State Fault Refusal := .next (tick hw s)

/-- The meaning of `TICKS` (R65). -/
def execTicks (n : Nat) (s : State) : Host.Outcome State Fault Refusal := .next (ticks hw n s)

end Sys2Proof.Machine
end

