-- ==== Sys2Proof/Machine/System.lean ====
section
/-! DEFINITION. The system-level operations (60_exceptions.md R127): `RESET`
(70_reset_and_hazards.md R134), `INITIALIZED` (46_pair_and_host.md R117), and the reserved command
opcodes, which are refused: the state is marked and CORE goes on (30_encoding.md R61, R31). -/

namespace Sys2Proof.Machine

/-- `RESET` (R134): every register of CORE at its reset value; the environment and the mark
`refused` are left as they are. -/
def resetCore (c : Config) (s : State) : State :=
  { s with
    ib := List.replicate c.ibCap InSlot.freed
    lastIndex := lastSeq c
    rdStarted := false
    cur := none
    inAck := 0x00
    outAck := 0x00
    ob := OutSlot.handshake c :: List.replicate (c.obCap - 1) OutSlot.freed
    earliest := c.handshake
    wrStarted := false
    nextSend := firstSeq c
    lastSend := 0 }

/-- The meaning of `RESET` (R134). -/
def execReset (s : State) : Host.Outcome State Fault Refusal := .next (resetCore hw s)

/-- The meaning of `INITIALIZED` (R117). -/
def execInitialized (s : State) : Host.Outcome State Fault Refusal :=
  .next (giveResult [flagByte (isInitialized s)] s)

/-- The meaning of the reserved opcode 0x05 (R61). -/
def execReserved05 (s : State) : Host.Outcome State Fault Refusal := .next (refuse s)

/-- The meaning of the reserved opcodes 0x06..0x07 (R61). -/
def execReserved06 (_ : BitVec 1) (s : State) : Host.Outcome State Fault Refusal := .next (refuse s)

/-- The meaning of the reserved opcodes 0x08..0x0F (R61). -/
def execReserved08 (_ : BitVec 3) (s : State) : Host.Outcome State Fault Refusal := .next (refuse s)

/-- The meaning of the reserved opcodes 0x14..0x17 (R61). -/
def execReserved14 (_ : BitVec 2) (s : State) : Host.Outcome State Fault Refusal := .next (refuse s)

/-- The meaning of the reserved opcodes 0x18..0x1F (R61). -/
def execReserved18 (_ : BitVec 3) (s : State) : Host.Outcome State Fault Refusal := .next (refuse s)

/-- The meaning of the reserved opcodes 0x20..0x3F (R61). -/
def execReserved20 (_ : BitVec 5) (s : State) : Host.Outcome State Fault Refusal := .next (refuse s)

/-- The meaning of the reserved opcodes 0x40..0x7F (R61). -/
def execReserved40 (_ : BitVec 6) (s : State) : Host.Outcome State Fault Refusal := .next (refuse s)

/-- The meaning of the reserved opcodes 0x80..0xFF (R61). -/
def execReserved80 (_ : BitVec 7) (s : State) : Host.Outcome State Fault Refusal := .next (refuse s)

end Sys2Proof.Machine
end

