-- ==== Sys2Proof/Machine/Dispatch.lean ====
section
/-! DEFINITION. One arm per constructor of Instr, each a direct call of its meaning. -/

namespace Sys2Proof.Machine

/-- The meaning of an instruction. -/
def exec (i : Instr) (s : State) : Host.Outcome State Fault Refusal :=
  match i with
  -- host commands and the reserved opcodes between them
  | .reset => Sys2Proof.Machine.execReset s
  | .tick => Sys2Proof.Machine.execTick s
  | .transmit data => Sys2Proof.Machine.execTransmit data s
  | .receive => Sys2Proof.Machine.execReceive s
  | .initialized => Sys2Proof.Machine.execInitialized s
  | .reserved05 => Sys2Proof.Machine.execReserved05 s
  | .reserved06 low => Sys2Proof.Machine.execReserved06 low s
  | .reserved08 low => Sys2Proof.Machine.execReserved08 low s
  | .readStep => Sys2Proof.Machine.execReadStep s
  | .writeStep => Sys2Proof.Machine.execWriteStep s
  | .peekPacket idx => Sys2Proof.Machine.execPeekPacket idx s
  | .peekResendPacket => Sys2Proof.Machine.execPeekResendPacket s
  | .reserved14 low => Sys2Proof.Machine.execReserved14 low s
  | .reserved18 low => Sys2Proof.Machine.execReserved18 low s
  | .reserved20 low => Sys2Proof.Machine.execReserved20 low s
  | .reserved40 low => Sys2Proof.Machine.execReserved40 low s
  | .reserved80 low => Sys2Proof.Machine.execReserved80 low s
  -- the pseudo-instruction
  | .ticks n => Sys2Proof.Machine.execTicks n s
  -- frame classes
  | .frameAckonly fin ack data => Sys2Proof.Machine.execFrameAckonly fin ack data s
  | .frameData fin ack n data => Sys2Proof.Machine.execFrameData fin ack n data s
  | .frameHandshake fin ack data => Sys2Proof.Machine.execFrameHandshake fin ack data s
  | .frameResv fin ack low data => Sys2Proof.Machine.execFrameResv fin ack low data s
  | .frameHeaderError => Sys2Proof.Machine.execFrameHeaderError s
  -- ack classes
  | .ackEmpty => Sys2Proof.Machine.execAckEmpty s
  | .ackStart => Sys2Proof.Machine.execAckStart s
  | .ackPos n => Sys2Proof.Machine.execAckPos n s
  | .ackNeg n => Sys2Proof.Machine.execAckNeg n s

end Sys2Proof.Machine
end

