-- ==== Sys2Proof/Machine/Step.lean ====
section
/-! DEFINITION. One step of the machine: a boundary at which the environment acts, then one whole
host command, if the host issues one (46_pair_and_host.md R110, 30_encoding.md R59, R61,
60_exceptions.md R123, R133). -/

namespace Sys2Proof.Machine

/-- A command's bytes run: the instruction they decode to, or the refusal of R61. -/
def runCommand (bytes : List Byte) (s : State) : Host.Outcome State Fault Refusal :=
  match decodeCommand bytes with
  | .ok i => exec i s
  | .error _ => .next (refuse s)

/-- One step. A configuration outside R9 is refused before the first command (R123). With no command
waiting CORE does nothing (R133). -/
def step (s : State) : Host.Outcome State Fault Refusal :=
  if hw.valid then
    match takeCommand (envTurn s) with
    | none => .next (envTurn s)
    | some (bytes, s1) => runCommand bytes s1
  else .refused .badConfiguration

/-- The host's next command is the one whose bits are `w`, numbered as opcode_table.json numbers
them, so that the next step takes and runs it (log entry 2). -/
def State.withFetchWord (s : State) (nbits w : Nat) : State := putCommand (tableCommand nbits w) s

end Sys2Proof.Machine
end

