-- ==== Sys2Proof/Machine/Link.lean ====
section
/-! DEFINITION. Two COREs connected back to back (60_exceptions.md R131, 20_memory.md R48): two
States that share nothing, every byte one transmits being appended to the other's receive queue at
once (30_encoding.md R65, `@link`). -/

namespace Sys2Proof.Machine

/-- The two ends of one channel (R131). -/
structure Link where
  a : State
  b : State
deriving DecidableEq, Repr

/-- Both ends just reset (R135). -/
def linkReset : Link := { a := State.reset, b := State.reset }

/-- The bytes a state transmitted since an earlier one of the same CORE. -/
def newBytes (before after : State) : List Byte := after.txs.drop before.txs.length

/-- Bytes the other end transmitted arrive on the receive queue (R65). -/
def deliver (bytes : List Byte) (s : State) : State := { s with rxq := s.rxq ++ bytes }

/-- One CORE runs a command for its host: a boundary, then the command (R110, log entry 1). An outcome
that is no next state leaves the state as it is; no instruction has such an outcome. -/
def hostRun (i : Instr) (s : State) : State :=
  match exec i (envTurn s) with
  | .next t => t
  | .fault _ => s
  | .refused _ => s

/-- End `a` runs a command and what it transmits reaches end `b`. DESIGN CHOICE: the bytes arrive when
the command is complete (log entry 12). -/
def linkRunA (i : Instr) (l : Link) : Link :=
  { a := hostRun i l.a, b := deliver (newBytes l.a (hostRun i l.a)) l.b }

/-- End `b` runs a command and what it transmits reaches end `a`. -/
def linkRunB (i : Instr) (l : Link) : Link :=
  { a := deliver (newBytes l.b (hostRun i l.b)) l.a, b := hostRun i l.b }

/-- The directive `@time t` (R65). -/
def atTime (t : Time) (s : State) : State := { s with time := t }

/-- The directive `@rx b0 b1 …` (R65). -/
def atRx (bytes : List Byte) (s : State) : State := deliver bytes s

end Sys2Proof.Machine
end

