-- ==== Sys2Proof/Machine/Program.lean ====
section
/-! DEFINITION. Host programs (30_encoding.md R64, R65): the text of a line, the commands, the
directives and the pseudo-instruction it can stand for, the program that lines make up, and what
running it does to one CORE or to two linked ones. -/

namespace Sys2Proof.Machine

/-! ### Text (R64) -/

/-- A line without its comment. -/
def stripComment : List Char → List Char
  | [] => []
  | ch :: rest => if ch = ';' then [] else ch :: stripComment rest

/-- The words of a line; `word` holds the letters of the word being read, last first. -/
def splitWords (word : List Char) : List Char → List (List Char)
  | [] => if word.isEmpty then [] else [word.reverse]
  | ch :: rest =>
    if ch = ' ' then
      if word.isEmpty then splitWords [] rest else word.reverse :: splitWords [] rest
    else splitWords (ch :: word) rest

/-- The value of a digit, of either letter case. -/
def digitValue (ch : Char) : Option Nat :=
  if '0'.toNat ≤ ch.toNat ∧ ch.toNat ≤ '9'.toNat then some (ch.toNat - '0'.toNat)
  else if 'A'.toNat ≤ ch.toNat ∧ ch.toNat ≤ 'F'.toNat then some (ch.toNat - 'A'.toNat + 10)
  else if 'a'.toNat ≤ ch.toNat ∧ ch.toNat ≤ 'f'.toNat then some (ch.toNat - 'a'.toNat + 10)
  else none

/-- A number in base `base`, the digits read so far making `sofar`. -/
def readNumber (base sofar : Nat) : List Char → Option Nat
  | [] => some sofar
  | ch :: rest =>
    match digitValue ch with
    | none => none
    | some d => if d < base then readNumber base (sofar * base + d) rest else none

/-- An operand of a command: a byte in hexadecimal, of one or two digits (R64). -/
def readByte (word : List Char) : Option Byte :=
  if word.length = 1 ∨ word.length = 2 then (readNumber 16 0 word).map (BitVec.ofNat 8) else none

/-- A decimal operand, of `@time` and `TICKS` (R65). -/
def readDecimal (word : List Char) : Option Nat :=
  if word.isEmpty then none else readNumber 10 0 word

/-! ### Lines (R64, R65) -/

/-- A line of a host program. -/
inductive Line where
  /-- A command. -/
  | command (i : Instr)
  /-- The pseudo-instruction `TICKS n`. -/
  | ticks (n : Nat)
  /-- `@time t`. -/
  | time (t : Time)
  /-- `@rx b0 b1 …`. -/
  | rx (bytes : List Byte)
  /-- `@expect-tx b0 b1 …`. -/
  | expectTx (bytes : List Byte)
deriving DecidableEq, Repr

/-- A command that takes no operands. -/
def bareLine (i : Instr) (operands : List (List Char)) : Option Line :=
  if operands.isEmpty then some (.command i) else none

/-- The line of a mnemonic or a directive with its operands. DESIGN CHOICE: a decimal `t` of `@time t`
that is `2^TIME_W` or more, of which R65 says nothing, is taken modulo `2^TIME_W` (log entry 14). -/
def lineOf (name : List Char) (operands : List (List Char)) : Option Line :=
  if name = ['R', 'E', 'S', 'E', 'T'] then bareLine .reset operands
  else if name = ['T', 'I', 'C', 'K'] then bareLine .tick operands
  else if name = ['T', 'R', 'A', 'N', 'S', 'M', 'I', 'T'] then
    (operands.mapM readByte).bind fun data =>
      if payloadFits data then some (.command (.transmit data)) else none
  else if name = ['R', 'E', 'C', 'E', 'I', 'V', 'E'] then bareLine .receive operands
  else if name = ['I', 'N', 'I', 'T', 'I', 'A', 'L', 'I', 'Z', 'E', 'D'] then
    bareLine .initialized operands
  else if name = ['R', 'E', 'A', 'D', '_', 'S', 'T', 'E', 'P'] then bareLine .readStep operands
  else if name = ['W', 'R', 'I', 'T', 'E', '_', 'S', 'T', 'E', 'P'] then
    bareLine .writeStep operands
  else if name = ['P', 'E', 'E', 'K', '_', 'P', 'A', 'C', 'K', 'E', 'T'] then
    match operands with
    | [word] => (readByte word).map fun idx => .command (.peekPacket idx)
    | _ => none
  else if name = ['P', 'E', 'E', 'K', '_', 'R', 'E', 'S', 'E', 'N', 'D', '_', 'P', 'A', 'C', 'K',
      'E', 'T'] then bareLine .peekResendPacket operands
  else if name = ['T', 'I', 'C', 'K', 'S'] then
    match operands with
    | [word] => (readDecimal word).map .ticks
    | _ => none
  else if name = ['@', 't', 'i', 'm', 'e'] then
    match operands with
    | [word] => (readDecimal word).map fun t => .time (BitVec.ofNat hw.timeW t)
    | _ => none
  else if name = ['@', 'r', 'x'] then (operands.mapM readByte).map .rx
  else if name = ['@', 'e', 'x', 'p', 'e', 'c', 't', '-', 't', 'x'] then
    (operands.mapM readByte).map .expectTx
  else none

/-- The words of a text, without its comment. -/
def wordsOf (text : List Char) : List (List Char) := splitWords [] (stripComment text)

/-- The line that words stand for; none, if there is no word or R64 and R65 do not admit them. -/
def readWords : List (List Char) → Option Line
  | [] => none
  | name :: operands => lineOf name operands

/-- The line a text stands for. -/
def readLine (text : List Char) : Option Line := readWords (wordsOf text)

/-! ### Programs (R64, R65) -/

/-- Which instance of a two-peer program runs a line. -/
inductive End where
  | a
  | b
deriving DecidableEq, Repr

/-- The prefix `A:` or `B:` of a word, and the letters behind it. -/
def readPrefix : List Char → Option (End × List Char)
  | 'A' :: ':' :: rest => some (.a, rest)
  | 'B' :: ':' :: rest => some (.b, rest)
  | _ => none

/-- A prefixed line; the prefix may stand before the line's first word or be a word of its own. -/
def readPrefixed : List (List Char) → Option (End × Line)
  | [] => none
  | word :: words =>
    match readPrefix word with
    | none => none
    | some (e, letters) =>
      (readWords (if letters.isEmpty then words else letters :: words)).map fun l => (e, l)

/-- The directive `@link A B`. -/
def linkDirective : List (List Char) := [['@', 'l', 'i', 'n', 'k'], ['A'], ['B']]

/-- A host program: for one CORE, or, with `@link A B`, for two linked ones. -/
inductive Program where
  | one (lines : List Line)
  | two (lines : List (End × Line))
deriving DecidableEq, Repr

/-- The program that texts stand for, one text a line; a text of blanks and a comment is no line. Its
first line is `@link A B` exactly if it is a two-peer program, and every later line is then prefixed
(log entry 14). -/
def readProgram (texts : List (List Char)) : Option Program :=
  match (texts.map wordsOf).filter fun words => !words.isEmpty with
  | [] => some (.one [])
  | first :: rest =>
    if first = linkDirective then (rest.mapM readPrefixed).map .two
    else ((first :: rest).mapM readWords).map .one

/-! ### Running (R65) -/

/-- One CORE that runs a program: how many transmitted bytes the previous `@expect-tx` has seen, and
whether every `@expect-tx` so far was met. -/
structure Session where
  state : State
  seen : Nat
  met : Bool
deriving DecidableEq, Repr

/-- A line runs. `TICKS n` is `n` `TICK` lines, each with the boundary that precedes a command (R110). A
directive acts on the environment only. DESIGN CHOICE: a first `@expect-tx`, which has no previous one
for R65 to count from, counts every byte transmitted since the program's start (log entry 14). -/
def runLine (l : Line) (x : Session) : Session :=
  match l with
  | .command i => { x with state := hostRun i x.state }
  | .ticks n => { x with state := (hostRun .tick)^[n] x.state }
  | .time t => { x with state := atTime t x.state }
  | .rx bytes => { x with state := atRx bytes x.state }
  | .expectTx bytes =>
    { x with seen := x.state.txs.length, met := x.met && x.state.txs.drop x.seen == bytes }

/-- Lines run, one after the other. -/
def runLines (p : List Line) (x : Session) : Session := p.foldl (fun y l => runLine l y) x

/-- Two linked COREs that run a program: how many transmitted bytes of each end that end's previous
`@expect-tx` has seen, and whether every `@expect-tx` so far was met. -/
structure LinkSession where
  link : Link
  seenA : Nat
  seenB : Nat
  met : Bool
deriving DecidableEq, Repr

/-- A line of a two-peer program runs on the instance its prefix names. Every `TICK` of `TICKS n` ends,
and its bytes reach the other instance, before the next begins. DESIGN CHOICE: where R65 says "since the
previous `@expect-tx`", the previous one of the SAME end is taken, and for an end's first one every byte
that end transmitted since the program's start (log entry 14). -/
def runLinkLine (e : End) (l : Line) (x : LinkSession) : LinkSession :=
  match e, l with
  | .a, .command i => { x with link := linkRunA i x.link }
  | .b, .command i => { x with link := linkRunB i x.link }
  | .a, .ticks n => { x with link := (linkRunA .tick)^[n] x.link }
  | .b, .ticks n => { x with link := (linkRunB .tick)^[n] x.link }
  | .a, .time t => { x with link := { x.link with a := atTime t x.link.a } }
  | .b, .time t => { x with link := { x.link with b := atTime t x.link.b } }
  | .a, .rx bytes => { x with link := { x.link with a := atRx bytes x.link.a } }
  | .b, .rx bytes => { x with link := { x.link with b := atRx bytes x.link.b } }
  | .a, .expectTx bytes =>
    { x with
      seenA := x.link.a.txs.length
      met := x.met && x.link.a.txs.drop x.seenA == bytes }
  | .b, .expectTx bytes =>
    { x with
      seenB := x.link.b.txs.length
      met := x.met && x.link.b.txs.drop x.seenB == bytes }

/-- Lines of a two-peer program run, one after the other. -/
def runLinkLines (p : List (End × Line)) (x : LinkSession) : LinkSession :=
  p.foldl (fun y l => runLinkLine l.1 l.2 y) x

/-- Whether a program run from power-on meets every `@expect-tx` in it (R65, R135). -/
def programMet : Program → Bool
  | .one lines => (runLines lines { state := State.reset, seen := 0, met := true }).met
  | .two lines =>
    (runLinkLines lines { link := linkReset, seenA := 0, seenB := 0, met := true }).met

end Sys2Proof.Machine
end

