-- ==== Sys2Proof/Safety.lean ====
section
/-! DEFINITION. What a state reachable from reset satisfies (10_state.md R37, with the ranges of R17
and the slot contents of R19, R20, R26), what a good final state is (R31), and what draining the
receive queue means (46_pair_and_host.md R114). -/

namespace Sys2Proof.Machine

/-- An inbound slot as R20 describes each of its three states. A FREE slot holds nothing; a FILLING
slot's history parses to `INCOMPLETE`, its parser state is that parse, and it is short enough to
resync (R19, R37 (2)); a READY slot holds a data frame's number and payload (R37 (3)). -/
def InSlot.Ok (x : InSlot) : Prop :=
  match x.st with
  | .free => x = InSlot.freed
  | .filling =>
    run hw x.hist = (.incomplete, x.ps) ∧ x.hist.length ≤ hw.maxResync ∧
      x.idx = 0 ∧ x.ack = 0 ∧ x.len = 0 ∧ x.data = []
  | .ready =>
    x.ps = ParserState.empty ∧ x.hist = [] ∧ onWheel hw x.idx = true ∧ x.data.length = x.len.toNat

/-- An outbound slot as R26 and R37 (4) describe it: empty, or before the Writer is active the
handshake frame, which has no payload (R109), and after it a frame with a wheel number. -/
def OutSlot.Ok (wrStarted : Bool) (x : OutSlot) : Prop :=
  match x.live with
  | false => x = OutSlot.freed
  | true =>
    x.data.length = x.len.toNat ∧
      match wrStarted with
      | false => x.idx = hw.handshake ∧ x.len = 0
      | true => onWheel hw x.idx = true

/-- What every reachable state satisfies (R37). -/
structure State.Inv (s : State) : Prop where
  /-- `ib` has `IB_CAP` slots (R17). -/
  ibCount : s.ib.length = hw.ibCap
  /-- `ob` has `OB_CAP` slots (R17). -/
  obCount : s.ob.length = hw.obCap
  /-- `last_index` is on the wheel (R21). -/
  lastIndexOnWheel : s.lastIndex ≠ 0
  /-- `next_send` is on the wheel (R29). -/
  nextSendOnWheel : s.nextSend ≠ 0
  /-- The Reader's slot exists (R23). -/
  curExists : ∀ i, s.cur = some i → i < s.ib.length
  /-- The one FILLING slot is the Reader's (R37 (1)). -/
  fillingIsCur : ∀ i, i < s.ib.length → ((inSlot s i).st = .filling ↔ s.cur = some i)
  /-- Every inbound slot is as R20 describes it. -/
  inSlotsOk : ∀ x ∈ s.ib, x.Ok
  /-- Every outbound slot is as R26 describes it. -/
  outSlotsOk : ∀ x ∈ s.ob, x.Ok s.wrStarted
  /-- `earliest` is the handshake marker exactly before the Writer is active (R37 (5)). -/
  earliestBefore : s.earliest = hw.handshake ↔ s.wrStarted = false
  /-- `earliest` is on the wheel after (R27). -/
  earliestAfter : s.wrStarted = true → onWheel hw s.earliest = true

/-- A good final state is not marked refused (R31). -/
def State.good (s : State) : Bool := !s.refused

/-- `Drains s t`: repeating `Read` from `s` while it consumes a byte, with a boundary after each such
`Read`, ends at `t`, where a `Read` has stalled (R114). -/
inductive Drains : State → State → Prop where
  /-- The first `Read` stalls. -/
  | stall {s t : State} : readerStep hw s = (t, false) → Drains s t
  /-- A `Read` consumes a byte, the environment acts, and the loop goes on. -/
  | more {s u t : State} : readerStep hw s = (u, true) → Drains (envTurn u) t → Drains s t

end Sys2Proof.Machine
end

