-- ==== Sys2Proof/Certificates/Slice0/Obligations.lean ====
section
/-! DEFINITION. The statements about CORE, one `def Obligations.<Name> : Prop` each, with the
predicates they share. OBLIGATIONS.json lists them with the rules they rest on. -/

open Sys2Proof Sys2Proof.Machine

namespace Sys2Proof.Statements

/-! ### Shared predicates -/

/-- The history is the beginning of a frame, or one whole frame (R71). -/
def Good (h : List Byte) : Prop := (run hw h).1 = .incomplete ∨ (run hw h).1 = .parsed

/-- The bytes given to `ParseChar` on slot `i` one at a time, with the status and view of each. -/
def feedBytes (i : Nat) : List Byte → State → State × List (Status × View)
  | [], s => (s, [])
  | b :: rest, s =>
    ((feedBytes i rest (parseChar hw i b s).1).1,
      (parseChar hw i b s).2 :: (feedBytes i rest (parseChar hw i b s).1).2)

/-- A command string that R61 refuses: a reserved opcode, or a string shorter or longer than its
opcode's operand list. -/
def RefusedCommand (bytes : List Byte) : Prop :=
  bytes = [] ∨ ∃ op operands, bytes = op :: operands ∧
    ((0x05 ≤ op.toNat ∧ op.toNat ≤ 0x0F) ∨ 0x14 ≤ op.toNat ∨
      (op.toNat ∈ [0x00, 0x01, 0x03, 0x04, 0x10, 0x11, 0x13] ∧ operands.length ≠ 0) ∨
      (op.toNat = 0x12 ∧ operands.length ≠ 1) ∨
      (op.toNat = 0x02 ∧ ∀ len data, operands = len :: data → data.length ≠ len.toNat))

/-- `i` is the lowest position of a list whose entry satisfies `p`. -/
def Lowest {α : Type} (l : List α) (p : α → Prop) (i : Nat) : Prop :=
  (∃ x, l[i]? = some x ∧ p x) ∧ ∀ j x, j < i → l[j]? = some x → ¬p x

/-- A live outbound frame. -/
def Live (x : OutSlot) : Prop := x.live = true

/-- A live frame selected for transmission, with sequence byte `b`. -/
def PendingAs (b : Byte) (x : OutSlot) : Prop := x.live = true ∧ x.pending = true ∧ x.idx = b

/-- The READY slot that `PopPacket` looks for (R85). -/
def NextReady (s : State) (x : InSlot) : Prop :=
  x.st = .ready ∧ x.idx = seqByte (nextIndex hw s.lastIndex)

/-- An inbound slot that a newly arrived `Cleanup` evicts at position `i` (R83). -/
def Evicted (s : State) (i : Nat) (x : InSlot) : Prop :=
  x.st = .ready ∧
    (inRange hw s.lastIndex x.idx = false ∨
      ∃ j y, j < i ∧ s.ib[j]? = some y ∧ y.st = .ready ∧ y.idx = x.idx)

/-- The slot the Reader feeds its next byte into, and the inbound slots it then finds: the slot it
holds, or the lowest one that `Cleanup` leaves FREE, now FILLING (R98, R84). -/
def ReaderSlot (s : State) (i : Nat) (ib : List InSlot) : Prop :=
  (s.cur = some i ∧ ib = s.ib) ∨
    (s.cur = none ∧
      ∃ x, (cleanup hw s).ib[i]? = some x ∧ Lowest (cleanup hw s).ib (fun y => y.st = .free) i ∧
        ib = (cleanup hw s).ib.set i
          { x with st := .filling, ps := ParserState.empty, hist := [] })

/-- What becomes of a history whose run failed with status `st` in parser state `ps` (R70, R71): the
tail at the lowest good offset from 1 on, with that tail's run; or, if no offset is good, the error
stands, the slot is empty, and the view is that of the FAILED frame. -/
def Recovers (h : List Byte) (st : Status) (ps : ParserState) (r : ParseResult) : Prop :=
  (∃ k st' ps', 1 ≤ k ∧ k < h.length ∧ (∀ j, 1 ≤ j → j < k → ¬Good (h.drop j)) ∧
    ((run hw (h.drop k) = (.incomplete, ps') ∧ st' = .incomplete) ∨
      (run hw (h.drop k) = (.parsed, ps') ∧ st' = .parsed)) ∧
    r = { status := st', hist := h.drop k, ps := ps',
          view := { ack := ps'.ack, seq := ps'.seq, len := ps'.len,
                    data := bufRead ps'.data ps'.len.toNat } }) ∨
  ((∀ k, 1 ≤ k → k < h.length → ¬Good (h.drop k)) ∧
    r = { status := st, hist := [], ps := ParserState.empty,
          view := { ack := ps.ack, seq := ps.seq, len := ps.len,
                    data := bufRead ps.data ps.len.toNat } })

/-- What R70 makes of a history whose last byte was just taken, in terms of its run (R69): a history
that goes on or is whole stays, with its own view; a failed one recovers or its error stands. -/
def ParsesTo (h : List Byte) (r : ParseResult) : Prop :=
  ∃ ps,
    (run hw h = (.incomplete, ps) ∧
      r = { status := .incomplete, hist := h, ps := ps,
            view := { ack := ps.ack, seq := ps.seq, len := ps.len,
                      data := bufRead ps.data ps.len.toNat } }) ∨
    (run hw h = (.parsed, ps) ∧
      r = { status := .parsed, hist := h, ps := ps,
            view := { ack := ps.ack, seq := ps.seq, len := ps.len,
                      data := bufRead ps.data ps.len.toNat } }) ∨
    (run hw h = (.headerError, ps) ∧ Recovers h .headerError ps r) ∨
    (run hw h = (.dataError, ps) ∧ Recovers h .dataError ps r)

/-- A host command that neither resets CORE nor makes the Writer act. -/
def LeavesAcks (i : Instr) : Prop :=
  channelOf i = .command ∧ i ≠ .reset ∧ i ≠ .tick ∧ i ≠ .writeStep

/-- The bytes appended to a list of bytes between two states. -/
def Sent (s t : State) (bytes : List Byte) : Prop := t.txs = s.txs ++ bytes

end Sys2Proof.Statements

open Sys2Proof.Statements

/-! ### Encoding -/

/-- Decoding the bytes of a well-formed instruction on its channel gives the instruction back, for
every row of the table and every operand. The encodings are the spec's for the commands and the
reserved opcodes (30_encoding.md R60, R61), for the frames that end PARSED (R52, R55) and for the
acks (R54). The MODEL's choices, which no rule gives: the channels (log entry 5), the bytes of
`TICKS n`, which are those of the `n` commands it stands for (log entry 6), and the bytes of
`FRAME_HEADER_ERROR` and of the frames that end DATA_ERROR (log entry 13). -/
def Obligations.DecodeEncodeRoundTrip : Prop :=
  ∀ i : Instr, i.wellFormed = true → decode (channelOf i) (encode i) = .ok i

/-- A command string that decodes is, byte for byte, the encoding of the well-formed command it
decodes to: no two strings are the same command and no bit is dropped (30_encoding.md R59, R60,
R63). -/
def Obligations.CommandBytesReadExactly : Prop :=
  ∀ (bytes : List Byte) (i : Instr), decodeCommand bytes = .ok i →
    i.wellFormed = true ∧ channelOf i = .command ∧ encode i = bytes

/-- Words written out from the opcode map of R60 and the classes of R54 and R55 decode to what they
stand for. -/
def Obligations.WrittenOutWordsDecode : Prop :=
  decodeCommand [0x02, 0x03, 0x01, 0x02, 0x03] = .ok (.transmit [1, 2, 3]) ∧
    decodeCommand [0x12, 0x80] = .ok (.peekPacket 0x80) ∧
    decodeCommand [0x03] = .ok .receive ∧
    decodeCommand [0x17] = .ok (.reserved14 3) ∧
    decodeAck hw [0x85] = .ok (.ackNeg 5) ∧
    decodeFrame hw [0x0A, 0x3C, 0x00, 0x80, 0x00, 0xC6, 0x22, 0x00, 0x00] =
      .ok (.frameHandshake .parsed 0x00 [])

/-- R61: a reserved opcode, or a command string shorter or longer than its opcode's operand list, is
refused: `refused` is set and nothing else changes, beyond the command being taken and the boundary
before it. -/
def Obligations.MalformedCommandsOnlyMark : Prop :=
  ∀ (s : State) (bytes : List Byte) (rest : List (List Byte)),
    (envTurn s).cmds = bytes :: rest →
    RefusedCommand bytes →
    step s = .next { envTurn s with cmds := rest, refused := true }

/-- Every reserved opcode row runs to a next state that is marked and otherwise unchanged (R61). -/
def Obligations.ReservedRowsOnlyMark : Prop :=
  ∀ s : State,
    exec .reserved05 s = .next { s with refused := true } ∧
    (∀ low, exec (.reserved06 low) s = .next { s with refused := true }) ∧
    (∀ low, exec (.reserved08 low) s = .next { s with refused := true }) ∧
    (∀ low, exec (.reserved14 low) s = .next { s with refused := true }) ∧
    (∀ low, exec (.reserved18 low) s = .next { s with refused := true }) ∧
    (∀ low, exec (.reserved20 low) s = .next { s with refused := true }) ∧
    (∀ low, exec (.reserved40 low) s = .next { s with refused := true }) ∧
    (∀ low, exec (.reserved80 low) s = .next { s with refused := true })

/-! ### Frame codec -/

/-- R66: the first checksum byte is the sum of the bytes modulo 256, the second the sum in which
byte `i` of `n` counts `n - i` times. -/
def Obligations.ChecksumIsRunningSum : Prop :=
  ∀ s : List Byte,
    (ck s).1.toNat = (s.map BitVec.toNat).sum % 256 ∧
    (ck s).2.toNat =
      ((List.range s.length).map fun i => (s.length - i) * (s.getD i 0).toNat).sum % 256

/-- R73: the bytes `Serialize` writes, and that `ParseChar` on a slot with an empty history reads
them back: INCOMPLETE for every byte but the last, PARSED with the same fields at the last. -/
def Obligations.SerializedFrameParsesBack : Prop :=
  ∀ (ack seq : Byte) (data : List Byte) (s : State) (i : Nat), data.length ≤ 255 →
    i < s.ib.length → (inSlot s i).hist = [] →
    serialize hw ack seq data =
        [0x0A, 0x3C, ack, seq, BitVec.ofNat 8 data.length] ++
          [(ck [0x0A, 0x3C, ack, seq, BitVec.ofNat 8 data.length]).1,
            (ck [0x0A, 0x3C, ack, seq, BitVec.ofNat 8 data.length]).2] ++
          data ++ [(ck data).1, (ck data).2] ∧
      ∃ before,
        (feedBytes i (serialize hw ack seq data) s).2 =
          before ++ [(.parsed,
            { ack := ack, seq := seq, len := BitVec.ofNat 8 data.length, data := data })] ∧
        before.length = 8 + data.length ∧ ∀ r ∈ before, r.1 = .incomplete

/-- R75 (a): one changed byte at position 0 to 6 of a frame gives HEADER_ERROR, at position 5 when
byte 2, 3 or 4 was changed and at the changed byte otherwise; everything before is INCOMPLETE. -/
def Obligations.HeaderCorruptionDetected : Prop :=
  ∀ (ack seq : Byte) (data : List Byte) (p : Nat) (b : Byte), data.length ≤ 255 → p < 7 →
    b ≠ (serialize hw ack seq data).getD p 0 →
    let e := if 2 ≤ p ∧ p ≤ 4 then 5 else p
    (run hw (((serialize hw ack seq data).set p b).take e)).1 = .incomplete ∧
      (run hw (((serialize hw ack seq data).set p b).take (e + 1))).1 = .headerError ∧
      (run hw ((serialize hw ack seq data).set p b)).1 = .headerError

/-- R75 (b): one changed payload byte, or first payload checksum byte, gives DATA_ERROR at the first
payload checksum byte; a changed last byte gives it there. -/
def Obligations.PayloadCorruptionDetected : Prop :=
  ∀ (ack seq : Byte) (data : List Byte) (p : Nat) (b : Byte), data.length ≤ 255 → 7 ≤ p →
    p < 9 + data.length → b ≠ (serialize hw ack seq data).getD p 0 →
    let e := if p = 8 + data.length then p else 7 + data.length
    (run hw (((serialize hw ack seq data).set p b).take e)).1 = .incomplete ∧
      (run hw (((serialize hw ack seq data).set p b).take (e + 1))).1 = .dataError ∧
      (run hw ((serialize hw ack seq data).set p b)).1 = .dataError

/-- R71: the resync takes the lowest offset from 1 on whose tail is the beginning of a frame or one
whole frame, with that tail's status and parser state; it finds none only if no offset is good. -/
def Obligations.ResyncTakesFirstGoodOffset : Prop :=
  ∀ h : List Byte,
    (∀ t st ps, reProcess hw h = some (t, st, ps) →
      ∃ k, 1 ≤ k ∧ k < h.length ∧ t = h.drop k ∧
        ((st = .incomplete ∧ run hw t = (.incomplete, ps)) ∨
          (st = .parsed ∧ run hw t = (.parsed, ps))) ∧
        ∀ j, 1 ≤ j → j < k → ¬Good (h.drop j)) ∧
    (reProcess hw h = none → ∀ k, 1 ≤ k → k < h.length → ¬Good (h.drop k))

/-- R142: the example of a payload error that a resync hides. -/
def Obligations.PayloadErrorVanishesInResync : Prop :=
  let h : List Byte := [0x0A, 0x3C, 0x00, 0x01, 0x01, 0x48, 0x25, 0x0A, 0x3C]
  (run hw h).1 = .dataError ∧ (parseHistory hw h).status = .incomplete ∧
    (parseHistory hw h).hist = [0x0A, 0x3C]

/-! ### Sequence numbers -/

/-- R77 and R78: `NextIndex` adds 1 and wraps 127 to 1; `Dist(a, b)` is the least number of
`NextIndex` steps from `a` to `b`; it is at most 126, is 0 from a number to itself, and the two
distances between different numbers add up to 127. -/
def Obligations.DistCountsSteps : Prop :=
  ∀ a b : Seq, a ≠ 0 → b ≠ 0 →
    (nextIndex hw a).toNat = (if a.toNat = 127 then 1 else a.toNat + 1) ∧
    stepsFrom hw a (wheelDist hw a b) = b ∧ wheelDist hw a b ≤ 126 ∧
      (∀ k, k < wheelDist hw a b → stepsFrom hw a k ≠ b) ∧
      (a = b → wheelDist hw a b = 0) ∧
      (a ≠ b → wheelDist hw a b + wheelDist hw b a = 127)

/-- R79: a byte is in the inbound window exactly if it is one of the four numbers after
`last_index`. -/
def Obligations.WindowIsNextFour : Prop :=
  ∀ (lastIndex : Seq) (b : Byte), lastIndex ≠ 0 →
    (inRange hw lastIndex b = true ↔
      ∃ k, 1 ≤ k ∧ k ≤ 4 ∧ b = seqByte (stepsFrom hw lastIndex k))

/-- R80: a byte precedes another exactly if both are on the wheel and the second is 1 to 15 steps
after the first. -/
def Obligations.PrecedesWithinGap : Prop :=
  ∀ a b : Byte, precedesIndex hw a b = true ↔
    ∃ (n : Seq) (k : Nat), n ≠ 0 ∧ 1 ≤ k ∧ k ≤ 15 ∧ a = seqByte n ∧ b = seqByte (stepsFrom hw n k)

/-! ### Inbound buffer -/

/-- R83: `Cleanup` frees exactly the READY slots that are out of the window or repeat the index of
an earlier READY slot, and changes nothing else. -/
def Obligations.CleanupEvictsExactly : Prop :=
  ∀ s : State,
    cleanup hw s = { s with ib := (cleanup hw s).ib } ∧
    (cleanup hw s).ib.length = s.ib.length ∧
    ∀ (i : Nat) (x : InSlot), s.ib[i]? = some x →
      (Evicted s i x → (cleanup hw s).ib[i]? = some InSlot.freed) ∧
      (¬Evicted s i x → (cleanup hw s).ib[i]? = some x)

/-- R85 and R116: with no ack pending, `RECEIVE` delivers the payload of the lowest READY slot that
holds the next number, frees it, advances `last_index` one step and leaves that number's positive
ack pending; with an ack pending, or no such slot, it returns `00 00` and changes nothing else. -/
def Obligations.ReceiveDeliversInOrder : Prop :=
  ∀ s : State,
    (∀ (i : Nat) (x : InSlot), s.inAck = 0x00 → Lowest s.ib (NextReady s) i → s.ib[i]? = some x →
      exec .receive s = .next { s with
        ib := s.ib.set i InSlot.freed
        lastIndex := nextIndex hw s.lastIndex
        inAck := ackCompose false (nextIndex hw s.lastIndex)
        results := s.results ++ [[0x01, x.len] ++ bufRead x.data x.len.toNat] }) ∧
    ((s.inAck ≠ 0x00 ∨ ∀ x ∈ s.ib, ¬NextReady s x) →
      exec .receive s = .next { s with results := s.results ++ [[0x00, 0x00]] })

/-- R87 and R21: `last_index` only ever moves one step on, by a `RECEIVE` that delivers the frame of
that number, or to 127: by `RESET`, or by a handshake frame, which is an instruction of its own or is
handled inside a `READ_STEP`, `TICK` or `TICKS` and leaves the connection started. -/
def Obligations.LastIndexMovesOnlyByDelivery : Prop :=
  ∀ (i : Instr) (s t : State), i.wellFormed = true → exec i s = .next t →
    t.lastIndex = s.lastIndex ∨
    (i = .receive ∧ s.inAck = 0x00 ∧ (∃ x ∈ s.ib, NextReady s x) ∧
      t.lastIndex = nextIndex hw s.lastIndex) ∨
    (t.lastIndex = 127 ∧
      (i = .reset ∨
        (t.rdStarted = true ∧
          ((∃ fin ack data, i = .frameHandshake fin ack data) ∨ i = .readStep ∨ i = .tick ∨
            ∃ n, i = .ticks n))))

/-! ### Outbound buffer -/

/-- R115, R108 and R89: `TRANSMIT` is rejected before the handshake completes; it is rejected with a
`BufferFull` event when every slot is live; otherwise the lowest slot that is not live takes the
payload, pending, under the number `next_send`, which advances. -/
def Obligations.TransmitQueuesOrRejects : Prop :=
  ∀ (s : State) (data : List Byte), data.length ≤ 255 →
    (s.wrStarted = false →
      exec (.transmit data) s = .next { s with results := s.results ++ [[0x00]] }) ∧
    (s.wrStarted = true → (∀ x ∈ s.ob, Live x) →
      exec (.transmit data) s = .next { s with
        events := s.events ++ [{ code := .bufferFull, info := 1 }]
        results := s.results ++ [[0x00]] }) ∧
    (∀ j, s.wrStarted = true → Lowest s.ob (fun y => ¬Live y) j →
      exec (.transmit data) s = .next { s with
        ob := s.ob.set j
          { live := true, pending := true, idx := seqByte s.nextSend, ack := 0x00,
            len := BitVec.ofNat 8 data.length, data := data }
        nextSend := nextIndex hw s.nextSend
        results := s.results ++ [[0x01]] })

/-- R97: in a reachable state at most four frames are live; with four live `TRANSMIT` is rejected,
and once an ack for one of them is consumed it is accepted again. -/
def Obligations.FifthTransmitWaitsForAck : Prop :=
  ∀ s : State, s.Inv →
    (s.ob.filter (·.live)).length ≤ 4 ∧
    (s.wrStarted = true → (s.ob.filter (·.live)).length = 4 → ∀ data : List Byte,
      data.length ≤ 255 →
      (∃ t, exec (.transmit data) s = .next t ∧ t.results = s.results ++ [[0x00]]) ∧
      ∀ (n : Seq) (x : OutSlot), x ∈ s.ob → x.idx = seqByte n →
        ∃ u t, exec (.ackPos n) s = .next u ∧ exec (.transmit data) u = .next t ∧
          t.results = s.results ++ [[0x01]])

/-- R90: `UpdateNextIndex` writes `earliest` alone: the handshake marker before the Writer is active;
`next_send` with no frame live; otherwise the index of a live frame that no live frame exceeds in
age, the lowest slot on a tie. R81: the age of a number is the number of `NextIndex` steps from it to
`next_send`, counted 1 to 127, so that `next_send` itself has age 127. (In a state that breaks R37 a
live frame's byte may be off the wheel; its age is then 0, the model's choice, log entry 9.) -/
def Obligations.EarliestIsOldestLive : Prop :=
  ∀ s : State,
    updateNextIndex hw s = { s with earliest := (updateNextIndex hw s).earliest } ∧
    (s.wrStarted = false → (updateNextIndex hw s).earliest = 0x80) ∧
    (s.wrStarted = true → (∀ x ∈ s.ob, ¬Live x) →
      (updateNextIndex hw s).earliest = seqByte s.nextSend) ∧
    (s.wrStarted = true → (∃ x ∈ s.ob, Live x) →
      ∃ (j : Nat) (x : OutSlot), s.ob[j]? = some x ∧ Live x ∧ (updateNextIndex hw s).earliest = x.idx ∧
        ∀ (k : Nat) (y : OutSlot), s.ob[k]? = some y → Live y →
          age hw s.nextSend y.idx ≤ age hw s.nextSend x.idx ∧
          (k < j → age hw s.nextSend y.idx < age hw s.nextSend x.idx)) ∧
    (s.nextSend ≠ 0 → ∀ (n : Seq) (k : Nat), n ≠ 0 → 1 ≤ k → k ≤ 127 →
      stepsFrom hw n k = s.nextSend → age hw s.nextSend (seqByte n) = k)

/-- R91: before the Writer is active `NextPacket` selects the lowest pending handshake frame; after,
the lowest pending frame with the first of the 15 numbers from `earliest` on that any pending frame
has; nothing is selected only if there is none. It writes `earliest` alone. -/
def Obligations.NextPacketKeepsSendOrder : Prop :=
  ∀ s : State,
    (nextPacket hw s).1 = updateNextIndex hw s ∧
    (s.wrStarted = false →
      (∀ j, (nextPacket hw s).2 = some j ↔ Lowest s.ob (PendingAs 0x80) j) ∧
      ((nextPacket hw s).2 = none ↔ ∀ x ∈ s.ob, ¬PendingAs 0x80 x)) ∧
    (s.wrStarted = true →
      let e : Seq := (updateNextIndex hw s).earliest.setWidth 7
      (∀ j, (nextPacket hw s).2 = some j →
        ∃ k, k < 15 ∧ Lowest s.ob (PendingAs (seqByte (stepsFrom hw e k))) j ∧
          ∀ k' < k, ∀ x ∈ s.ob, ¬PendingAs (seqByte (stepsFrom hw e k')) x) ∧
      ((nextPacket hw s).2 = none →
        ∀ k < 15, ∀ x ∈ s.ob, ¬PendingAs (seqByte (stepsFrom hw e k)) x))

/-- R95: `PEEK_PACKET` returns the lowest live slot with that sequence byte, or four zero bytes; only
the result is added to the state. -/
def Obligations.PeekPacketOnlyReads : Prop :=
  ∀ (s : State) (idx : Byte),
    ((∀ x ∈ s.ob, ¬(Live x ∧ x.idx = idx)) →
      exec (.peekPacket idx) s =
        .next { s with results := s.results ++ [[0x00, 0x00, 0x00, 0x00]] }) ∧
    (∀ j x, Lowest s.ob (fun y => Live y ∧ y.idx = idx) j → s.ob[j]? = some x →
      exec (.peekPacket idx) s =
        .next { s with results := s.results ++
          [[0x01, x.ack, if x.pending then 0x01 else 0x00, x.len] ++
            bufRead x.data x.len.toNat] })

/-- R96: `PEEK_RESEND_PACKET` returns the lowest live and pending slot, or four zero bytes; only the
result is added to the state. -/
def Obligations.PeekResendPacketOnlyReads : Prop :=
  ∀ s : State,
    ((∀ x ∈ s.ob, ¬(Live x ∧ x.pending = true)) →
      exec .peekResendPacket s =
        .next { s with results := s.results ++ [[0x00, 0x00, 0x00, 0x00]] }) ∧
    (∀ j x, Lowest s.ob (fun y => Live y ∧ y.pending = true) j → s.ob[j]? = some x →
      exec .peekResendPacket s =
        .next { s with results := s.results ++
          [[0x01, x.idx, x.ack, x.len] ++ bufRead x.data x.len.toNat] })

/-! ### Acks -/

/-- R92 (with R104's clearing of `out_ack`): consuming a positive ack for `n` frees every live slot
with index `n`, marks every other live slot that precedes `n`, and leaves the rest of the slots and
of the state alone. -/
def Obligations.PositiveAckFreesAndCascades : Prop :=
  ∀ (s : State) (n : Seq), n ≠ 0 →
    ∃ t : State, exec (.ackPos n) s = .next t ∧ t = { s with outAck := 0x00, ob := t.ob } ∧
      t.ob.length = s.ob.length ∧
      ∀ (j : Nat) (x : OutSlot), s.ob[j]? = some x →
        (Live x → x.idx = seqByte n → t.ob[j]? = some OutSlot.freed) ∧
        (Live x → x.idx ≠ seqByte n → precedesIndex hw x.idx (seqByte n) = true →
          t.ob[j]? = some { x with pending := true }) ∧
        (¬Live x ∨ (x.idx ≠ seqByte n ∧ precedesIndex hw x.idx (seqByte n) = false) →
          t.ob[j]? = some x)

/-- R93 (with R104's clearing of `out_ack`): consuming a negative ack for `n` marks every live slot
with index `n` and nothing else. -/
def Obligations.NegativeAckMarksOnly : Prop :=
  ∀ (s : State) (n : Seq), n ≠ 0 →
    ∃ t : State, exec (.ackNeg n) s = .next t ∧ t = { s with outAck := 0x00, ob := t.ob } ∧
      t.ob.length = s.ob.length ∧
      ∀ (j : Nat) (x : OutSlot), s.ob[j]? = some x →
        (Live x → x.idx = seqByte n → t.ob[j]? = some { x with pending := true }) ∧
        (¬Live x ∨ x.idx ≠ seqByte n → t.ob[j]? = some x)

/-- R104, the classes EMPTY and START: an empty ack changes nothing; a start-sequence ack clears
`out_ack` and, if the Writer is not yet active, makes it active, frees the live handshake frames and
sets `next_send` and `earliest` to 1. -/
def Obligations.StartAckActivatesOnce : Prop :=
  ∀ s : State,
    exec .ackEmpty s = .next s ∧
    (s.wrStarted = true → exec .ackStart s = .next { s with outAck := 0x00 }) ∧
    (s.wrStarted = false → exec .ackStart s = .next { s with
      outAck := 0x00
      wrStarted := true
      ob := s.ob.map fun x => if x.live = true ∧ x.idx = 0x80 then OutSlot.freed else x
      nextSend := 1
      earliest := 1 })

/-- R54: the ack classes are tested EMPTY, START, POS, NEG, so every byte falls in one, and 0x80 is
never a negative ack. -/
def Obligations.AckByteClasses : Prop :=
  ackInstr hw 0x00 = .ackEmpty ∧ ackInstr hw 0x80 = .ackStart ∧
    ∀ k : Byte,
      (1 ≤ k.toNat ∧ k.toNat ≤ 0x7F → ackInstr hw k = .ackPos (k.setWidth 7)) ∧
      (0x81 ≤ k.toNat → ackInstr hw k = .ackNeg (k.setWidth 7))

/-- R104: what the Writer's first step does with `out_ack` is the meaning of the ack row its byte
falls in. -/
def Obligations.DrainRunsTheAckRow : Prop :=
  ∀ s : State, exec (ackInstr hw s.outAck) s = .next (wrDrain hw s) ∧ (wrDrain hw s).outAck = 0x00

/-! ### Finished frames -/

/-- R100 (with R98's capture of the ack): a handshake frame, whether its payload checksum matched or
not, leaves the start-sequence ack pending, clears the inbound buffer, restarts its sequencing,
takes the Reader's slot and marks the connection started. -/
def Obligations.HandshakeFrameRestartsReader : Prop :=
  ∀ (s : State) (fin : FrameEnd) (ack : Byte) (data : List Byte), data.length ≤ 255 →
    exec (.frameHandshake fin ack data) s = .next { s with
      outAck := ack
      inAck := 0x80
      ib := s.ib.map fun _ => InSlot.freed
      lastIndex := 127
      cur := none
      rdStarted := true }

/-- R101 (with R98's capture of the ack): a frame that ended PARSED, in the slot the Reader holds. A
data frame in the window waits there for delivery; one outside it is dropped, answered with its
negative ack and recorded; an ack-only or reserved frame is dropped without an ack. -/
def Obligations.ParsedFrameStoredOrDropped : Prop :=
  ∀ (s : State) (i : Nat) (ack : Byte) (data : List Byte), data.length ≤ 255 → s.cur = some i →
    (∀ n : Seq, n ≠ 0 → inRange hw s.lastIndex (seqByte n) = true →
      exec (.frameData .parsed ack n data) s = .next { s with
        outAck := ack
        ib := s.ib.set i
          { st := .ready, ps := ParserState.empty, hist := [], idx := seqByte n, ack := ack,
            len := BitVec.ofNat 8 data.length, data := data }
        cur := none }) ∧
    (∀ n : Seq, n ≠ 0 → inRange hw s.lastIndex (seqByte n) = false →
      exec (.frameData .parsed ack n data) s = .next { s with
        outAck := ack
        inAck := ackCompose true n
        events := s.events ++ [{ code := .sequenceGap, info := seqByte n }]
        ib := s.ib.set i InSlot.freed
        cur := none }) ∧
    exec (.frameAckonly .parsed ack data) s =
      .next { s with outAck := ack, ib := s.ib.set i InSlot.freed, cur := none } ∧
    ∀ low : Seq, low ≠ 0 →
      exec (.frameResv .parsed ack low data) s =
        .next { s with outAck := ack, ib := s.ib.set i InSlot.freed, cur := none }

/-- R102 (with R98's capture of the ack): a frame that ended DATA_ERROR records the event with its
sequence byte; a data frame leaves its negative ack pending, whatever the window; nothing else
changes. -/
def Obligations.DataErrorFrameNegAcked : Prop :=
  ∀ (s : State) (ack : Byte) (data : List Byte), data.length ≤ 255 →
    (∀ n : Seq, n ≠ 0 →
      exec (.frameData .dataError ack n data) s = .next { s with
        outAck := ack
        inAck := ackCompose true n
        events := s.events ++ [{ code := .dataError, info := seqByte n }] }) ∧
    exec (.frameAckonly .dataError ack data) s = .next { s with
      outAck := ack, events := s.events ++ [{ code := .dataError, info := 0x00 }] } ∧
    ∀ low : Seq, low ≠ 0 →
      exec (.frameResv .dataError ack low data) s = .next { s with
        outAck := ack
        events := s.events ++ [{ code := .dataError, info := 0x80 ||| low.setWidth 8 }] }

/-- R99: a header error that stands records its event and changes nothing else. -/
def Obligations.HeaderErrorOnlyRecords : Prop :=
  ∀ s : State, exec .frameHeaderError s =
    .next { s with events := s.events ++ [{ code := .headerError, info := 0x00 }] }

/-! ### The Read step -/

/-- R125 (a) and R98's stalls: `READ_STEP` with no byte, or with an ack pending, changes nothing but
its result; with no slot held and none free after `Cleanup`, it leaves what `Cleanup` leaves and
records `BufferFull`. The result is 0x00 and no byte is taken. -/
def Obligations.ReadStepStallsInOrder : Prop :=
  ∀ s : State,
    ((s.rxq = [] ∨ s.inAck ≠ 0x00 ∨ s.outAck ≠ 0x00) →
      exec .readStep s = .next { s with results := s.results ++ [[0x00]] }) ∧
    (s.rxq ≠ [] → s.inAck = 0x00 → s.outAck = 0x00 → s.cur = none →
      (∀ x ∈ (cleanup hw s).ib, x.st ≠ .free) →
      exec .readStep s = .next { s with
        ib := (cleanup hw s).ib
        events := s.events ++ [{ code := .bufferFull, info := 0 }]
        results := s.results ++ [[0x00]] })

/-- R98, R70: `READ_STEP` that does not stall takes exactly the oldest byte, parses it at the end of
the slot's history, leaves what the parse leaves in the slot, and, when the parse finished a frame,
does what that frame's row of the table does. The result is 0x01. With a history that is the beginning
of a frame, as every FILLING slot's is, the parse is that of R70: the run of the history, or what the
resync recovers from it, or the error with the view of the failed frame. -/
def Obligations.ReadStepConsumesOneByte : Prop :=
  ∀ (s : State) (b : Byte) (rest : List Byte) (i : Nat) (ib : List InSlot) (x : InSlot),
    s.rxq = b :: rest → s.inAck = 0x00 → s.outAck = 0x00 → ReaderSlot s i ib → ib[i]? = some x →
    let r := parseHistory hw (x.hist ++ [b])
    let u := { s with
      rxq := rest, cur := some i, ib := ib.set i { x with hist := r.hist, ps := r.ps } }
    ((run hw x.hist).1 = .incomplete → ParsesTo (x.hist ++ [b]) r) ∧
    ∃ t, exec .readStep s = .next { t with results := s.results ++ [[0x01]] } ∧
      (r.status = .incomplete → t = u) ∧
      (r.status = .headerError → exec .frameHeaderError u = .next t) ∧
      (r.status = .parsed → exec (frameInstr hw .parsed r.view) u = .next t) ∧
      (r.status = .dataError → exec (frameInstr hw .dataError r.view) u = .next t)

/-- R24, R25, R98 and R85 (b): no host command but `RESET` loses an ack that is pending. Every command
but `RESET`, `TICK` and `WRITE_STEP` leaves a pending `in_ack`, and a pending `out_ack`, as it is.
`WRITE_STEP` and `TICK` leave a pending `in_ack` as it is or send it on a frame and empty it.
`WRITE_STEP` with a pending `out_ack` first does what its ack row does. `TICK` with either pending
reads nothing: it is a boundary and a `WRITE_STEP`. (`TICKS` is `TICK`s; `RESET` clears both.) -/
def Obligations.PendingAckIsNeverLost : Prop :=
  ∀ s : State,
    (s.inAck ≠ 0x00 →
      (∀ i t, LeavesAcks i → exec i s = .next t → t.inAck = s.inAck) ∧
      (∀ i t, i = .writeStep ∨ i = .tick → exec i s = .next t → t.inAck = s.inAck ∨
        (t.inAck = 0x00 ∧ ∃ seq data, Sent s t (serialize hw s.inAck seq data)))) ∧
    (s.outAck ≠ 0x00 →
      (∀ i t, LeavesAcks i → exec i s = .next t → t.outAck = s.outAck) ∧
      ∃ u, exec (ackInstr hw s.outAck) s = .next u ∧ u.outAck = 0x00 ∧
        exec .writeStep s = exec .writeStep u) ∧
    (s.inAck ≠ 0x00 ∨ s.outAck ≠ 0x00 → exec .tick s = exec .writeStep (envTurn s))

/-! ### The Write step -/

/-- R105: after more than 100000 microseconds since the last transmission, by subtraction modulo
2^64, every live frame is marked and, if there is one, `Timeout` is recorded; otherwise nothing
changes. -/
def Obligations.TimeoutMarksEveryLiveFrame : Prop :=
  ∀ (s : State) (t : Time),
    (100000 < (t.toNat + 2 ^ 64 - s.lastSend.toNat) % 2 ^ 64 →
      wrTimeout hw t s = { s with
        ob := s.ob.map fun x => if x.live then { x with pending := true } else x
        events := if ∃ x ∈ s.ob, x.live = true then
          s.events ++ [{ code := .timeout, info := 0 }] else s.events }) ∧
    ((t.toNat + 2 ^ 64 - s.lastSend.toNat) % 2 ^ 64 ≤ 100000 → wrTimeout hw t s = s)

/-- R103, R106 and R107: with the ack drained and the timeout taken, `WRITE_STEP` sends the frame
that `NextPacket` selects, with the ack it carries or else the pending one, which is then no longer
pending; with no frame selected it sends the pending ack on an ack-only frame, or nothing. -/
def Obligations.WriteStepSendsAtMostOneFrame : Prop :=
  ∀ s : State,
    let d := wrTimeout hw s.time (wrDrain hw s)
    let e := { d with earliest := (updateNextIndex hw d).earliest }
    (∀ j x, (nextPacket hw d).2 = some j → d.ob[j]? = some x →
      let ack := if x.ack = 0x00 then d.inAck else x.ack
      exec .writeStep s = .next { e with
        ob := d.ob.set j { x with ack := ack, pending := false }
        inAck := if x.ack = 0x00 then 0x00 else d.inAck
        lastSend := s.time
        txs := d.txs ++ serialize hw ack x.idx (bufRead x.data x.len.toNat) }) ∧
    ((nextPacket hw d).2 = none → d.inAck ≠ 0x00 →
      exec .writeStep s = .next { e with
        inAck := 0x00
        lastSend := s.time
        txs := d.txs ++ serialize hw d.inAck 0x00 [] }) ∧
    ((nextPacket hw d).2 = none → d.inAck = 0x00 → exec .writeStep s = .next e)

/-- R58, last sentences: in a reachable state a `Write` transmits nothing, or one handshake frame,
data frame or ack-only frame; never a reserved one. -/
def Obligations.OnlyThreeKindsOfFrameAreSent : Prop :=
  ∀ s : State, s.Inv → ∃ t, exec .writeStep s = .next t ∧
    (Sent s t [] ∨ (∃ ack, Sent s t (serialize hw ack 0x80 [])) ∨
      (∃ ack data, ∃ n : Seq, n ≠ 0 ∧ data.length ≤ 255 ∧
        Sent s t (serialize hw ack (seqByte n) data)) ∨
      (∃ ack, ack ≠ 0x00 ∧ Sent s t (serialize hw ack 0x00 [])))

/-! ### TICK -/

/-- R114: `TICK` repeats `Read` until one stalls and then performs exactly one `Write`. The MODEL's
choices: the environment acts at a boundary after each `Read` that consumed a byte and before the
`Write`, where R110 lets it (log entry 1); and it appends finitely many bytes, because its plan is a
finite list (log entry 3), which is the premise R114 (b) asks for, so that the loop ends. -/
def Obligations.TickDrainsThenWritesOnce : Prop :=
  ∀ s : State, ∃ u, Drains s u ∧ exec .tick s = .next (writerStep hw (envTurn u))

/-- `TICK` leaves the host's side of the port alone: no result is given, no command taken, and the
mark `refused` is as it was (R114, R31). -/
def Obligations.TickLeavesHostSideAlone : Prop :=
  ∀ s t : State, exec .tick s = .next t →
    t.results = s.results ∧ t.cmds = s.cmds ∧ t.refused = s.refused

/-- R65: `TICKS n` is `n` consecutive `TICK`s: the machine that takes `n` `TICK` commands from the
host does what `TICKS n` does, and a `TICKS n` line of a host program, on one CORE or on either end
of a link, does what `n` `TICK` lines do. -/
def Obligations.TicksIsConsecutiveTicks : Prop :=
  (∀ s : State, exec (.ticks 0) s = .next s) ∧
  (∀ (n : Nat) (s : State) (rest : List (List Byte)),
    s.cmds = List.replicate (n + 1) [0x01] ++ rest →
    ∃ t, exec (.ticks (n + 1)) { envTurn s with cmds := rest } = .next t ∧
      Host.Core.run core (n + 1) s = .next t) ∧
  (∀ (n : Nat) (x : Session),
    runLine (.ticks n) x = runLines (List.replicate n (.command .tick)) x) ∧
  (∀ (e : End) (n : Nat) (x : LinkSession),
    runLinkLine e (.ticks n) x = runLinkLines (List.replicate n (e, .command .tick)) x)

/-! ### System -/

/-- R134: `RESET` gives every register of CORE its reset value, keeps the mark `refused`, and leaves
the environment alone: queues, time, commands, results and events. -/
def Obligations.ResetGivesResetValues : Prop :=
  ∀ s : State, exec .reset s = .next { s with
    ib := List.replicate 4 { st := .free, ps := ParserState.empty, hist := [], idx := 0, ack := 0,
                             len := 0, data := [] }
    lastIndex := 127
    rdStarted := false
    cur := none
    inAck := 0x00
    outAck := 0x00
    ob := { live := true, pending := true, idx := 0x80, ack := 0x00, len := 0, data := [] } ::
      List.replicate 3 { live := false, pending := false, idx := 0, ack := 0, len := 0, data := [] }
    earliest := 0x80
    wrStarted := false
    nextSend := 1
    lastSend := 0 }

/-- R135: at power-on CORE is in the state `RESET` gives, unmarked; the rest of the state is the
environment's, whose power-on values are the model's choice (log entry 10) and are not stated. -/
def Obligations.PowerOnIsTheResetState : Prop :=
  exec .reset State.reset = .next State.reset ∧ State.reset.refused = false

/-- R117: `INITIALIZED` returns 0x01 exactly if both halves of the handshake are done, and changes
nothing else. -/
def Obligations.InitializedReadsBothFlags : Prop :=
  ∀ s : State,
    (s.rdStarted = true ∧ s.wrStarted = true →
      exec .initialized s = .next { s with results := s.results ++ [[0x01]] }) ∧
    (s.rdStarted = false ∨ s.wrStarted = false →
      exec .initialized s = .next { s with results := s.results ++ [[0x00]] })

/-- R121: no operation stops: every instruction has a next state in every state, and so has every
step. -/
def Obligations.NothingEverStops : Prop :=
  (∀ (i : Instr) (s : State), ∃ t, exec i s = .next t) ∧ ∀ s : State, ∃ t, step s = .next t

/-- R128, R22, R28: once the Writer is active, or the Reader started, only `RESET` ends it. -/
def Obligations.OnlyResetEndsTheConnection : Prop :=
  ∀ (i : Instr) (s t : State), exec i s = .next t → i ≠ .reset →
    (s.wrStarted = true → t.wrStarted = true) ∧ (s.rdStarted = true → t.rdStarted = true)

/-- R31: the mark `refused` is never cleared, not even by `RESET`, and a step sets it only for a
command that R61 refuses. -/
def Obligations.RefusedIsNeverCleared : Prop :=
  ∀ s t : State, step s = .next t →
    (s.refused = true → t.refused = true) ∧
    (s.refused = false → t.refused = true →
      ∃ bytes rest, (envTurn s).cmds = bytes :: rest ∧ RefusedCommand bytes)

/-- R11, R122 and R112: events, results and transmitted bytes are outputs only. What an instruction
does to the rest of the state, and what it appends to them, does not depend on what they hold. -/
def Obligations.OutputsInfluenceNothing : Prop :=
  ∀ (i : Instr) (s : State), ∃ (t : State) (ev : List Machine.Event) (rs : List (List Byte))
    (tx : List Byte),
    ∀ (events : List Machine.Event) (results : List (List Byte)) (txs : List Byte),
      exec i { s with events := events, results := results, txs := txs } =
        .next { t with events := events ++ ev, results := results ++ rs, txs := txs ++ tx }

/-- R111 and R43: only `TICK`, `TICKS` and `READ_STEP` take bytes from the receive queue; every other
instruction leaves it, the time input and the environment's plan as they are. -/
def Obligations.OnlyReadsTakeBytes : Prop :=
  ∀ (i : Instr) (s t : State), exec i s = .next t → i ≠ .tick → i ≠ .readStep →
    (∀ n, i ≠ .ticks n) → t.rxq = s.rxq ∧ t.time = s.time ∧ t.env = s.env

/-! ### Steps and invariants -/

/-- A step takes the host's next command, after a boundary, and runs the instruction its bytes
decode to (30_encoding.md R59, 46_pair_and_host.md R110). -/
def Obligations.StepRunsTheDecodedCommand : Prop :=
  ∀ (s : State) (bytes : List Byte) (rest : List (List Byte)) (i : Instr),
    (envTurn s).cmds = bytes :: rest → decodeCommand bytes = .ok i →
    step s = exec i { envTurn s with cmds := rest }

/-- R133: with no command from the host CORE does nothing; only the environment acts. -/
def Obligations.IdleStepChangesNothing : Prop :=
  ∀ s : State, s.cmds = [] →
    step s = .next { s with
      env := s.env.tail, rxq := (envTurn s).rxq, time := (envTurn s).time }

/-- The reset state satisfies R37's invariants. -/
def Obligations.ResetSatisfiesInvariants : Prop := State.reset.Inv

/-- R37 with the ranges of R17: every step keeps the invariants, from any state that has them. -/
def Obligations.StepKeepsInvariants : Prop :=
  ∀ s t : State, s.Inv → step s = .next t → t.Inv

/-! ### Two COREs -/

/-- R136, steps 1 to 4, in ONE environment: two COREs just reset, linked back to back and ticking in
turn, exchange these frames and are then both initialized, ready to send 1 and to receive 1, with
nothing live. The environment is the model's choice: both time inputs read 0 throughout, nothing is
queued and nothing else arrives (log entry 10, unsafe), and an end's bytes reach the other when its
`TICK` is complete (log entry 12). -/
def Obligations.HandshakeExchangeConnects : Prop :=
  let l1 := linkRunA .tick linkReset
  let l2 := linkRunB .tick l1
  let l3 := linkRunA .tick l2
  let l4 := linkRunB .tick l3
  l1.a.txs = [0x0A, 0x3C, 0x00, 0x80, 0x00, 0xC6, 0x22, 0x00, 0x00] ∧
    l2.b.txs = [0x0A, 0x3C, 0x80, 0x80, 0x00, 0x46, 0xA2, 0x00, 0x00] ∧
    l2.b.rdStarted = true ∧
    l3.a.txs = l1.a.txs ++ [0x0A, 0x3C, 0x80, 0x00, 0x00, 0xC6, 0xA2, 0x00, 0x00] ∧
    isInitialized l3.a = true ∧ l4.b.txs = l2.b.txs ∧ isInitialized l4.b = true ∧
    [l4.a, l4.b].all (fun s =>
      s.nextSend == 1 && s.lastIndex == 127 && s.ob.all (fun x => !x.live)) = true

/-- R48, R131: the ends of a link share nothing. Whatever either end runs, its new state depends on its
own state alone, no byte transmitted before is taken back, and the other end, whatever its state,
changes only by exactly the newly transmitted bytes, which arrive on its receive queue. That they
arrive when the instruction is complete is the model's choice (log entry 12). -/
def Obligations.LinkedEndsShareNothing : Prop :=
  ∀ (i : Instr) (s : State), ∃ (t : State) (tx : List Byte),
    exec i (envTurn s) = .next t ∧ Sent s t tx ∧
    ∀ other : State,
      linkRunA i { a := s, b := other } =
        { a := t, b := { other with rxq := other.rxq ++ tx } } ∧
      linkRunB i { a := other, b := s } =
        { a := { other with rxq := other.rxq ++ tx }, b := t }

/-! ### The parse of one byte -/

/-- R70: `ParseChar(i, b)` on a slot whose history is the beginning of a frame, as every FILLING slot's
is (R37), writes the slot's history and parser state and nothing else. It answers the run of the
history with `b`; a run that failed is replaced by the first good tail; and an error that stands
empties the history and returns the view of the failed frame. -/
def Obligations.ParseCharRunsThenResyncs : Prop :=
  ∀ (s : State) (i : Nat) (b : Byte) (x : InSlot), s.ib[i]? = some x →
    (run hw x.hist).1 = .incomplete →
    ∃ r : ParseResult, ParsesTo (x.hist ++ [b]) r ∧
      parseChar hw i b s =
        ({ s with ib := s.ib.set i { x with hist := r.hist, ps := r.ps } }, r.status, r.view)
end

