-- ==== Sys2Proof/Laws/Config.lean ====
section
/-! SUPPORT. This hardware's parameters as numbers (00_scope.md R8). -/

namespace Sys2Proof

@[simp] theorem hw_sync0 : hw.sync0 = 0x0A := (rfl)
@[simp] theorem hw_sync1 : hw.sync1 = 0x3C := (rfl)
@[simp] theorem hw_hdrLen : hw.hdrLen = 7 := (rfl)
@[simp] theorem hw_trlLen : hw.trlLen = 2 := (rfl)
@[simp] theorem hw_maxPayload : hw.maxPayload = 255 := (rfl)
@[simp] theorem hw_payloadBuf : hw.payloadBuf = 256 := (rfl)
@[simp] theorem hw_maxFrame : hw.maxFrame = 264 := (rfl)
@[simp] theorem hw_maxResync : hw.maxResync = 263 := (rfl)
@[simp] theorem hw_seqMin : hw.seqMin = 1 := (rfl)
@[simp] theorem hw_seqMax : hw.seqMax = 127 := (rfl)
@[simp] theorem hw_seqNone : hw.seqNone = 0x00 := (rfl)
@[simp] theorem hw_handshake : hw.handshake = 0x80 := (rfl)
@[simp] theorem hw_ibCap : hw.ibCap = 4 := (rfl)
@[simp] theorem hw_obCap : hw.obCap = 4 := (rfl)
@[simp] theorem hw_ibWindow : hw.ibWindow = 4 := (rfl)
@[simp] theorem hw_maxOutgoingIndexGap : hw.maxOutgoingIndexGap = 15 := (rfl)
@[simp] theorem hw_resendTimeoutUs : hw.resendTimeoutUs = 100000 := (rfl)
@[simp] theorem hw_timeW : hw.timeW = 64 := (rfl)
@[simp] theorem hw_hdrCkFrom : hw.hdrCkFrom = 0 := (rfl)

/-- This hardware's configuration obeys R9. -/
@[simp] theorem hw_valid : hw.valid = true := (rfl)

/-- The derived parameters are what R8 derives them to be. -/
theorem hw_derived :
    hw.maxFrame = hw.hdrLen + hw.maxPayload + hw.trlLen ∧ hw.maxResync = hw.maxFrame - 1 := by decide

end Sys2Proof
end

