-- ==== Sys2Proof/Laws/Operands.lean ====
section
/-! SUPPORT. Facts about ack bytes, sequence bytes and the wheel (30_encoding.md R54, R55;
41_sequence_space.md R76 to R82). -/

namespace Sys2Proof.Machine

/-! ### This hardware's wheel and markers (R8) -/

@[simp] theorem firstSeq_hw : firstSeq hw = 1 := (rfl)
@[simp] theorem lastSeq_hw : lastSeq hw = 127 := (rfl)
@[simp] theorem wheelSize_hw : wheelSize hw = 127 := (rfl)
@[simp] theorem ackStartSequence_hw : ackStartSequence hw = 0x80 := (rfl)

/-- The distance of R78, with its 127 written out. -/
theorem wheelDist_eq (a b : Seq) : wheelDist hw a b = (b.toNat + 127 - a.toNat) % 127 := (rfl)

/-! ### Wheel numbers as bytes -/

@[simp] theorem seqByte_toNat (n : Seq) : (seqByte n).toNat = n.toNat := by
  have := n.isLt
  simp [seqByte]
  omega

theorem seqByte_injective {m n : Seq} (h : seqByte m = seqByte n) : m = n := by
  have := congrArg BitVec.toNat h
  simpa [BitVec.toNat_inj] using this

@[simp] theorem seqByte_inj {m n : Seq} : seqByte m = seqByte n ↔ m = n :=
  ⟨seqByte_injective, fun h => by rw [h]⟩

@[simp] theorem onWheel_seqByte (n : Seq) : onWheel hw (seqByte n) = (n != 0) := by
  revert n; decide

theorem seqByte_ne_handshake (n : Seq) : seqByte n ≠ 0x80 := by
  revert n; decide

/-- Every byte of the wheel is the byte of a wheel number. -/
theorem onWheel_iff (b : Byte) : onWheel hw b = true ↔ ∃ n : Seq, n ≠ 0 ∧ b = seqByte n := by
  constructor
  · intro h
    refine ⟨b.setWidth 7, ?_, ?_⟩ <;> revert h <;> revert b <;> decide
  · rintro ⟨n, hn, rfl⟩
    simpa using hn

@[simp] theorem setWidth_seqByte (n : Seq) : (seqByte n).setWidth 7 = n := by
  revert n; decide

@[simp] theorem ackIndex_seqByte (n : Seq) : ackIndex (seqByte n) = n := setWidth_seqByte n

/-! ### Classes -/

@[simp] theorem seqClass_seqByte {n : Seq} (h : n ≠ 0) : seqClass hw (seqByte n) = .data n := by
  revert n; decide

@[simp] theorem seqClass_handshake : seqClass hw 0x80 = .hshake := by decide

@[simp] theorem seqClass_none : seqClass hw 0x00 = .ackonly := by decide

@[simp] theorem seqClass_resv {low : Seq} (h : low ≠ 0) :
    seqClass hw (0x80 ||| low.setWidth 8) = .resv low := by
  revert low; decide

theorem resvByte_ne_handshake {low : Seq} (h : low ≠ 0) :
    (0x80 ||| low.setWidth 8 : Byte) ≠ 0x80 := by
  revert low; decide

@[simp] theorem onWheel_resvByte (low : Seq) :
    onWheel hw (0x80 ||| low.setWidth 8 : Byte) = false := by
  revert low; decide

@[simp] theorem ackClass_pos {n : Seq} (h : n ≠ 0) : ackClass hw (ackCompose false n) = .pos n := by
  revert n; decide

@[simp] theorem ackClass_neg {n : Seq} (h : n ≠ 0) : ackClass hw (ackCompose true n) = .neg n := by
  revert n; decide

@[simp] theorem ackClass_empty : ackClass hw 0x00 = .empty := by decide

@[simp] theorem ackClass_start : ackClass hw 0x80 = .start := by decide

/-- A positive ack for a wheel number is pending. -/
theorem ackCompose_false_ne_zero {n : Seq} (h : n ≠ 0) : ackCompose false n ≠ 0x00 := by
  revert n; decide

/-- A negative ack is pending whatever its index. -/
theorem ackCompose_true_ne_zero (n : Seq) : ackCompose true n ≠ 0x00 := by
  revert n; decide

/-- A negative ack for a wheel number is not the start-sequence ack (R54). -/
theorem ackCompose_true_ne_start {n : Seq} (h : n ≠ 0) : ackCompose true n ≠ 0x80 := by
  revert n; decide

@[simp] theorem ackPending_zero : ackPending 0x00 = false := rfl

theorem ackPending_iff (k : Byte) : ackPending k = true ↔ k ≠ 0x00 := by
  simp [ackPending]

/-! ### The wheel -/

theorem nextIndex_ne_zero (n : Seq) : nextIndex hw n ≠ 0 := by
  revert n; decide

theorem nextIndex_toNat {n : Seq} (h : n ≠ 0) : (nextIndex hw n).toNat = n.toNat % 127 + 1 := by
  revert n; decide

/-- A wheel number lies in 1..127. -/
theorem toNat_of_ne_zero {n : Seq} (h : n ≠ 0) : 1 ≤ n.toNat ∧ n.toNat ≤ 127 := by
  have := n.isLt
  have : n.toNat ≠ 0 := fun h0 => h (by simpa using BitVec.eq_of_toNat_eq (y := 0) h0)
  omega

theorem stepsFrom_next (c : Config) (n : Seq) (k : Nat) : stepsFrom c (nextIndex c n) k = stepsFrom c n (k + 1) := by
  induction k with
  | zero => rfl
  | succ k ih => rw [stepsFrom, ih]; rfl

theorem wheelDist_lt (a b : Seq) : wheelDist hw a b < 127 := Nat.mod_lt _ (by decide)

@[simp] theorem wheelDist_self (a : Seq) : wheelDist hw a a = 0 := by
  simp [wheelDist_eq]

theorem stepsFrom_ne_zero {n : Seq} (h : n ≠ 0) (k : Nat) : stepsFrom hw n k ≠ 0 := by
  cases k with
  | zero => exact h
  | succ k => exact nextIndex_ne_zero _

theorem stepsFrom_toNat {n : Seq} (h : n ≠ 0) (k : Nat) :
    (stepsFrom hw n k).toNat = (n.toNat - 1 + k) % 127 + 1 := by
  induction k with
  | zero => have := toNat_of_ne_zero h; simp [stepsFrom]; omega
  | succ k ih =>
    rw [stepsFrom, nextIndex_toNat (stepsFrom_ne_zero h k), ih]
    omega

/-- The distance to the number `k` steps ahead is `k`, as long as `k` is less than the wheel. -/
theorem wheelDist_stepsFrom {n : Seq} (h : n ≠ 0) {k : Nat} (hk : k < 127) :
    wheelDist hw n (stepsFrom hw n k) = k := by
  have := toNat_of_ne_zero h
  rw [wheelDist_eq, stepsFrom_toNat h]
  omega

theorem stepsFrom_wheelDist {a b : Seq} (ha : a ≠ 0) (hb : b ≠ 0) :
    stepsFrom hw a (wheelDist hw a b) = b := by
  have := toNat_of_ne_zero ha
  have := toNat_of_ne_zero hb
  apply BitVec.eq_of_toNat_eq
  rw [stepsFrom_toNat ha, wheelDist_eq]
  omega

/-- The age of a wheel number (R81). -/
theorem age_seqByte {n : Seq} (h : n ≠ 0) (m : Seq) :
    age hw m (seqByte n) = (wheelDist hw n m + 126) % 127 + 1 := by
  rw [age, onWheel_seqByte, setWidth_seqByte, if_pos (by simpa using h), wheelSize_hw]

/-- A byte off the wheel has no age that any wheel number does not exceed (R76, log entry 9). -/
theorem age_offWheel {l : Byte} (h : onWheel hw l = false) (m : Seq) : age hw m l = 0 := by
  simp [age, h]

theorem wheelFrom_eq (c : Config) (k : Nat) (e : Seq) :
    wheelFrom c k e = (List.range k).map (stepsFrom c e) := by
  induction k generalizing e with
  | zero => rfl
  | succ k ih =>
    rw [wheelFrom, ih, List.range_succ_eq_map]
    simp only [List.map_cons, List.map_map, stepsFrom]
    congr 1
    exact List.map_congr_left fun j _ => stepsFrom_next c e j

end Sys2Proof.Machine
end

