-- ==== Sys2Proof/Laws/Codec.lean ====
section
/-! SUPPORT. What the Frame Codec's functions do (40_frame_codec.md R66 to R73): payload buffers,
runs over concatenated histories, the run of a header, of a payload and of a whole serialized
frame, and what the resync and the parse of one more byte can answer. -/

namespace Sys2Proof.Machine

/-! ### The places of this hardware's frames (R52) -/

@[simp] theorem headerSumAt_hw : headerSumAt hw = 5 := (rfl)

@[simp] theorem trailerBytes_hw (sums : Byte × Byte) : trailerBytes hw sums = [sums.1, sums.2] := (rfl)

@[simp] theorem headerBytes_hw (ack seq : Byte) (n : Nat) :
    headerBytes hw ack seq n = [0x0A, 0x3C, ack, seq, BitVec.ofNat 8 n] := (rfl)

/-- The wire bytes of a frame (R52, R73). -/
theorem serialize_hw (ack seq : Byte) (data : List Byte) :
    serialize hw ack seq data = frameHeader hw ack seq data.length ++ data ++ [(ck data).1, (ck data).2] :=
  (rfl)

/-! ### Payload buffers -/

@[simp] theorem bufRead_length (d : List Byte) (n : Nat) : (bufRead d n).length = n := by
  simp [bufRead]; omega

@[simp] theorem bufRead_self (d : List Byte) : bufRead d d.length = d := by
  simp [bufRead]

theorem bufRead_of_length {d : List Byte} {n : Nat} (h : d.length = n) : bufRead d n = d := by
  subst h; exact bufRead_self d

@[simp] theorem bufRead_zero (d : List Byte) : bufRead d 0 = [] := by
  simp [bufRead]

@[simp] theorem bufWrite_length (d : List Byte) (b : Byte) : bufWrite d d.length b = d ++ [b] := by
  simp [bufWrite]

/-! ### The checksum -/

@[simp] theorem ck_nil : ck [] = (0, 0) := rfl

theorem ck_append (s t : List Byte) : ck (s ++ t) = t.foldl ckAdd (ck s) := by
  simp [ck, List.foldl_append]

theorem foldl_ckAdd_fst (s : List Byte) (a b : Byte) : (s.foldl ckAdd (a, b)).1 = a + s.sum := by
  induction s generalizing a b with
  | nil => simp
  | cons x rest ih => simp only [List.foldl_cons, ckAdd, ih, List.sum_cons]; ac_rfl

/-- The first checksum byte is the sum of the bytes (R66). -/
theorem ck_fst (s : List Byte) : (ck s).1 = s.sum := by
  rw [ck, foldl_ckAdd_fst]; simp

/-! ### Runs -/

/-- The end of a frame is no incomplete run. -/
@[simp] theorem parsed_or_overrun_ne_incomplete (p : Prop) [Decidable p] :
    (if p then RunStatus.parsed else RunStatus.overrun) ≠ .incomplete := by
  split <;> simp

theorem runFrom_nil (c : Config) (ps : ParserState) : runFrom c ps [] = (.incomplete, ps) := rfl

/-- A run over a history that is still incomplete goes on with the bytes that follow. -/
theorem runFrom_append {c : Config} {ps q : ParserState} {xs : List Byte}
    (h : runFrom c ps xs = (.incomplete, q)) (ys : List Byte) :
    runFrom c ps (xs ++ ys) = runFrom c q ys := by
  induction xs generalizing ps with
  | nil => simp [runFrom] at h; simp [h]
  | cons b rest ih =>
    simp only [runFrom, List.cons_append] at h ⊢
    split at h <;> simp_all

/-- One more byte on an incomplete history is one parser step (R70 (a)). -/
theorem runFrom_snoc {c : Config} {ps q : ParserState} {xs : List Byte}
    (h : runFrom c ps xs = (.incomplete, q)) (b : Byte) :
    runFrom c ps (xs ++ [b]) =
      (match (codecStep c q b).2 with
        | .incomplete => .incomplete
        | .parsed => .parsed
        | .headerError => .headerError
        | .dataError => .dataError, (codecStep c q b).1) := by
  rw [runFrom_append h]
  simp only [runFrom]
  rcases codecStep c q b with ⟨q', st⟩
  cases st <;> rfl

/-- Before the byte at which a run ends, it is incomplete. -/
theorem runFrom_incomplete_of_parsed {c : Config} {ps q : ParserState} {xs ys : List Byte} {b : Byte}
    (h : runFrom c ps (xs ++ b :: ys) = (.parsed, q)) : (runFrom c ps xs).1 = .incomplete := by
  induction xs generalizing ps with
  | nil => rfl
  | cons x rest ih =>
    simp only [runFrom, List.cons_append] at h ⊢
    split at h <;> simp_all

/-- Every beginning of an incomplete history is incomplete. -/
theorem runFrom_incomplete_of_append {c : Config} {ps q : ParserState} {xs ys : List Byte}
    (h : runFrom c ps (xs ++ ys) = (.incomplete, q)) : (runFrom c ps xs).1 = .incomplete := by
  induction xs generalizing ps with
  | nil => rfl
  | cons x rest ih =>
    simp only [runFrom, List.cons_append] at h ⊢
    split at h <;> simp_all

/-- Behind the header a byte is payload or payload checksum (R68). -/
theorem codecStep_of_header {ps : ParserState} (h : 7 ≤ ps.pos) (b : Byte) :
    codecStep hw ps b =
      if ps.pos < 7 + ps.len.toNat then (takePayload hw ps b, .incomplete)
      else if b ≠ expectedTrailer hw ps then (ps, .dataError)
      else if ps.pos + 1 < 7 + ps.len.toNat + 2 then ({ ps with pos := ps.pos + 1 }, .incomplete)
      else ({ ps with pos := ps.pos + 1 }, .parsed) := by
  have h0 : ¬ps.pos = 0 := by omega
  have h1 : ¬ps.pos = 1 := by omega
  have h5 : ¬ps.pos < 5 := by omega
  have h5' : ¬ps.pos = 5 := by omega
  have h6 : ¬ps.pos = 5 + 1 := by omega
  simp only [codecStep, headerSumAt_hw, hw_hdrLen, hw_trlLen, h0, h1, h5, h5', h6, if_false, false_and]

/-- A byte at a payload position is taken (R68). -/
theorem codecStep_payload {ps : ParserState} (h1 : 7 ≤ ps.pos) (h2 : ps.pos < 7 + ps.len.toNat)
    (b : Byte) : codecStep hw ps b = (takePayload hw ps b, .incomplete) := by
  rw [codecStep_of_header h1, if_pos h2]

/-- The first payload checksum byte is compared (R68). -/
theorem codecStep_first_sum {ps : ParserState} (h : ps.pos = 7 + ps.len.toNat) (b : Byte) :
    codecStep hw ps b =
      if b ≠ ps.da then (ps, .dataError) else ({ ps with pos := ps.pos + 1 }, .incomplete) := by
  have he : expectedTrailer hw ps = ps.da := by simp [expectedTrailer, trailerByte, h]
  rw [codecStep_of_header (by omega), if_neg (by omega), he]
  split
  · rfl
  · rw [if_pos (by omega)]

/-- The second payload checksum byte is compared (R68). -/
theorem codecStep_second_sum {ps : ParserState} (h : ps.pos = 8 + ps.len.toNat) (b : Byte) :
    codecStep hw ps b =
      if b ≠ ps.db then (ps, .dataError) else ({ ps with pos := ps.pos + 1 }, .parsed) := by
  have hk : ps.pos - (7 + ps.len.toNat) ≠ 0 := by omega
  have he : expectedTrailer hw ps = ps.db := by simp [expectedTrailer, trailerByte, hk]
  rw [codecStep_of_header (by omega), if_neg (by omega), he]
  split
  · rfl
  · rw [if_neg (by omega)]

/-- A step that takes its byte moves one position on and stays inside the frame (R16, R68). -/
theorem codecStep_incomplete {ps q : ParserState} {b : Byte}
    (h : codecStep hw ps b = (q, .incomplete)) (hp : ps.pos ≤ 8 + ps.len.toNat) :
    q.pos = ps.pos + 1 ∧ q.pos ≤ 8 + q.len.toNat := by
  rcases Nat.lt_or_ge ps.pos 7 with h7 | h7
  · have hq : q.pos = ps.pos + 1 := by
      simp only [codecStep, headerSumAt_hw] at h
      split at h
      · simp at h
      split at h
      · simp at h
      split at h
      · simp only [Prod.mk.injEq, and_true] at h; rw [← h]
      split at h
      · split at h <;> simp at h
        rw [← h]
      split at h
      · split at h <;> simp at h
        rw [← h]
      · omega
    exact ⟨hq, by omega⟩
  · rcases Nat.lt_trichotomy ps.pos (7 + ps.len.toNat) with h8 | h8 | h8
    · rw [codecStep_payload h7 h8] at h
      simp only [Prod.mk.injEq, and_true] at h
      subst h
      exact ⟨rfl, by simp only [takePayload]; omega⟩
    · rw [codecStep_first_sum h8] at h
      split at h <;> simp at h
      subst h
      exact ⟨rfl, by simp; omega⟩
    · rw [codecStep_second_sum (by omega)] at h
      split at h <;> simp at h

/-- An incomplete run leaves the position at the number of bytes taken, at most 8 bytes past the
payload length (R16, R71). -/
theorem runFrom_incomplete_pos {ps q : ParserState} {xs : List Byte}
    (h : runFrom hw ps xs = (.incomplete, q)) (hp : ps.pos ≤ 8 + ps.len.toNat) :
    q.pos = ps.pos + xs.length ∧ q.pos ≤ 8 + q.len.toNat := by
  induction xs generalizing ps with
  | nil => simp [runFrom] at h; subst h; simp [hp]
  | cons b rest ih =>
    simp only [runFrom] at h
    split at h <;> try simp at h
    rename_i q' hs
    obtain ⟨h1, h2⟩ := codecStep_incomplete hs hp
    obtain ⟨h3, h4⟩ := ih h h2
    simp only [List.length_cons]
    exact ⟨by omega, h4⟩

/-- An incomplete history is at most `MAX_RESYNC` bytes long (R37 (2), R71). -/
theorem run_incomplete_length {h : List Byte} {q : ParserState} (hr : run hw h = (.incomplete, q)) :
    h.length ≤ hw.maxResync := by
  have hb := runFrom_incomplete_pos (ps := ParserState.empty) hr (by simp [ParserState.empty])
  have := q.len.isLt
  simp [ParserState.empty] at hb
  simp
  omega

/-! ### The run of a serialized frame -/

/-- The parser state after a header with correct checksums. -/
def afterHeader (ack seq : Byte) (n : Nat) : ParserState :=
  { pos := 7, ha := (ck (headerBytes hw ack seq n)).1, hb := (ck (headerBytes hw ack seq n)).2,
    ack := ack, seq := seq, len := BitVec.ofNat 8 n, data := [], da := 0, db := 0 }

/-- The run of the five header bytes before the checksum (R68). -/
theorem run_headerBytes (ack seq : Byte) (n : Nat) :
    run hw (headerBytes hw ack seq n) = (.incomplete, { afterHeader ack seq n with pos := 5 }) := by
  simp [run, runFrom, codecStep, headerBytes_hw, ck, ckAdd, takeHeaderField, sumHeader,
    ParserState.empty, afterHeader]

/-- The run of a header with correct checksums (R68, R53). -/
theorem run_frameHeader (ack seq : Byte) (n : Nat) :
    run hw (frameHeader hw ack seq n) = (.incomplete, afterHeader ack seq n) := by
  simp [run, runFrom, codecStep, frameHeader, headerBytes_hw, ck, ckAdd, takeHeaderField, sumHeader,
    ParserState.empty, afterHeader]

/-- The run of payload bytes that the length still allows (R68). -/
theorem runFrom_payload (data : List Byte) (ps : ParserState) (hpos : ps.pos = 7 + ps.data.length)
    (hfit : ps.data.length + data.length ≤ ps.len.toNat) :
    runFrom hw ps data = (.incomplete,
      { ps with
        pos := 7 + (ps.data.length + data.length)
        data := ps.data ++ data
        da := (data.foldl ckAdd (ps.da, ps.db)).1
        db := (data.foldl ckAdd (ps.da, ps.db)).2 }) := by
  induction data generalizing ps with
  | nil => cases ps; simp_all [runFrom]
  | cons b rest ih =>
    simp only [List.length_cons] at hfit
    have hs := codecStep_payload (ps := ps) (by omega) (by omega) b
    simp only [runFrom, hs]
    have hk : ps.pos - 7 = ps.data.length := by omega
    have hl : (takePayload hw ps b).data.length = ps.data.length + 1 := by
      simp [takePayload, hk]
    rw [ih (takePayload hw ps b) (by rw [hl]; simp only [takePayload]; omega)
      (by rw [hl]; simp only [takePayload]; omega)]
    simp [takePayload, hk, ckAdd]
    omega

/-- The parser state after a header and its whole payload. -/
def afterPayload (ack seq : Byte) (data : List Byte) : ParserState :=
  { afterHeader ack seq data.length with
    pos := 7 + data.length, data := data, da := (ck data).1, db := (ck data).2 }

theorem run_header_payload (ack seq : Byte) {data : List Byte} (h : data.length ≤ 255) :
    run hw (frameHeader hw ack seq data.length ++ data) =
      (.incomplete, afterPayload ack seq data) := by
  rw [run, runFrom_append (run_frameHeader ack seq data.length),
    runFrom_payload data _ (by simp [afterHeader]) (by simp [afterHeader]; omega)]
  simp [afterPayload, afterHeader, ck]

/-- The run of a whole frame as `Serialize` writes it is `PARSED`, with the fields it was given
(R73). -/
theorem run_serialize (ack seq : Byte) {data : List Byte} (h : data.length ≤ 255) :
    run hw (serialize hw ack seq data) =
      (.parsed, { afterPayload ack seq data with pos := 9 + data.length }) := by
  have hlen : (BitVec.ofNat 8 data.length).toNat = data.length := by
    rw [BitVec.toNat_ofNat]; omega
  rw [serialize_hw, run, runFrom_append (run_header_payload ack seq h)]
  simp only [runFrom]
  rw [codecStep_first_sum (by simp [afterPayload, afterHeader]; omega)]
  simp only [afterPayload, ne_eq, not_true_eq_false, if_false]
  rw [codecStep_second_sum (by simp [afterHeader]; omega)]
  simp
  omega

/-- The view of a frame with the given fields. -/
theorem frameView_afterPayload (ack seq : Byte) {data : List Byte} (h : data.length ≤ 255) (p : Nat) :
    frameView { afterPayload ack seq data with pos := p } =
      { ack := ack, seq := seq, len := BitVec.ofNat 8 data.length, data := data } := by
  simp only [frameView, afterPayload, afterHeader, View.mk.injEq, true_and]
  exact bufRead_of_length (by simp; omega)

/-- A wrong first payload checksum byte ends the run (R68). -/
theorem run_bad_first_sum (ack seq : Byte) {data : List Byte} (h : data.length ≤ 255) {b : Byte}
    (hb : b ≠ (ck data).1) (rest : List Byte) :
    run hw (frameHeader hw ack seq data.length ++ data ++ b :: rest) =
      (.dataError, afterPayload ack seq data) := by
  rw [run, runFrom_append (run_header_payload ack seq h)]
  simp only [runFrom]
  rw [codecStep_first_sum (by simp [afterPayload, afterHeader]; omega)]
  simp [afterPayload, hb]

theorem serialize_length (ack seq : Byte) (data : List Byte) :
    (serialize hw ack seq data).length = 9 + data.length := by
  simp [serialize_hw, frameHeader, headerBytes_hw]; omega

/-! ### Resync and parse -/

/-- What the resync search can answer (R71). -/
theorem firstGoodTail_some {c : Config} {h t : List Byte} {st : Status} {ps : ParserState}
    (hg : firstGoodTail c h = some (t, st, ps)) :
    (run c t = (.incomplete, ps) ∧ st = .incomplete ∨ run c t = (.parsed, ps) ∧ st = .parsed) ∧
      t.length ≤ h.length := by
  induction h with
  | nil => simp [firstGoodTail] at hg
  | cons b rest ih =>
    simp only [firstGoodTail] at hg
    split at hg
    · simp only [Option.some.injEq, Prod.mk.injEq] at hg
      obtain ⟨rfl, rfl, rfl⟩ := hg
      simp_all
    · simp only [Option.some.injEq, Prod.mk.injEq] at hg
      obtain ⟨rfl, rfl, rfl⟩ := hg
      simp_all
    · obtain ⟨h1, h2⟩ := ih hg
      exact ⟨h1, by simp; omega⟩

/-- What the parse of one more byte can answer (R70): the frame goes on, it is complete, or its
error stands and the slot is empty. -/
theorem parseHistory_cases (c : Config) (h : List Byte) :
    ((parseHistory c h).status = .incomplete ∧
        run c (parseHistory c h).hist = (.incomplete, (parseHistory c h).ps)) ∨
      ((parseHistory c h).status = .parsed ∧
        run c (parseHistory c h).hist = (.parsed, (parseHistory c h).ps) ∧
        (parseHistory c h).view = frameView (parseHistory c h).ps) ∨
      (((parseHistory c h).status = .headerError ∨ (parseHistory c h).status = .dataError) ∧
        (parseHistory c h).hist = [] ∧ (parseHistory c h).ps = ParserState.empty) := by
  have key : ∀ (st : Status) (ps : ParserState), (st = .headerError ∨ st = .dataError) →
      let r := recoverFrame c h st ps
      (r.status = .incomplete ∧ run c r.hist = (.incomplete, r.ps)) ∨
      (r.status = .parsed ∧ run c r.hist = (.parsed, r.ps) ∧ r.view = frameView r.ps) ∨
      ((r.status = .headerError ∨ r.status = .dataError) ∧ r.hist = [] ∧
        r.ps = ParserState.empty) := by
    intro st ps hst
    simp only [recoverFrame]
    split
    · rename_i h' st' ps' hg
      rcases (firstGoodTail_some hg).1 with ⟨h1, h2⟩ | ⟨h1, h2⟩
      · exact .inl ⟨h2, h1⟩
      · exact .inr (.inl ⟨h2, h1, rfl⟩)
    · exact .inr (.inr ⟨hst, rfl, rfl⟩)
  simp only [parseHistory]
  split
  · rename_i hr; exact .inl ⟨rfl, hr⟩
  · rename_i hr; exact .inr (.inl ⟨rfl, hr, rfl⟩)
  · exact key _ _ (.inl rfl)
  · exact key _ _ (.inr rfl)
  · exact key _ _ (.inl rfl)

/-- A frame view's payload is as long as its length byte says. -/
theorem frameView_length (ps : ParserState) :
    (frameView ps).data.length = (frameView ps).len.toNat := by
  simp [frameView]

/-- Whatever the parse answers, its view's payload is as long as its length byte says. -/
theorem parseHistory_view_length (c : Config) (h : List Byte) :
    (parseHistory c h).view.data.length = (parseHistory c h).view.len.toNat := by
  simp only [parseHistory, recoverFrame]
  split <;> (try exact frameView_length _) <;> split <;> exact frameView_length _

end Sys2Proof.Machine
end

