-- ==== Sys2Proof/Laws/State.lean ====
section
/-! SUPPORT. One lemma per field for each named update of State, so that no later proof unfolds a
record update: a field the update writes reads as written, every other field as before. -/

namespace Sys2Proof.Machine

/-! ### setInSlot -/

@[simp] theorem setInSlot_ib (i : Nat) (x : InSlot) (s : State) :
    (setInSlot i x s).ib = s.ib.set i x := rfl
@[simp] theorem setInSlot_lastIndex (i : Nat) (x : InSlot) (s : State) :
    (setInSlot i x s).lastIndex = s.lastIndex := rfl
@[simp] theorem setInSlot_rdStarted (i : Nat) (x : InSlot) (s : State) :
    (setInSlot i x s).rdStarted = s.rdStarted := rfl
@[simp] theorem setInSlot_cur (i : Nat) (x : InSlot) (s : State) :
    (setInSlot i x s).cur = s.cur := rfl
@[simp] theorem setInSlot_inAck (i : Nat) (x : InSlot) (s : State) :
    (setInSlot i x s).inAck = s.inAck := rfl
@[simp] theorem setInSlot_outAck (i : Nat) (x : InSlot) (s : State) :
    (setInSlot i x s).outAck = s.outAck := rfl
@[simp] theorem setInSlot_ob (i : Nat) (x : InSlot) (s : State) : (setInSlot i x s).ob = s.ob := rfl
@[simp] theorem setInSlot_earliest (i : Nat) (x : InSlot) (s : State) :
    (setInSlot i x s).earliest = s.earliest := rfl
@[simp] theorem setInSlot_wrStarted (i : Nat) (x : InSlot) (s : State) :
    (setInSlot i x s).wrStarted = s.wrStarted := rfl
@[simp] theorem setInSlot_nextSend (i : Nat) (x : InSlot) (s : State) :
    (setInSlot i x s).nextSend = s.nextSend := rfl
@[simp] theorem setInSlot_lastSend (i : Nat) (x : InSlot) (s : State) :
    (setInSlot i x s).lastSend = s.lastSend := rfl
@[simp] theorem setInSlot_refused (i : Nat) (x : InSlot) (s : State) :
    (setInSlot i x s).refused = s.refused := rfl
@[simp] theorem setInSlot_rxq (i : Nat) (x : InSlot) (s : State) :
    (setInSlot i x s).rxq = s.rxq := rfl
@[simp] theorem setInSlot_txs (i : Nat) (x : InSlot) (s : State) :
    (setInSlot i x s).txs = s.txs := rfl
@[simp] theorem setInSlot_time (i : Nat) (x : InSlot) (s : State) :
    (setInSlot i x s).time = s.time := rfl
@[simp] theorem setInSlot_env (i : Nat) (x : InSlot) (s : State) :
    (setInSlot i x s).env = s.env := rfl
@[simp] theorem setInSlot_cmds (i : Nat) (x : InSlot) (s : State) :
    (setInSlot i x s).cmds = s.cmds := rfl
@[simp] theorem setInSlot_results (i : Nat) (x : InSlot) (s : State) :
    (setInSlot i x s).results = s.results := rfl
@[simp] theorem setInSlot_events (i : Nat) (x : InSlot) (s : State) :
    (setInSlot i x s).events = s.events := rfl

/-! ### setOutSlot -/

@[simp] theorem setOutSlot_ib (j : Nat) (x : OutSlot) (s : State) :
    (setOutSlot j x s).ib = s.ib := rfl
@[simp] theorem setOutSlot_lastIndex (j : Nat) (x : OutSlot) (s : State) :
    (setOutSlot j x s).lastIndex = s.lastIndex := rfl
@[simp] theorem setOutSlot_rdStarted (j : Nat) (x : OutSlot) (s : State) :
    (setOutSlot j x s).rdStarted = s.rdStarted := rfl
@[simp] theorem setOutSlot_cur (j : Nat) (x : OutSlot) (s : State) :
    (setOutSlot j x s).cur = s.cur := rfl
@[simp] theorem setOutSlot_inAck (j : Nat) (x : OutSlot) (s : State) :
    (setOutSlot j x s).inAck = s.inAck := rfl
@[simp] theorem setOutSlot_outAck (j : Nat) (x : OutSlot) (s : State) :
    (setOutSlot j x s).outAck = s.outAck := rfl
@[simp] theorem setOutSlot_ob (j : Nat) (x : OutSlot) (s : State) :
    (setOutSlot j x s).ob = s.ob.set j x := rfl
@[simp] theorem setOutSlot_earliest (j : Nat) (x : OutSlot) (s : State) :
    (setOutSlot j x s).earliest = s.earliest := rfl
@[simp] theorem setOutSlot_wrStarted (j : Nat) (x : OutSlot) (s : State) :
    (setOutSlot j x s).wrStarted = s.wrStarted := rfl
@[simp] theorem setOutSlot_nextSend (j : Nat) (x : OutSlot) (s : State) :
    (setOutSlot j x s).nextSend = s.nextSend := rfl
@[simp] theorem setOutSlot_lastSend (j : Nat) (x : OutSlot) (s : State) :
    (setOutSlot j x s).lastSend = s.lastSend := rfl
@[simp] theorem setOutSlot_refused (j : Nat) (x : OutSlot) (s : State) :
    (setOutSlot j x s).refused = s.refused := rfl
@[simp] theorem setOutSlot_rxq (j : Nat) (x : OutSlot) (s : State) :
    (setOutSlot j x s).rxq = s.rxq := rfl
@[simp] theorem setOutSlot_txs (j : Nat) (x : OutSlot) (s : State) :
    (setOutSlot j x s).txs = s.txs := rfl
@[simp] theorem setOutSlot_time (j : Nat) (x : OutSlot) (s : State) :
    (setOutSlot j x s).time = s.time := rfl
@[simp] theorem setOutSlot_env (j : Nat) (x : OutSlot) (s : State) :
    (setOutSlot j x s).env = s.env := rfl
@[simp] theorem setOutSlot_cmds (j : Nat) (x : OutSlot) (s : State) :
    (setOutSlot j x s).cmds = s.cmds := rfl
@[simp] theorem setOutSlot_results (j : Nat) (x : OutSlot) (s : State) :
    (setOutSlot j x s).results = s.results := rfl
@[simp] theorem setOutSlot_events (j : Nat) (x : OutSlot) (s : State) :
    (setOutSlot j x s).events = s.events := rfl

/-! ### recordEvent -/

@[simp] theorem recordEvent_ib (e : EventCode) (n : Byte) (s : State) :
    (recordEvent e n s).ib = s.ib := rfl
@[simp] theorem recordEvent_lastIndex (e : EventCode) (n : Byte) (s : State) :
    (recordEvent e n s).lastIndex = s.lastIndex := rfl
@[simp] theorem recordEvent_rdStarted (e : EventCode) (n : Byte) (s : State) :
    (recordEvent e n s).rdStarted = s.rdStarted := rfl
@[simp] theorem recordEvent_cur (e : EventCode) (n : Byte) (s : State) :
    (recordEvent e n s).cur = s.cur := rfl
@[simp] theorem recordEvent_inAck (e : EventCode) (n : Byte) (s : State) :
    (recordEvent e n s).inAck = s.inAck := rfl
@[simp] theorem recordEvent_outAck (e : EventCode) (n : Byte) (s : State) :
    (recordEvent e n s).outAck = s.outAck := rfl
@[simp] theorem recordEvent_ob (e : EventCode) (n : Byte) (s : State) :
    (recordEvent e n s).ob = s.ob := rfl
@[simp] theorem recordEvent_earliest (e : EventCode) (n : Byte) (s : State) :
    (recordEvent e n s).earliest = s.earliest := rfl
@[simp] theorem recordEvent_wrStarted (e : EventCode) (n : Byte) (s : State) :
    (recordEvent e n s).wrStarted = s.wrStarted := rfl
@[simp] theorem recordEvent_nextSend (e : EventCode) (n : Byte) (s : State) :
    (recordEvent e n s).nextSend = s.nextSend := rfl
@[simp] theorem recordEvent_lastSend (e : EventCode) (n : Byte) (s : State) :
    (recordEvent e n s).lastSend = s.lastSend := rfl
@[simp] theorem recordEvent_refused (e : EventCode) (n : Byte) (s : State) :
    (recordEvent e n s).refused = s.refused := rfl
@[simp] theorem recordEvent_rxq (e : EventCode) (n : Byte) (s : State) :
    (recordEvent e n s).rxq = s.rxq := rfl
@[simp] theorem recordEvent_txs (e : EventCode) (n : Byte) (s : State) :
    (recordEvent e n s).txs = s.txs := rfl
@[simp] theorem recordEvent_time (e : EventCode) (n : Byte) (s : State) :
    (recordEvent e n s).time = s.time := rfl
@[simp] theorem recordEvent_env (e : EventCode) (n : Byte) (s : State) :
    (recordEvent e n s).env = s.env := rfl
@[simp] theorem recordEvent_cmds (e : EventCode) (n : Byte) (s : State) :
    (recordEvent e n s).cmds = s.cmds := rfl
@[simp] theorem recordEvent_results (e : EventCode) (n : Byte) (s : State) :
    (recordEvent e n s).results = s.results := rfl
@[simp] theorem recordEvent_events (e : EventCode) (n : Byte) (s : State) :
    (recordEvent e n s).events = s.events ++ [{ code := e, info := n }] := rfl

/-! ### giveResult -/

@[simp] theorem giveResult_ib (bs : List Byte) (s : State) : (giveResult bs s).ib = s.ib := rfl
@[simp] theorem giveResult_lastIndex (bs : List Byte) (s : State) :
    (giveResult bs s).lastIndex = s.lastIndex := rfl
@[simp] theorem giveResult_rdStarted (bs : List Byte) (s : State) :
    (giveResult bs s).rdStarted = s.rdStarted := rfl
@[simp] theorem giveResult_cur (bs : List Byte) (s : State) : (giveResult bs s).cur = s.cur := rfl
@[simp] theorem giveResult_inAck (bs : List Byte) (s : State) :
    (giveResult bs s).inAck = s.inAck := rfl
@[simp] theorem giveResult_outAck (bs : List Byte) (s : State) :
    (giveResult bs s).outAck = s.outAck := rfl
@[simp] theorem giveResult_ob (bs : List Byte) (s : State) : (giveResult bs s).ob = s.ob := rfl
@[simp] theorem giveResult_earliest (bs : List Byte) (s : State) :
    (giveResult bs s).earliest = s.earliest := rfl
@[simp] theorem giveResult_wrStarted (bs : List Byte) (s : State) :
    (giveResult bs s).wrStarted = s.wrStarted := rfl
@[simp] theorem giveResult_nextSend (bs : List Byte) (s : State) :
    (giveResult bs s).nextSend = s.nextSend := rfl
@[simp] theorem giveResult_lastSend (bs : List Byte) (s : State) :
    (giveResult bs s).lastSend = s.lastSend := rfl
@[simp] theorem giveResult_refused (bs : List Byte) (s : State) :
    (giveResult bs s).refused = s.refused := rfl
@[simp] theorem giveResult_rxq (bs : List Byte) (s : State) : (giveResult bs s).rxq = s.rxq := rfl
@[simp] theorem giveResult_txs (bs : List Byte) (s : State) : (giveResult bs s).txs = s.txs := rfl
@[simp] theorem giveResult_time (bs : List Byte) (s : State) :
    (giveResult bs s).time = s.time := rfl
@[simp] theorem giveResult_env (bs : List Byte) (s : State) : (giveResult bs s).env = s.env := rfl
@[simp] theorem giveResult_cmds (bs : List Byte) (s : State) :
    (giveResult bs s).cmds = s.cmds := rfl
@[simp] theorem giveResult_results (bs : List Byte) (s : State) :
    (giveResult bs s).results = s.results ++ [bs] := rfl
@[simp] theorem giveResult_events (bs : List Byte) (s : State) :
    (giveResult bs s).events = s.events := rfl

/-! ### refuse -/

@[simp] theorem refuse_ib (s : State) : (refuse s).ib = s.ib := rfl
@[simp] theorem refuse_lastIndex (s : State) : (refuse s).lastIndex = s.lastIndex := rfl
@[simp] theorem refuse_rdStarted (s : State) : (refuse s).rdStarted = s.rdStarted := rfl
@[simp] theorem refuse_cur (s : State) : (refuse s).cur = s.cur := rfl
@[simp] theorem refuse_inAck (s : State) : (refuse s).inAck = s.inAck := rfl
@[simp] theorem refuse_outAck (s : State) : (refuse s).outAck = s.outAck := rfl
@[simp] theorem refuse_ob (s : State) : (refuse s).ob = s.ob := rfl
@[simp] theorem refuse_earliest (s : State) : (refuse s).earliest = s.earliest := rfl
@[simp] theorem refuse_wrStarted (s : State) : (refuse s).wrStarted = s.wrStarted := rfl
@[simp] theorem refuse_nextSend (s : State) : (refuse s).nextSend = s.nextSend := rfl
@[simp] theorem refuse_lastSend (s : State) : (refuse s).lastSend = s.lastSend := rfl
@[simp] theorem refuse_refused (s : State) : (refuse s).refused = true := rfl
@[simp] theorem refuse_rxq (s : State) : (refuse s).rxq = s.rxq := rfl
@[simp] theorem refuse_txs (s : State) : (refuse s).txs = s.txs := rfl
@[simp] theorem refuse_time (s : State) : (refuse s).time = s.time := rfl
@[simp] theorem refuse_env (s : State) : (refuse s).env = s.env := rfl
@[simp] theorem refuse_cmds (s : State) : (refuse s).cmds = s.cmds := rfl
@[simp] theorem refuse_results (s : State) : (refuse s).results = s.results := rfl
@[simp] theorem refuse_events (s : State) : (refuse s).events = s.events := rfl

/-! ### txWrite -/

@[simp] theorem txWrite_ib (bs : List Byte) (s : State) : (txWrite bs s).ib = s.ib := rfl
@[simp] theorem txWrite_lastIndex (bs : List Byte) (s : State) :
    (txWrite bs s).lastIndex = s.lastIndex := rfl
@[simp] theorem txWrite_rdStarted (bs : List Byte) (s : State) :
    (txWrite bs s).rdStarted = s.rdStarted := rfl
@[simp] theorem txWrite_cur (bs : List Byte) (s : State) : (txWrite bs s).cur = s.cur := rfl
@[simp] theorem txWrite_inAck (bs : List Byte) (s : State) : (txWrite bs s).inAck = s.inAck := rfl
@[simp] theorem txWrite_outAck (bs : List Byte) (s : State) :
    (txWrite bs s).outAck = s.outAck := rfl
@[simp] theorem txWrite_ob (bs : List Byte) (s : State) : (txWrite bs s).ob = s.ob := rfl
@[simp] theorem txWrite_earliest (bs : List Byte) (s : State) :
    (txWrite bs s).earliest = s.earliest := rfl
@[simp] theorem txWrite_wrStarted (bs : List Byte) (s : State) :
    (txWrite bs s).wrStarted = s.wrStarted := rfl
@[simp] theorem txWrite_nextSend (bs : List Byte) (s : State) :
    (txWrite bs s).nextSend = s.nextSend := rfl
@[simp] theorem txWrite_lastSend (bs : List Byte) (s : State) :
    (txWrite bs s).lastSend = s.lastSend := rfl
@[simp] theorem txWrite_refused (bs : List Byte) (s : State) :
    (txWrite bs s).refused = s.refused := rfl
@[simp] theorem txWrite_rxq (bs : List Byte) (s : State) : (txWrite bs s).rxq = s.rxq := rfl
@[simp] theorem txWrite_txs (bs : List Byte) (s : State) : (txWrite bs s).txs = s.txs ++ bs := rfl
@[simp] theorem txWrite_time (bs : List Byte) (s : State) : (txWrite bs s).time = s.time := rfl
@[simp] theorem txWrite_env (bs : List Byte) (s : State) : (txWrite bs s).env = s.env := rfl
@[simp] theorem txWrite_cmds (bs : List Byte) (s : State) : (txWrite bs s).cmds = s.cmds := rfl
@[simp] theorem txWrite_results (bs : List Byte) (s : State) :
    (txWrite bs s).results = s.results := rfl
@[simp] theorem txWrite_events (bs : List Byte) (s : State) :
    (txWrite bs s).events = s.events := rfl

/-! ### putCommand -/

@[simp] theorem putCommand_ib (bs : List Byte) (s : State) : (putCommand bs s).ib = s.ib := rfl
@[simp] theorem putCommand_lastIndex (bs : List Byte) (s : State) :
    (putCommand bs s).lastIndex = s.lastIndex := rfl
@[simp] theorem putCommand_rdStarted (bs : List Byte) (s : State) :
    (putCommand bs s).rdStarted = s.rdStarted := rfl
@[simp] theorem putCommand_cur (bs : List Byte) (s : State) : (putCommand bs s).cur = s.cur := rfl
@[simp] theorem putCommand_inAck (bs : List Byte) (s : State) :
    (putCommand bs s).inAck = s.inAck := rfl
@[simp] theorem putCommand_outAck (bs : List Byte) (s : State) :
    (putCommand bs s).outAck = s.outAck := rfl
@[simp] theorem putCommand_ob (bs : List Byte) (s : State) : (putCommand bs s).ob = s.ob := rfl
@[simp] theorem putCommand_earliest (bs : List Byte) (s : State) :
    (putCommand bs s).earliest = s.earliest := rfl
@[simp] theorem putCommand_wrStarted (bs : List Byte) (s : State) :
    (putCommand bs s).wrStarted = s.wrStarted := rfl
@[simp] theorem putCommand_nextSend (bs : List Byte) (s : State) :
    (putCommand bs s).nextSend = s.nextSend := rfl
@[simp] theorem putCommand_lastSend (bs : List Byte) (s : State) :
    (putCommand bs s).lastSend = s.lastSend := rfl
@[simp] theorem putCommand_refused (bs : List Byte) (s : State) :
    (putCommand bs s).refused = s.refused := rfl
@[simp] theorem putCommand_rxq (bs : List Byte) (s : State) : (putCommand bs s).rxq = s.rxq := rfl
@[simp] theorem putCommand_txs (bs : List Byte) (s : State) : (putCommand bs s).txs = s.txs := rfl
@[simp] theorem putCommand_time (bs : List Byte) (s : State) :
    (putCommand bs s).time = s.time := rfl
@[simp] theorem putCommand_env (bs : List Byte) (s : State) : (putCommand bs s).env = s.env := rfl
@[simp] theorem putCommand_cmds (bs : List Byte) (s : State) :
    (putCommand bs s).cmds = bs :: s.cmds := rfl
@[simp] theorem putCommand_results (bs : List Byte) (s : State) :
    (putCommand bs s).results = s.results := rfl
@[simp] theorem putCommand_events (bs : List Byte) (s : State) :
    (putCommand bs s).events = s.events := rfl

/-! ### mapLive -/

@[simp] theorem mapLive_ib (p : OutSlot → Bool) (f : OutSlot → OutSlot) (s : State) :
    (mapLive p f s).ib = s.ib := rfl
@[simp] theorem mapLive_lastIndex (p : OutSlot → Bool) (f : OutSlot → OutSlot) (s : State) :
    (mapLive p f s).lastIndex = s.lastIndex := rfl
@[simp] theorem mapLive_rdStarted (p : OutSlot → Bool) (f : OutSlot → OutSlot) (s : State) :
    (mapLive p f s).rdStarted = s.rdStarted := rfl
@[simp] theorem mapLive_cur (p : OutSlot → Bool) (f : OutSlot → OutSlot) (s : State) :
    (mapLive p f s).cur = s.cur := rfl
@[simp] theorem mapLive_inAck (p : OutSlot → Bool) (f : OutSlot → OutSlot) (s : State) :
    (mapLive p f s).inAck = s.inAck := rfl
@[simp] theorem mapLive_outAck (p : OutSlot → Bool) (f : OutSlot → OutSlot) (s : State) :
    (mapLive p f s).outAck = s.outAck := rfl
@[simp] theorem mapLive_ob (p : OutSlot → Bool) (f : OutSlot → OutSlot) (s : State) :
    (mapLive p f s).ob = s.ob.map fun x => if x.live && p x then f x else x := rfl
@[simp] theorem mapLive_earliest (p : OutSlot → Bool) (f : OutSlot → OutSlot) (s : State) :
    (mapLive p f s).earliest = s.earliest := rfl
@[simp] theorem mapLive_wrStarted (p : OutSlot → Bool) (f : OutSlot → OutSlot) (s : State) :
    (mapLive p f s).wrStarted = s.wrStarted := rfl
@[simp] theorem mapLive_nextSend (p : OutSlot → Bool) (f : OutSlot → OutSlot) (s : State) :
    (mapLive p f s).nextSend = s.nextSend := rfl
@[simp] theorem mapLive_lastSend (p : OutSlot → Bool) (f : OutSlot → OutSlot) (s : State) :
    (mapLive p f s).lastSend = s.lastSend := rfl
@[simp] theorem mapLive_refused (p : OutSlot → Bool) (f : OutSlot → OutSlot) (s : State) :
    (mapLive p f s).refused = s.refused := rfl
@[simp] theorem mapLive_rxq (p : OutSlot → Bool) (f : OutSlot → OutSlot) (s : State) :
    (mapLive p f s).rxq = s.rxq := rfl
@[simp] theorem mapLive_txs (p : OutSlot → Bool) (f : OutSlot → OutSlot) (s : State) :
    (mapLive p f s).txs = s.txs := rfl
@[simp] theorem mapLive_time (p : OutSlot → Bool) (f : OutSlot → OutSlot) (s : State) :
    (mapLive p f s).time = s.time := rfl
@[simp] theorem mapLive_env (p : OutSlot → Bool) (f : OutSlot → OutSlot) (s : State) :
    (mapLive p f s).env = s.env := rfl
@[simp] theorem mapLive_cmds (p : OutSlot → Bool) (f : OutSlot → OutSlot) (s : State) :
    (mapLive p f s).cmds = s.cmds := rfl
@[simp] theorem mapLive_results (p : OutSlot → Bool) (f : OutSlot → OutSlot) (s : State) :
    (mapLive p f s).results = s.results := rfl
@[simp] theorem mapLive_events (p : OutSlot → Bool) (f : OutSlot → OutSlot) (s : State) :
    (mapLive p f s).events = s.events := rfl

/-! ### cleanup -/

@[simp] theorem cleanup_ib (c : Config) (s : State) :
    (cleanup c s).ib = dropDuplicates [] (evictOutOfWindow c s.lastIndex s.ib) := rfl
@[simp] theorem cleanup_lastIndex (c : Config) (s : State) :
    (cleanup c s).lastIndex = s.lastIndex := rfl
@[simp] theorem cleanup_rdStarted (c : Config) (s : State) :
    (cleanup c s).rdStarted = s.rdStarted := rfl
@[simp] theorem cleanup_cur (c : Config) (s : State) : (cleanup c s).cur = s.cur := rfl
@[simp] theorem cleanup_inAck (c : Config) (s : State) : (cleanup c s).inAck = s.inAck := rfl
@[simp] theorem cleanup_outAck (c : Config) (s : State) : (cleanup c s).outAck = s.outAck := rfl
@[simp] theorem cleanup_ob (c : Config) (s : State) : (cleanup c s).ob = s.ob := rfl
@[simp] theorem cleanup_earliest (c : Config) (s : State) :
    (cleanup c s).earliest = s.earliest := rfl
@[simp] theorem cleanup_wrStarted (c : Config) (s : State) :
    (cleanup c s).wrStarted = s.wrStarted := rfl
@[simp] theorem cleanup_nextSend (c : Config) (s : State) :
    (cleanup c s).nextSend = s.nextSend := rfl
@[simp] theorem cleanup_lastSend (c : Config) (s : State) :
    (cleanup c s).lastSend = s.lastSend := rfl
@[simp] theorem cleanup_refused (c : Config) (s : State) : (cleanup c s).refused = s.refused := rfl
@[simp] theorem cleanup_rxq (c : Config) (s : State) : (cleanup c s).rxq = s.rxq := rfl
@[simp] theorem cleanup_txs (c : Config) (s : State) : (cleanup c s).txs = s.txs := rfl
@[simp] theorem cleanup_time (c : Config) (s : State) : (cleanup c s).time = s.time := rfl
@[simp] theorem cleanup_env (c : Config) (s : State) : (cleanup c s).env = s.env := rfl
@[simp] theorem cleanup_cmds (c : Config) (s : State) : (cleanup c s).cmds = s.cmds := rfl
@[simp] theorem cleanup_results (c : Config) (s : State) : (cleanup c s).results = s.results := rfl
@[simp] theorem cleanup_events (c : Config) (s : State) : (cleanup c s).events = s.events := rfl

/-! ### updateNextIndex -/

@[simp] theorem updateNextIndex_ib (c : Config) (s : State) : (updateNextIndex c s).ib = s.ib := rfl
@[simp] theorem updateNextIndex_lastIndex (c : Config) (s : State) :
    (updateNextIndex c s).lastIndex = s.lastIndex := rfl
@[simp] theorem updateNextIndex_rdStarted (c : Config) (s : State) :
    (updateNextIndex c s).rdStarted = s.rdStarted := rfl
@[simp] theorem updateNextIndex_cur (c : Config) (s : State) :
    (updateNextIndex c s).cur = s.cur := rfl
@[simp] theorem updateNextIndex_inAck (c : Config) (s : State) :
    (updateNextIndex c s).inAck = s.inAck := rfl
@[simp] theorem updateNextIndex_outAck (c : Config) (s : State) :
    (updateNextIndex c s).outAck = s.outAck := rfl
@[simp] theorem updateNextIndex_ob (c : Config) (s : State) : (updateNextIndex c s).ob = s.ob := rfl
@[simp] theorem updateNextIndex_earliest (c : Config) (s : State) :
    (updateNextIndex c s).earliest = earliestIndex c s := rfl
@[simp] theorem updateNextIndex_wrStarted (c : Config) (s : State) :
    (updateNextIndex c s).wrStarted = s.wrStarted := rfl
@[simp] theorem updateNextIndex_nextSend (c : Config) (s : State) :
    (updateNextIndex c s).nextSend = s.nextSend := rfl
@[simp] theorem updateNextIndex_lastSend (c : Config) (s : State) :
    (updateNextIndex c s).lastSend = s.lastSend := rfl
@[simp] theorem updateNextIndex_refused (c : Config) (s : State) :
    (updateNextIndex c s).refused = s.refused := rfl
@[simp] theorem updateNextIndex_rxq (c : Config) (s : State) :
    (updateNextIndex c s).rxq = s.rxq := rfl
@[simp] theorem updateNextIndex_txs (c : Config) (s : State) :
    (updateNextIndex c s).txs = s.txs := rfl
@[simp] theorem updateNextIndex_time (c : Config) (s : State) :
    (updateNextIndex c s).time = s.time := rfl
@[simp] theorem updateNextIndex_env (c : Config) (s : State) :
    (updateNextIndex c s).env = s.env := rfl
@[simp] theorem updateNextIndex_cmds (c : Config) (s : State) :
    (updateNextIndex c s).cmds = s.cmds := rfl
@[simp] theorem updateNextIndex_results (c : Config) (s : State) :
    (updateNextIndex c s).results = s.results := rfl
@[simp] theorem updateNextIndex_events (c : Config) (s : State) :
    (updateNextIndex c s).events = s.events := rfl

/-! ### clearInbound -/

@[simp] theorem clearInbound_ib (s : State) :
    (clearInbound hw s).ib = s.ib.map fun _ => InSlot.freed := rfl
@[simp] theorem clearInbound_lastIndex (s : State) : (clearInbound hw s).lastIndex = 127 := rfl
@[simp] theorem clearInbound_rdStarted (s : State) : (clearInbound hw s).rdStarted = s.rdStarted := rfl
@[simp] theorem clearInbound_cur (s : State) : (clearInbound hw s).cur = none := rfl
@[simp] theorem clearInbound_inAck (s : State) : (clearInbound hw s).inAck = s.inAck := rfl
@[simp] theorem clearInbound_outAck (s : State) : (clearInbound hw s).outAck = s.outAck := rfl
@[simp] theorem clearInbound_ob (s : State) : (clearInbound hw s).ob = s.ob := rfl
@[simp] theorem clearInbound_earliest (s : State) : (clearInbound hw s).earliest = s.earliest := rfl
@[simp] theorem clearInbound_wrStarted (s : State) : (clearInbound hw s).wrStarted = s.wrStarted := rfl
@[simp] theorem clearInbound_nextSend (s : State) : (clearInbound hw s).nextSend = s.nextSend := rfl
@[simp] theorem clearInbound_lastSend (s : State) : (clearInbound hw s).lastSend = s.lastSend := rfl
@[simp] theorem clearInbound_refused (s : State) : (clearInbound hw s).refused = s.refused := rfl
@[simp] theorem clearInbound_rxq (s : State) : (clearInbound hw s).rxq = s.rxq := rfl
@[simp] theorem clearInbound_txs (s : State) : (clearInbound hw s).txs = s.txs := rfl
@[simp] theorem clearInbound_time (s : State) : (clearInbound hw s).time = s.time := rfl
@[simp] theorem clearInbound_env (s : State) : (clearInbound hw s).env = s.env := rfl
@[simp] theorem clearInbound_cmds (s : State) : (clearInbound hw s).cmds = s.cmds := rfl
@[simp] theorem clearInbound_results (s : State) : (clearInbound hw s).results = s.results := rfl
@[simp] theorem clearInbound_events (s : State) : (clearInbound hw s).events = s.events := rfl

/-! ### setCurSlot -/

@[simp] theorem setCurSlot_lastIndex (x : InSlot) (s : State) :
    (setCurSlot x s).lastIndex = s.lastIndex := by unfold setCurSlot; split <;> rfl
@[simp] theorem setCurSlot_rdStarted (x : InSlot) (s : State) :
    (setCurSlot x s).rdStarted = s.rdStarted := by unfold setCurSlot; split <;> rfl
@[simp] theorem setCurSlot_cur (x : InSlot) (s : State) :
    (setCurSlot x s).cur = s.cur := by unfold setCurSlot; split <;> rfl
@[simp] theorem setCurSlot_inAck (x : InSlot) (s : State) :
    (setCurSlot x s).inAck = s.inAck := by unfold setCurSlot; split <;> rfl
@[simp] theorem setCurSlot_outAck (x : InSlot) (s : State) :
    (setCurSlot x s).outAck = s.outAck := by unfold setCurSlot; split <;> rfl
@[simp] theorem setCurSlot_ob (x : InSlot) (s : State) :
    (setCurSlot x s).ob = s.ob := by unfold setCurSlot; split <;> rfl
@[simp] theorem setCurSlot_earliest (x : InSlot) (s : State) :
    (setCurSlot x s).earliest = s.earliest := by unfold setCurSlot; split <;> rfl
@[simp] theorem setCurSlot_wrStarted (x : InSlot) (s : State) :
    (setCurSlot x s).wrStarted = s.wrStarted := by unfold setCurSlot; split <;> rfl
@[simp] theorem setCurSlot_nextSend (x : InSlot) (s : State) :
    (setCurSlot x s).nextSend = s.nextSend := by unfold setCurSlot; split <;> rfl
@[simp] theorem setCurSlot_lastSend (x : InSlot) (s : State) :
    (setCurSlot x s).lastSend = s.lastSend := by unfold setCurSlot; split <;> rfl
@[simp] theorem setCurSlot_refused (x : InSlot) (s : State) :
    (setCurSlot x s).refused = s.refused := by unfold setCurSlot; split <;> rfl
@[simp] theorem setCurSlot_rxq (x : InSlot) (s : State) :
    (setCurSlot x s).rxq = s.rxq := by unfold setCurSlot; split <;> rfl
@[simp] theorem setCurSlot_txs (x : InSlot) (s : State) :
    (setCurSlot x s).txs = s.txs := by unfold setCurSlot; split <;> rfl
@[simp] theorem setCurSlot_time (x : InSlot) (s : State) :
    (setCurSlot x s).time = s.time := by unfold setCurSlot; split <;> rfl
@[simp] theorem setCurSlot_env (x : InSlot) (s : State) :
    (setCurSlot x s).env = s.env := by unfold setCurSlot; split <;> rfl
@[simp] theorem setCurSlot_cmds (x : InSlot) (s : State) :
    (setCurSlot x s).cmds = s.cmds := by unfold setCurSlot; split <;> rfl
@[simp] theorem setCurSlot_results (x : InSlot) (s : State) :
    (setCurSlot x s).results = s.results := by unfold setCurSlot; split <;> rfl
@[simp] theorem setCurSlot_events (x : InSlot) (s : State) :
    (setCurSlot x s).events = s.events := by unfold setCurSlot; split <;> rfl

/-! ### envTurn -/

@[simp] theorem envTurn_ib (s : State) :
    (envTurn s).ib = s.ib := by unfold envTurn; split <;> simp_all
@[simp] theorem envTurn_lastIndex (s : State) :
    (envTurn s).lastIndex = s.lastIndex := by unfold envTurn; split <;> simp_all
@[simp] theorem envTurn_rdStarted (s : State) :
    (envTurn s).rdStarted = s.rdStarted := by unfold envTurn; split <;> simp_all
@[simp] theorem envTurn_cur (s : State) :
    (envTurn s).cur = s.cur := by unfold envTurn; split <;> simp_all
@[simp] theorem envTurn_inAck (s : State) :
    (envTurn s).inAck = s.inAck := by unfold envTurn; split <;> simp_all
@[simp] theorem envTurn_outAck (s : State) :
    (envTurn s).outAck = s.outAck := by unfold envTurn; split <;> simp_all
@[simp] theorem envTurn_ob (s : State) :
    (envTurn s).ob = s.ob := by unfold envTurn; split <;> simp_all
@[simp] theorem envTurn_earliest (s : State) :
    (envTurn s).earliest = s.earliest := by unfold envTurn; split <;> simp_all
@[simp] theorem envTurn_wrStarted (s : State) :
    (envTurn s).wrStarted = s.wrStarted := by unfold envTurn; split <;> simp_all
@[simp] theorem envTurn_nextSend (s : State) :
    (envTurn s).nextSend = s.nextSend := by unfold envTurn; split <;> simp_all
@[simp] theorem envTurn_lastSend (s : State) :
    (envTurn s).lastSend = s.lastSend := by unfold envTurn; split <;> simp_all
@[simp] theorem envTurn_refused (s : State) :
    (envTurn s).refused = s.refused := by unfold envTurn; split <;> simp_all
@[simp] theorem envTurn_txs (s : State) :
    (envTurn s).txs = s.txs := by unfold envTurn; split <;> simp_all
@[simp] theorem envTurn_env (s : State) :
    (envTurn s).env = s.env.tail := by unfold envTurn; split <;> simp_all
@[simp] theorem envTurn_cmds (s : State) :
    (envTurn s).cmds = s.cmds := by unfold envTurn; split <;> simp_all
@[simp] theorem envTurn_results (s : State) :
    (envTurn s).results = s.results := by unfold envTurn; split <;> simp_all
@[simp] theorem envTurn_events (s : State) :
    (envTurn s).events = s.events := by unfold envTurn; split <;> simp_all

/-! ### What the conditional updates write -/

theorem setCurSlot_of_none {s : State} (h : s.cur = none) (x : InSlot) : setCurSlot x s = s := by
  simp [setCurSlot, h]

theorem setCurSlot_of_some {s : State} {i : Nat} (h : s.cur = some i) (x : InSlot) :
    setCurSlot x s = setInSlot i x s := by
  simp [setCurSlot, h]

theorem envTurn_of_nil {s : State} (h : s.env = []) : envTurn s = s := by
  simp [envTurn, h]

theorem envTurn_of_cons {s : State} {a : EnvAct} {rest : List EnvAct} (h : s.env = a :: rest) :
    envTurn s = { s with env := rest, rxq := s.rxq ++ a.rx, time := a.time.getD s.time } := by
  simp [envTurn, h]

/-- A boundary writes only what belongs to the environment: its plan, the receive queue, the
time input. -/
theorem envTurn_eq (s : State) :
    envTurn s = { s with env := s.env.tail, rxq := (envTurn s).rxq, time := (envTurn s).time } := by
  cases s
  simp only [envTurn]
  split <;> simp_all

/-- A boundary appends to the receive queue and takes nothing from it. -/
theorem envTurn_rxq (s : State) :
    (envTurn s).rxq = s.rxq ++ ((s.env.head?.map EnvAct.rx).getD []) := by
  cases h : s.env <;> simp [envTurn, h]

/-! ### Reading a slot after a write -/

@[simp] theorem inSlot_setInSlot_self {s : State} {i : Nat} (h : i < s.ib.length) (x : InSlot) :
    inSlot (setInSlot i x s) i = x := by
  simp [inSlot, setInSlot, h]

theorem inSlot_setInSlot_ne {s : State} {i j : Nat} (h : i ≠ j) (x : InSlot) :
    inSlot (setInSlot i x s) j = inSlot s j := by
  simp [inSlot, setInSlot, List.getElem?_set_ne h]

@[simp] theorem outSlot_setOutSlot_self {s : State} {j : Nat} (h : j < s.ob.length) (x : OutSlot) :
    outSlot (setOutSlot j x s) j = x := by
  simp [outSlot, setOutSlot, h]

theorem outSlot_setOutSlot_ne {s : State} {i j : Nat} (h : i ≠ j) (x : OutSlot) :
    outSlot (setOutSlot i x s) j = outSlot s j := by
  simp [outSlot, setOutSlot, List.getElem?_set_ne h]

end Sys2Proof.Machine
end

