-- ==== Sys2Proof/Laws/Buffers.lean ====
section
/-! SUPPORT. What each operation of the two ring buffers can do (42_inbound_buffer.md R83 to R86,
43_outbound_buffer.md R88 to R96): once per operation, for later proofs to cite. -/

namespace Sys2Proof.Machine

/-! ### Searching a list of slots -/

/-- The lowest position that satisfies a test. -/
theorem findIdx_some_iff {α : Type} {l : List α} {p : α → Bool} {i : Nat} :
    l.findIdx? p = some i ↔
      (∃ x, l[i]? = some x ∧ p x = true) ∧ ∀ j x, j < i → l[j]? = some x → p x = false := by
  rw [List.findIdx?_eq_some_iff_getElem]
  constructor
  · rintro ⟨h, hp, hlt⟩
    refine ⟨⟨l[i], List.getElem?_eq_getElem h, hp⟩, fun j x hj hx => ?_⟩
    obtain ⟨hl, rfl⟩ := List.getElem?_eq_some_iff.1 hx
    simpa using hlt j hj
  · rintro ⟨⟨x, hx, hp⟩, hlt⟩
    obtain ⟨hl, rfl⟩ := List.getElem?_eq_some_iff.1 hx
    refine ⟨hl, hp, fun j hj => ?_⟩
    simpa using hlt j _ hj (List.getElem?_eq_getElem (hj.trans hl))

theorem findIdx_none_iff {α : Type} {l : List α} {p : α → Bool} :
    l.findIdx? p = none ↔ ∀ x ∈ l, p x = false := by
  rw [List.findIdx?_eq_none_iff]

/-- The first entry that satisfies a test is the entry at its lowest position. -/
theorem find_eq_findIdx {α : Type} (l : List α) (p : α → Bool) :
    l.find? p = (l.findIdx? p).bind (fun i => l[i]?) := by
  induction l with
  | nil => rfl
  | cons x rest ih =>
    rw [List.find?_cons, List.findIdx?_cons]
    cases hp : p x with
    | true => simp
    | false =>
      rw [ih]
      cases rest.findIdx? p <;> simp

theorem inSlot_of_getElem {s : State} {i : Nat} {x : InSlot} (h : s.ib[i]? = some x) :
    inSlot s i = x := by
  simp [inSlot, h]

theorem outSlot_of_getElem {s : State} {j : Nat} {x : OutSlot} (h : s.ob[j]? = some x) :
    outSlot s j = x := by
  simp [outSlot, h]

/-! ### The inbound buffer -/

/-- Pass 2 of `Cleanup`, slot by slot (R83). -/
theorem dropDuplicates_getElem (seen : List Byte) (l : List InSlot) (i : Nat) (x : InSlot)
    (h : l[i]? = some x) :
    (x.st = .ready ∧ (x.idx ∈ seen ∨ ∃ j y, j < i ∧ l[j]? = some y ∧ y.st = .ready ∧ y.idx = x.idx) →
        (dropDuplicates seen l)[i]? = some InSlot.freed) ∧
      (¬(x.st = .ready ∧
          (x.idx ∈ seen ∨ ∃ j y, j < i ∧ l[j]? = some y ∧ y.st = .ready ∧ y.idx = x.idx)) →
        (dropDuplicates seen l)[i]? = some x) := by
  induction l generalizing seen i with
  | nil => simp at h
  | cons a rest ih =>
    cases i with
    | zero =>
      simp only [List.getElem?_cons_zero, Option.some.injEq] at h
      subst h
      simp only [dropDuplicates]
      split
      · split <;> simp_all
      · simp_all
    | succ i =>
      simp only [List.getElem?_cons_succ] at h
      have hsplit : (∃ j y, j < i + 1 ∧ (a :: rest)[j]? = some y ∧ y.st = .ready ∧ y.idx = x.idx) ↔
          (a.st = .ready ∧ a.idx = x.idx) ∨
            ∃ j y, j < i ∧ rest[j]? = some y ∧ y.st = .ready ∧ y.idx = x.idx := by
        constructor
        · rintro ⟨j, y, hj, hy, h1, h2⟩
          cases j with
          | zero => simp at hy; subst hy; exact .inl ⟨h1, h2⟩
          | succ j => exact .inr ⟨j, y, by omega, by simpa using hy, h1, h2⟩
        · rintro (⟨h1, h2⟩ | ⟨j, y, hj, hy, h1, h2⟩)
          · exact ⟨0, a, by omega, rfl, h1, h2⟩
          · exact ⟨j + 1, y, by omega, by simpa using hy, h1, h2⟩
      rw [hsplit]
      simp only [dropDuplicates]
      split
      · rename_i ha
        split
        · rename_i hm
          obtain ⟨h1, h2⟩ := ih seen i h
          simp only [List.getElem?_cons_succ]
          refine ⟨fun hc => h1 ⟨hc.1, ?_⟩, fun hc => h2 fun hd => hc ⟨hd.1, ?_⟩⟩
          · rcases hc.2 with hs | ⟨_, hs⟩ | hs
            · exact .inl hs
            · exact .inl (hs ▸ hm)
            · exact .inr hs
          · rcases hd.2 with hs | hs
            · exact .inl hs
            · exact .inr (.inr hs)
        · obtain ⟨h1, h2⟩ := ih (a.idx :: seen) i h
          simp only [List.getElem?_cons_succ]
          refine ⟨fun hc => h1 ⟨hc.1, ?_⟩, fun hc => h2 fun hd => hc ⟨hd.1, ?_⟩⟩
          · rcases hc.2 with hs | ⟨_, hs⟩ | hs
            · exact .inl (List.mem_cons_of_mem _ hs)
            · exact .inl (hs ▸ List.mem_cons_self)
            · exact .inr hs
          · rcases hd.2 with hs | hs
            · rcases List.mem_cons.1 hs with hs | hs
              · exact .inr (.inl ⟨ha, hs.symm⟩)
              · exact .inl hs
            · exact .inr (.inr hs)
      · rename_i ha
        obtain ⟨h1, h2⟩ := ih seen i h
        simp only [List.getElem?_cons_succ]
        refine ⟨fun hc => h1 ⟨hc.1, ?_⟩, fun hc => h2 fun hd => hc ⟨hd.1, ?_⟩⟩
        · rcases hc.2 with hs | ⟨hs, _⟩ | hs
          · exact .inl hs
          · exact absurd hs ha
          · exact .inr hs
        · rcases hd.2 with hs | hs
          · exact .inl hs
          · exact .inr (.inr hs)

@[simp] theorem dropDuplicates_length (seen : List Byte) (l : List InSlot) :
    (dropDuplicates seen l).length = l.length := by
  induction l generalizing seen with
  | nil => rfl
  | cons a rest ih =>
    simp only [dropDuplicates]
    split
    · split <;> simp [ih]
    · simp [ih]

theorem cleanup_ib_length (c : Config) (s : State) :
    (cleanup c s).ib.length = s.ib.length := by
  simp [evictOutOfWindow]

/-- Every slot that `Cleanup` leaves is a slot as it was, or a freed one (R83). -/
theorem cleanup_getElem (c : Config) (s : State) (i : Nat) (x : InSlot) (h : s.ib[i]? = some x) :
    (cleanup c s).ib[i]? = some x ∨
      (x.st = .ready ∧ (cleanup c s).ib[i]? = some InSlot.freed) := by
  have he : (evictOutOfWindow c s.lastIndex s.ib)[i]? =
      some (if outOfWindow c s.lastIndex x then InSlot.freed else x) := by
    simp [evictOutOfWindow, h]
  have hd := dropDuplicates_getElem [] _ i _ he
  simp only [cleanup_ib]
  by_cases ho : outOfWindow c s.lastIndex x = true
  · have hr : x.st = .ready := by simp [outOfWindow] at ho; exact ho.1
    rw [if_pos ho] at hd
    exact .inr ⟨hr, hd.2 (by simp [InSlot.freed])⟩
  · rw [if_neg ho] at hd
    by_cases hc : x.st = .ready ∧ (x.idx ∈ ([] : List Byte) ∨ ∃ j y, j < i ∧
        (evictOutOfWindow c s.lastIndex s.ib)[j]? = some y ∧ y.st = .ready ∧ y.idx = x.idx)
    · exact .inr ⟨hc.1, hd.1 hc⟩
    · exact .inl (hd.2 hc)

/-- What `AllocatePacket` of the inbound buffer can answer (R84). -/
theorem allocateInbound_cases (c : Config) (s : State) :
    (allocateInbound c s = (cleanup c s, none) ∧ ∀ x ∈ (cleanup c s).ib, x.st ≠ .free) ∨
      ∃ i x, (cleanup c s).ib[i]? = some x ∧ x.st = .free ∧
        (∀ j y, j < i → (cleanup c s).ib[j]? = some y → y.st ≠ .free) ∧
        allocateInbound c s =
          (setInSlot i { x with st := .filling, ps := ParserState.empty, hist := [] } (cleanup c s),
            some i) := by
  unfold allocateInbound
  dsimp only
  split
  · rename_i h
    exact .inl ⟨rfl, fun x hx => by simpa using findIdx_none_iff.1 h x hx⟩
  · rename_i i h
    obtain ⟨⟨x, hx, hf⟩, hlt⟩ := findIdx_some_iff.1 h
    rw [inSlot_of_getElem hx]
    exact .inr ⟨i, x, hx, by simpa using hf, fun j y hj hy => by simpa using hlt j y hj hy, rfl⟩

/-- What `PopPacket` can answer (R85). -/
theorem popPacket_cases (c : Config) (s : State) :
    (popPacket c s = (s, none) ∧ (s.inAck ≠ 0x00 ∨
        ∀ x ∈ s.ib, ¬(x.st = .ready ∧ x.idx = seqByte (nextIndex c s.lastIndex)))) ∨
      (s.inAck = 0x00 ∧ ∃ i x, s.ib[i]? = some x ∧ x.st = .ready ∧
        x.idx = seqByte (nextIndex c s.lastIndex) ∧
        (∀ j y, j < i → s.ib[j]? = some y →
          ¬(y.st = .ready ∧ y.idx = seqByte (nextIndex c s.lastIndex))) ∧
        popPacket c s =
          ({ setInSlot i InSlot.freed s with
              lastIndex := nextIndex c s.lastIndex
              inAck := ackCompose false (nextIndex c s.lastIndex) },
            some (x.len, bufRead x.data x.len.toNat))) := by
  unfold popPacket
  split
  · rename_i h
    exact .inl ⟨rfl, .inl ((ackPending_iff _).1 h)⟩
  · rename_i h
    have h0 : s.inAck = 0x00 := by
      by_contra hc
      exact h ((ackPending_iff _).2 hc)
    split
    · rename_i hn
      refine .inl ⟨rfl, .inr fun x hx => ?_⟩
      have := findIdx_none_iff.1 hn x hx
      simpa using this
    · rename_i i hn
      obtain ⟨⟨x, hx, hp⟩, hlt⟩ := findIdx_some_iff.1 hn
      simp only [Bool.and_eq_true, beq_iff_eq] at hp
      refine .inr ⟨h0, i, x, hx, hp.1, hp.2, fun j y hj hy => ?_, ?_⟩
      · simpa using hlt j y hj hy
      · rw [inSlot_of_getElem hx]

/-! ### The outbound buffer -/

/-- What `AllocatePacket` of the outbound buffer can answer (R89). -/
theorem allocateOutbound_cases (s : State) :
    (allocateOutbound s = (s, none) ∧ ∀ x ∈ s.ob, x.live = true) ∨
      ∃ j x, s.ob[j]? = some x ∧ x.live = false ∧
        (∀ k y, k < j → s.ob[k]? = some y → y.live = true) ∧
        allocateOutbound s = (setOutSlot j { x with live := true, pending := true } s, some j) := by
  unfold allocateOutbound
  split
  · rename_i h
    exact .inl ⟨rfl, fun x hx => by simpa using findIdx_none_iff.1 h x hx⟩
  · rename_i j h
    obtain ⟨⟨x, hx, hf⟩, hlt⟩ := findIdx_some_iff.1 h
    rw [outSlot_of_getElem hx]
    exact .inr ⟨j, x, hx, by simpa using hf, fun k y hk hy => by simpa using hlt k y hk hy, rfl⟩

/-- `oldestLive` answers nothing only if no frame is live (R90). -/
theorem oldestLive_none_iff (c : Config) (n : Seq) (l : List OutSlot) :
    oldestLive c n l = none ↔ ∀ x ∈ l, x.live = false := by
  induction l with
  | nil => simp [oldestLive]
  | cons a rest ih =>
    simp only [oldestLive]
    split
    · rename_i h
      split
      · simp [h]
      · split <;> simp [h]
    · rename_i h
      simp [ih, h]

/-- `oldestLive` answers the lowest live frame of greatest age (R90). -/
theorem oldestLive_some {c : Config} {n : Seq} {l : List OutSlot} {x : OutSlot} (h : oldestLive c n l = some x) :
    ∃ j, l[j]? = some x ∧ x.live = true ∧
      ∀ (k : Nat) (y : OutSlot), l[k]? = some y → y.live = true →
        age c n y.idx ≤ age c n x.idx ∧ (k < j → age c n y.idx < age c n x.idx) := by
  induction l generalizing x with
  | nil => simp [oldestLive] at h
  | cons a rest ih =>
    simp only [oldestLive] at h
    split at h
    · rename_i hl
      split at h
      · rename_i hn
        simp only [Option.some.injEq] at h
        subst h
        have hr := (oldestLive_none_iff c n rest).1 hn
        refine ⟨0, rfl, hl, fun k y hy hly => ?_⟩
        cases k with
        | zero => simp at hy; subst hy; exact ⟨Nat.le_refl _, fun hc => absurd hc (by omega)⟩
        | succ k =>
          have := hr y (List.mem_of_getElem? (by simpa using hy))
          rw [this] at hly
          exact absurd hly (by decide)
      · rename_i y hy
        obtain ⟨j, hj, hlj, hmax⟩ := ih hy
        split at h
        · rename_i hlt
          simp only [Option.some.injEq] at h
          subst h
          refine ⟨j + 1, by simpa using hj, hlj, fun k z hz hlz => ?_⟩
          cases k with
          | zero => simp at hz; subst hz; exact ⟨by omega, fun _ => hlt⟩
          | succ k =>
            obtain ⟨h1, h2⟩ := hmax k z (by simpa using hz) hlz
            exact ⟨h1, fun hk => h2 (by omega)⟩
        · rename_i hge
          simp only [Option.some.injEq] at h
          subst h
          refine ⟨0, rfl, hl, fun k z hz hlz => ⟨?_, fun hc => absurd hc (by omega)⟩⟩
          cases k with
          | zero => simp at hz; subst hz; exact Nat.le_refl _
          | succ k =>
            have := (hmax k z (by simpa using hz) hlz).1
            omega
    · rename_i hl
      obtain ⟨j, hj, hlj, hmax⟩ := ih h
      refine ⟨j + 1, by simpa using hj, hlj, fun k z hz hlz => ?_⟩
      cases k with
      | zero => simp at hz; subst hz; exact absurd hlz hl
      | succ k =>
        obtain ⟨h1, h2⟩ := hmax k z (by simpa using hz) hlz
        exact ⟨h1, fun hk => h2 (by omega)⟩

/-- What `mapLive` does to one slot. -/
theorem mapLive_getElem (p : OutSlot → Bool) (f : OutSlot → OutSlot) (s : State) (j : Nat) :
    (mapLive p f s).ob[j]? = (s.ob[j]?).map fun x => if x.live && p x then f x else x := by
  simp

theorem mapLive_ob_length (p : OutSlot → Bool) (f : OutSlot → OutSlot) (s : State) :
    (mapLive p f s).ob.length = s.ob.length := by
  simp

/-- The slot `pendingSlot` finds (R91). -/
theorem pendingSlot_some_iff {s : State} {b : Byte} {j : Nat} :
    pendingSlot s b = some j ↔
      (∃ x, s.ob[j]? = some x ∧ x.live = true ∧ x.pending = true ∧ x.idx = b) ∧
        ∀ k y, k < j → s.ob[k]? = some y → ¬(y.live = true ∧ y.pending = true ∧ y.idx = b) := by
  unfold pendingSlot
  rw [findIdx_some_iff]
  simp [and_assoc]

theorem pendingSlot_none_iff {s : State} {b : Byte} :
    pendingSlot s b = none ↔ ∀ x ∈ s.ob, ¬(x.live = true ∧ x.pending = true ∧ x.idx = b) := by
  unfold pendingSlot
  rw [findIdx_none_iff]
  simp

/-- The first number of a stretch of the wheel for which a search succeeds. -/
theorem wheelFrom_findSome {α : Type} (c : Config) (f : Seq → Option α) (n : Nat) (e : Seq) :
    (∀ a, (wheelFrom c n e).findSome? f = some a →
        ∃ k, k < n ∧ f (stepsFrom c e k) = some a ∧ ∀ k' < k, f (stepsFrom c e k') = none) ∧
      ((wheelFrom c n e).findSome? f = none → ∀ k < n, f (stepsFrom c e k) = none) := by
  induction n generalizing e with
  | zero => simp [wheelFrom]
  | succ n ih =>
    obtain ⟨h1, h2⟩ := ih (nextIndex c e)
    simp only [wheelFrom, List.findSome?_cons]
    constructor
    · intro a h
      split at h
      · rename_i b hb
        exact ⟨0, by omega, by rw [← h]; exact hb, fun k' hk => absurd hk (by omega)⟩
      · rename_i hn
        obtain ⟨k, hk, hf, hlt⟩ := h1 a h
        refine ⟨k + 1, by omega, by rw [← stepsFrom_next]; exact hf, fun k' hk' => ?_⟩
        cases k' with
        | zero => exact hn
        | succ k' => rw [← stepsFrom_next]; exact hlt k' (by omega)
    · intro h k hk
      split at h
      · simp at h
      · rename_i hn
        cases k with
        | zero => exact hn
        | succ k => rw [← stepsFrom_next]; exact h2 h k (by omega)

/-- The slot `NextPacket` selects is live and pending (R91). -/
theorem selectPacket_some {c : Config} {s : State} {j : Nat} (h : selectPacket c s = some j) :
    ∃ x, s.ob[j]? = some x ∧ x.live = true ∧ x.pending = true := by
  unfold selectPacket at h
  split at h
  · obtain ⟨⟨x, h1, h2, h3, _⟩, _⟩ := pendingSlot_some_iff.1 h
    exact ⟨x, h1, h2, h3⟩
  · obtain ⟨k, _, hf, _⟩ := (wheelFrom_findSome c (fun x => pendingSlot s (seqByte x)) _ _).1 j h
    obtain ⟨⟨x, h1, h2, h3, _⟩, _⟩ := pendingSlot_some_iff.1 hf
    exact ⟨x, h1, h2, h3⟩

end Sys2Proof.Machine
end

