-- ==== Sys2Proof/Laws/PerInstr.lean ====
section
/-! SUPPORT. The families of statements made once per constructor of Instr. `RoundTrip`: the bytes of
a well-formed instruction, read on its channel, decode to it (30_encoding.md R52 to R65). -/

namespace Sys2Proof.Laws

open Sys2Proof.Machine

/-- The bytes of a well-formed instruction decode to it. -/
def RoundTrip.Statement (i : Instr) : Prop :=
  i.wellFormed = true → decode (channelOf i) (encode i) = .ok i

/-- A frame's bytes decode to the row of its sequence byte, with its ack and its payload. -/
theorem decodeFrame_encodeFrame (fin : FrameEnd) (ack seq : Byte) {data : List Byte}
    (h : data.length ≤ 255) :
    decodeFrame hw (encodeFrame hw fin ack seq data) = .ok (frameInstr hw fin
      { ack := ack, seq := seq, len := BitVec.ofNat 8 data.length, data := data }) := by
  cases fin with
  | parsed =>
    simp only [decodeFrame, encodeFrame, run_serialize ack seq h, frameView_afterPayload ack seq h]
  | dataError =>
    have hne : (ck data).1 + 1 ≠ (ck data).1 := by
      intro he
      have := congrArg BitVec.toNat he
      rw [BitVec.toNat_add] at this
      have := (ck data).1.isLt
      simp at *
    have hv := frameView_afterPayload ack seq h (7 + data.length)
    simp only [decodeFrame, encodeFrame, run_bad_first_sum ack seq h hne]
    exact congrArg (fun v => Except.ok (frameInstr hw .dataError v)) hv

theorem payloadFits_iff (data : List Byte) : payloadFits data = true ↔ data.length ≤ 255 := by
  simp [payloadFits]

/-! ### Commands -/

theorem RoundTrip.reset : RoundTrip.Statement .reset := fun _ => rfl
theorem RoundTrip.tick : RoundTrip.Statement .tick := fun _ => rfl

theorem RoundTrip.transmit (data : List Byte) : RoundTrip.Statement (.transmit data) := by
  intro h
  have := (payloadFits_iff data).1 h
  have hl : data.length = (BitVec.ofNat 8 data.length).toNat := by
    rw [BitVec.toNat_ofNat]; omega
  show decodeTransmit (BitVec.ofNat 8 data.length :: data) = _
  rw [decodeTransmit, if_pos hl]

theorem RoundTrip.receive : RoundTrip.Statement .receive := fun _ => rfl
theorem RoundTrip.initialized : RoundTrip.Statement .initialized := fun _ => rfl
theorem RoundTrip.readStep : RoundTrip.Statement .readStep := fun _ => rfl
theorem RoundTrip.writeStep : RoundTrip.Statement .writeStep := fun _ => rfl
theorem RoundTrip.peekPacket (idx : Byte) : RoundTrip.Statement (.peekPacket idx) := fun _ => rfl
theorem RoundTrip.peekResendPacket : RoundTrip.Statement .peekResendPacket := fun _ => rfl

/-! ### Reserved opcodes -/

theorem RoundTrip.reserved05 : RoundTrip.Statement .reserved05 := fun _ => rfl

theorem RoundTrip.reserved06 (low : BitVec 1) : RoundTrip.Statement (.reserved06 low) := by
  intro _; revert low; decide

theorem RoundTrip.reserved08 (low : BitVec 3) : RoundTrip.Statement (.reserved08 low) := by
  intro _; revert low; decide

theorem RoundTrip.reserved14 (low : BitVec 2) : RoundTrip.Statement (.reserved14 low) := by
  intro _; revert low; decide

theorem RoundTrip.reserved18 (low : BitVec 3) : RoundTrip.Statement (.reserved18 low) := by
  intro _; revert low; decide

theorem RoundTrip.reserved20 (low : BitVec 5) : RoundTrip.Statement (.reserved20 low) := by
  intro _; revert low; decide

theorem RoundTrip.reserved40 (low : BitVec 6) : RoundTrip.Statement (.reserved40 low) := by
  intro _; revert low; decide

theorem RoundTrip.reserved80 (low : BitVec 7) : RoundTrip.Statement (.reserved80 low) := by
  intro _; revert low; decide

/-! ### The pseudo-instruction -/

theorem RoundTrip.ticks (n : Nat) : RoundTrip.Statement (.ticks n) := by
  intro _
  have h : (List.replicate n (0x01 : Byte)).all (· == 0x01) = true := by simp
  show decodeLine (List.replicate n 0x01) = _
  rw [decodeLine, if_pos h, List.length_replicate]

/-! ### Frames -/

theorem RoundTrip.frameAckonly (fin : FrameEnd) (ack : Byte) (data : List Byte) :
    RoundTrip.Statement (.frameAckonly fin ack data) := by
  intro h
  show decodeFrame hw (encodeFrame hw fin ack 0x00 data) = _
  rw [decodeFrame_encodeFrame fin ack 0x00 ((payloadFits_iff data).1 h)]
  simp only [frameInstr, seqClass_none]

theorem RoundTrip.frameData (fin : FrameEnd) (ack : Byte) (n : Seq) (data : List Byte) :
    RoundTrip.Statement (.frameData fin ack n data) := by
  intro h
  simp only [Instr.wellFormed, Bool.and_eq_true, bne_iff_ne] at h
  show decodeFrame hw (encodeFrame hw fin ack (seqByte n) data) = _
  rw [decodeFrame_encodeFrame fin ack (seqByte n) ((payloadFits_iff data).1 h.2)]
  simp only [frameInstr, seqClass_seqByte h.1]

theorem RoundTrip.frameHandshake (fin : FrameEnd) (ack : Byte) (data : List Byte) :
    RoundTrip.Statement (.frameHandshake fin ack data) := by
  intro h
  show decodeFrame hw (encodeFrame hw fin ack 0x80 data) = _
  rw [decodeFrame_encodeFrame fin ack 0x80 ((payloadFits_iff data).1 h)]
  simp only [frameInstr, seqClass_handshake]

theorem RoundTrip.frameResv (fin : FrameEnd) (ack : Byte) (low : Seq) (data : List Byte) :
    RoundTrip.Statement (.frameResv fin ack low data) := by
  intro h
  simp only [Instr.wellFormed, Bool.and_eq_true, bne_iff_ne] at h
  show decodeFrame hw (encodeFrame hw fin ack (0x80 ||| low.setWidth 8) data) = _
  rw [decodeFrame_encodeFrame fin ack _ ((payloadFits_iff data).1 h.2)]
  simp only [frameInstr, seqClass_resv h.1]

theorem RoundTrip.frameHeaderError : RoundTrip.Statement .frameHeaderError := fun _ => by decide

/-! ### Acks -/

theorem RoundTrip.ackEmpty : RoundTrip.Statement .ackEmpty := fun _ => rfl
theorem RoundTrip.ackStart : RoundTrip.Statement .ackStart := fun _ => rfl

theorem RoundTrip.ackPos (n : Seq) : RoundTrip.Statement (.ackPos n) := by
  intro h
  simp only [Instr.wellFormed, bne_iff_ne] at h
  show Except.ok (ackInstr hw (ackCompose false n)) = _
  simp only [ackInstr, ackClass_pos h]

theorem RoundTrip.ackNeg (n : Seq) : RoundTrip.Statement (.ackNeg n) := by
  intro h
  simp only [Instr.wellFormed, bne_iff_ne] at h
  show Except.ok (ackInstr hw (ackCompose true n)) = _
  simp only [ackInstr, ackClass_neg h]

end Sys2Proof.Laws
end

