-- ==== Sys2Proof/Laws/Decode.lean ====
section
/-! SUPPORT. What the command decoder can answer (30_encoding.md R59 to R61, R63) and what running
a command string does. -/

namespace Sys2Proof.Machine

/-- An opcode has a reserved row exactly if it is 0x05..0x0F or 0x14..0xFF (R61). -/
theorem reservedRow_isSome (op : Byte) :
    (reservedRow op).isSome = true ↔ (0x05 ≤ op.toNat ∧ op.toNat ≤ 0x0F) ∨ 0x14 ≤ op.toNat := by
  revert op; decide

/-- A reserved row is well formed and is encoded by its opcode alone. -/
theorem reservedRow_encode {op : Byte} {i : Instr} (h : reservedRow op = some i) :
    i.wellFormed = true ∧ channelOf i = .command ∧ encode i = [op] := by
  have key : ∀ op : Byte, (reservedRow op).all (fun i =>
      i.wellFormed && decide (channelOf i = .command) && decide (encode i = [op])) = true := by decide
  have := key op
  rw [h] at this
  simpa [and_assoc] using this

/-- A reserved row sets the mark and does nothing else (R61). -/
theorem exec_reservedRow {op : Byte} {i : Instr} (h : reservedRow op = some i) (s : State) :
    exec i s = .next (refuse s) := by
  simp only [reservedRow] at h
  repeat' split at h
  all_goals first
    | (simp only [Option.some.injEq] at h; subst h; rfl)
    | simp at h

theorem decodeBare_ok {i j : Instr} {operands : List Byte} (h : decodeBare j operands = .ok i) :
    i = j ∧ operands = [] := by
  simp only [decodeBare] at h
  split at h <;> simp_all

/-- A command string that decodes is the encoding of what it decodes to (R59, R60, R63). -/
theorem encode_decodeCommand {bytes : List Byte} {i : Instr} (h : decodeCommand bytes = .ok i) :
    i.wellFormed = true ∧ channelOf i = .command ∧ encode i = bytes := by
  cases bytes with
  | nil => simp [decodeCommand] at h
  | cons op operands =>
    simp only [decodeCommand] at h
    repeat' split at h
    all_goals first
      | (obtain ⟨rfl, rfl⟩ := decodeBare_ok h; rename_i hop; subst hop; exact ⟨rfl, rfl, rfl⟩)
      | skip
    · rename_i hop; subst hop
      cases operands with
      | nil => simp [decodeTransmit] at h
      | cons len data =>
        simp only [decodeTransmit] at h
        split at h
        · rename_i hl
          simp only [Except.ok.injEq] at h
          subst h
          have := len.isLt
          refine ⟨?_, rfl, ?_⟩
          · simp [Instr.wellFormed, payloadFits]; omega
          · simp [encode, hl]
        · simp at h
    · rename_i hop; subst hop
      cases operands with
      | nil => simp [decodePeek] at h
      | cons idx rest =>
        cases rest with
        | nil => simp only [decodePeek, Except.ok.injEq] at h; subst h; exact ⟨rfl, rfl, rfl⟩
        | cons => simp [decodePeek] at h
    · rename_i j hj
      obtain ⟨rfl, rfl⟩ := decodeBare_ok h
      exact reservedRow_encode hj
    · simp at h

/-- Running a command string: the meaning of the instruction it encodes, or the mark (R61). -/
theorem runCommand_cases (bytes : List Byte) (s : State) :
    (∃ i, i.wellFormed = true ∧ channelOf i = .command ∧ encode i = bytes ∧
        runCommand bytes s = exec i s) ∨
      runCommand bytes s = .next (refuse s) := by
  simp only [runCommand]
  split
  · rename_i i h
    obtain ⟨h1, h2, h3⟩ := encode_decodeCommand h
    exact .inl ⟨i, h1, h2, h3, rfl⟩
  · exact .inr rfl

/-- A step runs the host's next command after a boundary, or only has the boundary (R59, R110). -/
theorem step_cases (s : State) :
    (s.cmds = [] ∧ step s = .next (envTurn s)) ∨
      ∃ bytes rest, s.cmds = bytes :: rest ∧
        step s = runCommand bytes { envTurn s with cmds := rest } := by
  unfold step takeCommand
  rw [if_pos hw_valid, envTurn_cmds]
  cases h : s.cmds with
  | nil => exact .inl ⟨rfl, rfl⟩
  | cons bytes rest => exact .inr ⟨bytes, rest, rfl, rfl⟩

end Sys2Proof.Machine
end

