-- ==== Sys2Proof/Laws/Frames.lean ====
section
/-! SUPPORT. What each operation leaves unchanged: the Reader's side never touches the outbound
buffer, the Writer's registers or the transmitted stream, the Writer's side never touches the
inbound buffer or the receive queue, and no command touches the host's queue (00_scope.md R12,
10_state.md R17). -/

namespace Sys2Proof.Machine

/-! ### The Reader's side -/

/-- The state `t` differs from `s` only where the Reader and the environment write. -/
structure ReaderFrame (s t : State) : Prop where
  ob : t.ob = s.ob
  earliest : t.earliest = s.earliest
  wrStarted : t.wrStarted = s.wrStarted
  nextSend : t.nextSend = s.nextSend
  lastSend : t.lastSend = s.lastSend
  refused : t.refused = s.refused
  txs : t.txs = s.txs
  cmds : t.cmds = s.cmds
  results : t.results = s.results

theorem ReaderFrame.refl (s : State) : ReaderFrame s s := ⟨rfl, rfl, rfl, rfl, rfl, rfl, rfl, rfl, rfl⟩

theorem ReaderFrame.trans {s t u : State} (h : ReaderFrame s t) (h' : ReaderFrame t u) :
    ReaderFrame s u :=
  ⟨h'.ob.trans h.ob, h'.earliest.trans h.earliest, h'.wrStarted.trans h.wrStarted,
    h'.nextSend.trans h.nextSend, h'.lastSend.trans h.lastSend, h'.refused.trans h.refused,
    h'.txs.trans h.txs, h'.cmds.trans h.cmds, h'.results.trans h.results⟩

theorem setInSlot_readerFrame (i : Nat) (x : InSlot) (s : State) : ReaderFrame s (setInSlot i x s) := by
  constructor <;> rfl

theorem setCurSlot_readerFrame (x : InSlot) (s : State) : ReaderFrame s (setCurSlot x s) := by
  constructor <;> simp

theorem recordEvent_readerFrame (e : EventCode) (n : Byte) (s : State) :
    ReaderFrame s (recordEvent e n s) := by constructor <;> rfl

theorem envTurn_readerFrame (s : State) : ReaderFrame s (envTurn s) := by
  constructor <;> simp

theorem allocateInbound_readerFrame (c : Config) (s : State) :
    ReaderFrame s (allocateInbound c s).1 := by
  unfold allocateInbound
  dsimp only
  split <;> constructor <;> rfl

theorem rdFrame_readerFrame (c : Config) (fin : FrameEnd) (v : View) (s : State) :
    ReaderFrame s (rdFrame c fin v s) := by
  unfold rdFrame
  split
  · constructor <;> rfl
  · cases fin with
    | parsed => dsimp only [rdParsed]; split <;> [split; skip] <;> constructor <;> simp
    | dataError => dsimp only [rdDataError]; split <;> constructor <;> rfl

theorem rdDispatch_readerFrame (c : Config) (st : Status) (v : View) (s : State) :
    ReaderFrame s (rdDispatch c st v s) := by
  cases st
  · exact .refl s
  · exact rdFrame_readerFrame c .parsed v s
  · exact recordEvent_readerFrame _ _ s
  · exact rdFrame_readerFrame c .dataError v s

theorem consumeByte_readerFrame (c : Config) (i : Nat) (b : Byte) (s : State) :
    ReaderFrame s (consumeByte c i b s) := by
  have h : ReaderFrame s (parseChar c i b { s with cur := some i }).1 := by constructor <;> rfl
  exact h.trans (rdDispatch_readerFrame c _ _ _)

theorem readerStep_readerFrame (c : Config) (s : State) : ReaderFrame s (readerStep c s).1 := by
  unfold readerStep
  split
  · exact .refl s
  · split
    · exact .refl s
    · have h : ReaderFrame s (acquireSlot c s).1 := by
        unfold acquireSlot
        split
        · exact .refl s
        · exact allocateInbound_readerFrame c s
      split
      · rename_i s1 ha
        rw [ha] at h
        exact h.trans (recordEvent_readerFrame _ _ s1)
      · rename_i b rest _ _ _ s1 i ha
        rw [ha] at h
        have h' : ReaderFrame s1 { s1 with rxq := rest } := by constructor <;> rfl
        exact (h.trans h').trans (consumeByte_readerFrame c i b _)

theorem readLoop_readerFrame (c : Config) (n : Nat) (s : State) :
    ReaderFrame s (readLoop c n s) := by
  induction n generalizing s with
  | zero => exact .refl s
  | succ n ih =>
    have h := readerStep_readerFrame c s
    unfold readLoop
    split
    · rename_i s1 hs
      rw [hs] at h
      exact (h.trans (envTurn_readerFrame s1)).trans (ih _)
    · rename_i s1 hs
      rw [hs] at h
      exact h

/-! ### The Writer's side -/

/-- The state `t` differs from `s` only where the Writer writes. -/
structure WriterFrame (s t : State) : Prop where
  ib : t.ib = s.ib
  lastIndex : t.lastIndex = s.lastIndex
  rdStarted : t.rdStarted = s.rdStarted
  cur : t.cur = s.cur
  refused : t.refused = s.refused
  rxq : t.rxq = s.rxq
  time : t.time = s.time
  env : t.env = s.env
  cmds : t.cmds = s.cmds
  results : t.results = s.results

theorem WriterFrame.refl (s : State) : WriterFrame s s :=
  ⟨rfl, rfl, rfl, rfl, rfl, rfl, rfl, rfl, rfl, rfl⟩

theorem WriterFrame.trans {s t u : State} (h : WriterFrame s t) (h' : WriterFrame t u) :
    WriterFrame s u :=
  ⟨h'.ib.trans h.ib, h'.lastIndex.trans h.lastIndex, h'.rdStarted.trans h.rdStarted,
    h'.cur.trans h.cur, h'.refused.trans h.refused, h'.rxq.trans h.rxq, h'.time.trans h.time,
    h'.env.trans h.env, h'.cmds.trans h.cmds, h'.results.trans h.results⟩

theorem mapLive_writerFrame (p : OutSlot → Bool) (f : OutSlot → OutSlot) (s : State) :
    WriterFrame s (mapLive p f s) := by constructor <;> rfl

theorem wrConsume_writerFrame (c : Config) (k : AckClass) (s : State) :
    WriterFrame s (wrConsume c k s) := by
  cases k with
  | empty => exact .refl s
  | start => dsimp only [wrConsume]; split <;> constructor <;> rfl
  | pos n => constructor <;> rfl
  | neg n => constructor <;> rfl

theorem wrDrain_writerFrame (c : Config) (s : State) : WriterFrame s (wrDrain c s) :=
  wrConsume_writerFrame c _ s

theorem wrTimeout_writerFrame (c : Config) (t : Time) (s : State) :
    WriterFrame s (wrTimeout c t s) := by
  unfold wrTimeout
  repeat' split
  all_goals constructor <;> rfl

theorem piggyBack_writerFrame (j : Nat) (s : State) : WriterFrame s (piggyBack j s) := by
  unfold piggyBack
  split <;> constructor <;> rfl

theorem transmitSlot_writerFrame (c : Config) (j : Nat) (t : Time) (s : State) :
    WriterFrame s (transmitSlot c j t s) := by
  unfold transmitSlot
  constructor <;> simp only [setOutSlot_ib, setOutSlot_lastIndex, setOutSlot_rdStarted,
    setOutSlot_cur, setOutSlot_refused, setOutSlot_rxq, setOutSlot_time, setOutSlot_env,
    setOutSlot_cmds, setOutSlot_results, txWrite_ib, txWrite_lastIndex, txWrite_rdStarted,
    txWrite_cur, txWrite_refused, txWrite_rxq, txWrite_time, txWrite_env, txWrite_cmds,
    txWrite_results]

theorem wrSend_writerFrame (c : Config) (j : Nat) (t : Time) (s : State) :
    WriterFrame s (wrSend c j t s) :=
  (piggyBack_writerFrame j s).trans (transmitSlot_writerFrame c j t _)

theorem wrEmit_writerFrame (c : Config) (t : Time) (s : State) : WriterFrame s (wrEmit c t s) := by
  have h : WriterFrame s (updateNextIndex c s) := by constructor <;> rfl
  unfold wrEmit nextPacket
  split
  · rename_i s1 j hn
    simp only [Prod.mk.injEq] at hn
    obtain ⟨rfl, _⟩ := hn
    exact h.trans (wrSend_writerFrame c j t _)
  · rename_i s1 hn
    simp only [Prod.mk.injEq] at hn
    obtain ⟨rfl, _⟩ := hn
    split <;> constructor <;> rfl

theorem writerStep_writerFrame (c : Config) (s : State) : WriterFrame s (writerStep c s) :=
  ((wrDrain_writerFrame c s).trans (wrTimeout_writerFrame c _ _)).trans (wrEmit_writerFrame c _ _)

/-! ### The host's side -/

/-- The state `t` differs from `s` only inside CORE and its trace. -/
theorem tick_hostFrame (c : Config) (s : State) :
    (tick c s).results = s.results ∧ (tick c s).cmds = s.cmds ∧ (tick c s).refused = s.refused := by
  have h1 := (readLoop_readerFrame c (arrivals s + 1) s).trans (envTurn_readerFrame _)
  have h2 := writerStep_writerFrame c (envTurn (readLoop c (arrivals s + 1) s))
  exact ⟨h2.results.trans h1.results, h2.cmds.trans h1.cmds, h2.refused.trans h1.refused⟩

theorem moreTicks_hostFrame (c : Config) (n : Nat) (s : State) :
    (moreTicks c n s).results = s.results ∧ (moreTicks c n s).cmds = s.cmds ∧
      (moreTicks c n s).refused = s.refused := by
  induction n generalizing s with
  | zero => exact ⟨rfl, rfl, rfl⟩
  | succ n ih =>
    have h1 := tick_hostFrame c (envTurn s)
    have h2 := ih (tick c (envTurn s))
    simp only [moreTicks, h2, h1, envTurn_results, envTurn_cmds, envTurn_refused, and_self]

theorem ticks_hostFrame (c : Config) (n : Nat) (s : State) :
    (ticks c n s).results = s.results ∧ (ticks c n s).cmds = s.cmds ∧
      (ticks c n s).refused = s.refused := by
  cases n with
  | zero => exact ⟨rfl, rfl, rfl⟩
  | succ n =>
    have h1 := tick_hostFrame c s
    have h2 := moreTicks_hostFrame c n (tick c s)
    simp only [ticks, h2, h1, and_self]

end Sys2Proof.Machine
end

