-- ==== Sys2Proof/Laws/Steps.lean ====
section
/-! SUPPORT. What the Read step, the Write step and `TICK`'s loop can do, once each (44_reader.md
R98 to R102, 45_writer.md R103 to R108, 46_pair_and_host.md R114). -/

namespace Sys2Proof.Machine

/-! ### The Reader -/

/-- A handshake frame's effect does not depend on how the frame ended (R100). -/
theorem rdFrame_handshake (fin : FrameEnd) (v : View) (s : State) (h : v.seq = 0x80) :
    rdFrame hw fin v s = { s with
      outAck := v.ack, inAck := 0x80, ib := s.ib.map fun _ => InSlot.freed, lastIndex := 127,
      cur := none, rdStarted := true } := by
  unfold rdFrame
  rw [if_pos (by simpa using h)]
  rfl

/-- A parsed data frame in the window, in the slot the Reader holds (R101). -/
theorem rdFrame_inWindow {v : View} {s : State} {i : Nat} (hs : onWheel hw v.seq = true)
    (hr : inRange hw s.lastIndex v.seq = true) (hc : s.cur = some i) :
    rdFrame hw .parsed v s =
      { s with outAck := v.ack, ib := s.ib.set i (readySlot v), cur := none } := by
  have hne : v.seq ≠ hw.handshake := by
    intro h; rw [h] at hs; revert hs; decide
  unfold rdFrame
  rw [if_neg hne]
  simp [rdParsed, hs, hr, setCurSlot, hc, setInSlot]

/-- A parsed data frame outside the window, in the slot the Reader holds (R101). -/
theorem rdFrame_outOfWindow {v : View} {s : State} {i : Nat} (hs : onWheel hw v.seq = true)
    (hr : inRange hw s.lastIndex v.seq = false) (hc : s.cur = some i) :
    rdFrame hw .parsed v s = { s with
      outAck := v.ack, inAck := ackCompose true (ackIndex v.seq),
      events := s.events ++ [{ code := .sequenceGap, info := v.seq }],
      ib := s.ib.set i InSlot.freed, cur := none } := by
  have hne : v.seq ≠ hw.handshake := by
    intro h; rw [h] at hs; revert hs; decide
  unfold rdFrame
  rw [if_neg hne]
  simp [rdParsed, hs, hr, setCurSlot, hc, setInSlot, recordEvent]

/-- A parsed frame that is no data frame and no handshake, in the slot the Reader holds (R101). -/
theorem rdFrame_dropped {v : View} {s : State} {i : Nat} (hs : onWheel hw v.seq = false)
    (hh : v.seq ≠ 0x80) (hc : s.cur = some i) :
    rdFrame hw .parsed v s =
      { s with outAck := v.ack, ib := s.ib.set i InSlot.freed, cur := none } := by
  unfold rdFrame
  rw [if_neg (by simpa using hh)]
  simp [rdParsed, hs, setCurSlot, hc, setInSlot]

/-- A frame with a payload error (R102). -/
theorem rdFrame_dataError {v : View} (s : State) (hh : v.seq ≠ 0x80) :
    rdFrame hw .dataError v s = { s with
      outAck := v.ack
      inAck := if onWheel hw v.seq then ackCompose true (ackIndex v.seq) else s.inAck
      events := s.events ++ [{ code := .dataError, info := v.seq }] } := by
  unfold rdFrame
  rw [if_neg (by simpa using hh)]
  simp only [rdDataError]
  split <;> simp [recordEvent]

/-- What `Read` can do (R98): stall for want of a byte or because of a pending ack; stall for want
of a slot; or take one byte into the Reader's slot. -/
theorem readerStep_cases (c : Config) (s : State) :
    (readerStep c s = (s, false) ∧ (s.rxq = [] ∨ s.inAck ≠ 0x00 ∨ s.outAck ≠ 0x00)) ∨
      ∃ b rest, s.rxq = b :: rest ∧ s.inAck = 0x00 ∧ s.outAck = 0x00 ∧
        (((acquireSlot c s).2 = none ∧
            readerStep c s = (recordEvent .bufferFull 0 (acquireSlot c s).1, false)) ∨
          ∃ i, (acquireSlot c s).2 = some i ∧
            readerStep c s =
              (consumeByte c i b { (acquireSlot c s).1 with rxq := rest }, true)) := by
  unfold readerStep
  split
  · rename_i h; exact .inl ⟨rfl, .inl h⟩
  · rename_i b rest h
    split
    · rename_i ha
      refine .inl ⟨rfl, .inr ?_⟩
      simpa [ackPendingIncoming, ackPendingOutgoing, ackPending] using ha
    · rename_i ha
      simp only [ackPendingIncoming, ackPendingOutgoing, ackPending, Bool.or_eq_true, bne_iff_ne,
        not_or, not_not, ne_eq] at ha
      refine .inr ⟨b, rest, h, ha.1, ha.2, ?_⟩
      split
      · rename_i s1 hs; exact .inl ⟨by rw [hs], by rw [hs]⟩
      · rename_i s1 i hs; exact .inr ⟨i, by rw [hs], by rw [hs]⟩

/-- The slot `Read` feeds (R98): the one it holds, or a newly allocated one. -/
theorem acquireSlot_cases (c : Config) (s : State) :
    (∃ i, s.cur = some i ∧ acquireSlot c s = (s, some i)) ∨
      (s.cur = none ∧ acquireSlot c s = allocateInbound c s) := by
  unfold acquireSlot
  cases h : s.cur with
  | none => exact .inr ⟨rfl, rfl⟩
  | some i => exact .inl ⟨i, rfl, rfl⟩

/-- Every operation of the Reader leaves the receive queue, the time and the plan alone. -/
theorem rdDispatch_ports (c : Config) (st : Status) (v : View) (s : State) :
    (rdDispatch c st v s).rxq = s.rxq ∧ (rdDispatch c st v s).time = s.time ∧
      (rdDispatch c st v s).env = s.env := by
  have h : ∀ fin, (rdFrame c fin v s).rxq = s.rxq ∧ (rdFrame c fin v s).time = s.time ∧
      (rdFrame c fin v s).env = s.env := by
    intro fin
    unfold rdFrame
    split
    · exact ⟨rfl, rfl, rfl⟩
    · cases fin with
      | parsed => dsimp only [rdParsed]; split <;> [split; skip] <;> simp
      | dataError => dsimp only [rdDataError]; split <;> exact ⟨rfl, rfl, rfl⟩
  cases st
  · exact ⟨rfl, rfl, rfl⟩
  · exact h .parsed
  · exact ⟨rfl, rfl, rfl⟩
  · exact h .dataError

theorem acquireSlot_ports (c : Config) (s : State) :
    (acquireSlot c s).1.rxq = s.rxq ∧ (acquireSlot c s).1.time = s.time ∧
      (acquireSlot c s).1.env = s.env := by
  rcases acquireSlot_cases c s with ⟨i, _, h⟩ | ⟨_, h⟩
  · rw [h]; exact ⟨rfl, rfl, rfl⟩
  · rw [h]
    rcases allocateInbound_cases c s with ⟨h, _⟩ | ⟨i, x, _, _, _, h⟩ <;> rw [h] <;> simp

/-- A `Read` that takes a byte takes the oldest one and leaves the rest of the ports alone. -/
theorem readerStep_true {c : Config} {s t : State} (h : readerStep c s = (t, true)) :
    (∃ b, s.rxq = b :: t.rxq) ∧ t.time = s.time ∧ t.env = s.env := by
  rcases readerStep_cases c s with ⟨hs, _⟩ | ⟨b, rest, hr, _, _, ⟨_, hs⟩ | ⟨i, _, hs⟩⟩
  · rw [hs] at h; simp at h
  · rw [hs] at h; simp at h
  · rw [hs] at h
    simp only [Prod.mk.injEq, and_true] at h
    obtain ⟨h1, h2, h3⟩ := rdDispatch_ports c
      (parseChar c i b { { (acquireSlot c s).1 with rxq := rest } with cur := some i }).2.1
      (parseChar c i b { { (acquireSlot c s).1 with rxq := rest } with cur := some i }).2.2
      (parseChar c i b { { (acquireSlot c s).1 with rxq := rest } with cur := some i }).1
    obtain ⟨_, h5, h6⟩ := acquireSlot_ports c s
    subst h
    exact ⟨⟨b, by rw [hr]; exact congrArg _ h1.symm⟩, h2.trans h5, h3.trans h6⟩

/-! ### TICK's loop -/

/-- A boundary moves bytes from the plan to the queue: the number that can still be read stays. -/
theorem arrivals_envTurn (s : State) : arrivals (envTurn s) = arrivals s := by
  unfold arrivals
  cases h : s.env with
  | nil => rw [envTurn_of_nil h, h]
  | cons a rest => rw [envTurn_of_cons h]; simp; omega

theorem arrivals_readerStep {c : Config} {s t : State} (h : readerStep c s = (t, true)) :
    arrivals s = arrivals t + 1 := by
  obtain ⟨⟨b, h1⟩, _, h2⟩ := readerStep_true h
  simp [arrivals, h1, h2]
  omega

/-- With more rounds than bytes to come, the loop ends where a `Read` stalls (R114). -/
theorem readLoop_drains (n : Nat) (s : State) (h : arrivals s < n) : Drains s (readLoop hw n s) := by
  induction n generalizing s with
  | zero => omega
  | succ n ih =>
    unfold readLoop
    split
    · rename_i s1 hs
      have := arrivals_readerStep hs
      exact .more hs (ih _ (by rw [arrivals_envTurn]; omega))
    · rename_i s1 hs
      exact .stall hs

/-! ### The Writer -/

/-- The timeout (R105). -/
theorem wrTimeout_cases (c : Config) (t : Time) (s : State) :
    (timedOut c t s = false ∧ wrTimeout c t s = s) ∨
      (timedOut c t s = true ∧ wrTimeout c t s = { s with
        ob := s.ob.map fun x => if x.live then { x with pending := true } else x
        events := if s.ob.any (·.live) then s.events ++ [{ code := .timeout, info := 0 }]
          else s.events }) := by
  unfold wrTimeout
  split
  · rename_i h
    refine .inr ⟨h, ?_⟩
    split <;> simp [markAllResend, mapLive, markPending, recordEvent]
  · rename_i h; exact .inl ⟨by simpa using h, rfl⟩

/-- The transmission of the frame in slot `j` (R106). -/
theorem wrSend_eq {c : Config} {s : State} {j : Nat} {x : OutSlot} (t : Time)
    (h : s.ob[j]? = some x) :
    wrSend c j t s = { s with
      ob := s.ob.set j { x with ack := if x.ack = 0x00 then s.inAck else x.ack, pending := false }
      inAck := if x.ack = 0x00 then 0x00 else s.inAck
      lastSend := t
      txs := s.txs ++ serialize c (if x.ack = 0x00 then s.inAck else x.ack) x.idx
        (bufRead x.data x.len.toNat) } := by
  have hj : j < s.ob.length := (List.getElem?_eq_some_iff.1 h).1
  unfold wrSend transmitSlot piggyBack
  rw [outSlot_of_getElem h]
  by_cases h1 : x.ack = 0x00
  · by_cases h2 : s.inAck = 0x00
    · have hc : ¬(x.ack = 0x00 ∧ s.inAck ≠ 0x00) := fun hc => hc.2 h2
      rw [if_neg hc, outSlot_of_getElem h]
      cases x
      cases s
      simp_all [setOutSlot, txWrite, slotBytes]
    · rw [if_pos ⟨h1, h2⟩]
      have ho : outSlot { setOutSlot j { x with ack := s.inAck } s with inAck := 0x00 } j =
          { x with ack := s.inAck } := by
        simp [outSlot, setOutSlot, hj]
      rw [ho]
      simp [setOutSlot, txWrite, slotBytes, h1]
  · have hc : ¬(x.ack = 0x00 ∧ s.inAck ≠ 0x00) := fun hc => h1 hc.1
    rw [if_neg hc, outSlot_of_getElem h]
    simp only [if_neg h1, setOutSlot, txWrite, slotBytes]

/-- What the last steps of `Write` can do (R103): send the selected frame, send the pending ack
alone, or nothing. -/
theorem wrEmit_cases (c : Config) (t : Time) (s : State) :
    (∃ j, (nextPacket c s).2 = some j ∧ wrEmit c t s = wrSend c j t (updateNextIndex c s)) ∨
      ((nextPacket c s).2 = none ∧ s.inAck ≠ 0x00 ∧
        wrEmit c t s = wrAckOnly c t (updateNextIndex c s)) ∨
      ((nextPacket c s).2 = none ∧ s.inAck = 0x00 ∧ wrEmit c t s = updateNextIndex c s) := by
  unfold wrEmit
  split
  · rename_i s1 j h
    have h1 : (nextPacket c s).1 = s1 := by rw [h]
    have h2 : (nextPacket c s).2 = some j := by rw [h]
    subst h1
    exact .inl ⟨j, h2, rfl⟩
  · rename_i s1 h
    have h1 : (nextPacket c s).1 = s1 := by rw [h]
    have h2 : (nextPacket c s).2 = none := by rw [h]
    subst h1
    split
    · rename_i ha
      exact .inr (.inl ⟨h2, (ackPending_iff _).1 ha, rfl⟩)
    · rename_i ha
      refine .inr (.inr ⟨h2, ?_, rfl⟩)
      by_contra hc
      exact ha ((ackPending_iff _).2 hc)

/-- What `AddToOutgoingQueue` can do (R108). -/
theorem addToOutgoingQueue_cases (data : List Byte) (s : State) :
    (s.wrStarted = false ∧ addToOutgoingQueue hw data s = (s, false)) ∨
      (s.wrStarted = true ∧ (∀ x ∈ s.ob, x.live = true) ∧
        addToOutgoingQueue hw data s = (recordEvent .bufferFull 1 s, false)) ∨
      (s.wrStarted = true ∧ ∃ j x, s.ob[j]? = some x ∧ x.live = false ∧
        (∀ k y, k < j → s.ob[k]? = some y → y.live = true) ∧
        addToOutgoingQueue hw data s =
          ({ s with
              ob := s.ob.set j
                { live := true, pending := true, idx := seqByte s.nextSend, ack := 0x00,
                  len := BitVec.ofNat 8 data.length, data := data }
              nextSend := nextIndex hw s.nextSend }, true)) := by
  unfold addToOutgoingQueue writerPreHandshake
  cases hw' : s.wrStarted with
  | false => exact .inl ⟨rfl, rfl⟩
  | true =>
    right
    rcases allocateOutbound_cases s with ⟨h, hl⟩ | ⟨j, x, hx, hl, hlt, h⟩
    · exact .inl ⟨rfl, hl, by rw [h]; rfl⟩
    · refine .inr ⟨rfl, j, x, hx, hl, hlt, ?_⟩
      have hj : j < s.ob.length := (List.getElem?_eq_some_iff.1 hx).1
      rw [h]
      simp [outSlot, setOutSlot, queuedSlot, hj, hw']

end Sys2Proof.Machine
end

