-- ==== Sys2Proof/Laws/Invariant.lean ====
section
/-! SUPPORT. What the Reader's and the Writer's operations keep of the invariants of 10_state.md R37:
the half of the inbound buffer and the half of the outbound buffer, each operation once. -/

namespace Sys2Proof.Machine

/-! ### The two halves -/

/-- The half of `State.Inv` that the Reader's side can change. -/
structure InvIn (s : State) : Prop where
  ibCount : s.ib.length = hw.ibCap
  lastIndexOnWheel : s.lastIndex ≠ 0
  curExists : ∀ i, s.cur = some i → i < s.ib.length
  fillingIsCur : ∀ i, i < s.ib.length → ((inSlot s i).st = .filling ↔ s.cur = some i)
  inSlotsOk : ∀ x ∈ s.ib, x.Ok

/-- The half of `State.Inv` that the Writer's side can change. -/
structure InvOut (s : State) : Prop where
  obCount : s.ob.length = hw.obCap
  nextSendOnWheel : s.nextSend ≠ 0
  outSlotsOk : ∀ x ∈ s.ob, x.Ok s.wrStarted
  earliestBefore : s.earliest = hw.handshake ↔ s.wrStarted = false
  earliestAfter : s.wrStarted = true → onWheel hw s.earliest = true

theorem inv_iff (s : State) : s.Inv ↔ InvIn s ∧ InvOut s :=
  ⟨fun h => ⟨⟨h.ibCount, h.lastIndexOnWheel, h.curExists, h.fillingIsCur, h.inSlotsOk⟩,
      ⟨h.obCount, h.nextSendOnWheel, h.outSlotsOk, h.earliestBefore, h.earliestAfter⟩⟩,
    fun ⟨h, k⟩ => ⟨h.ibCount, k.obCount, h.lastIndexOnWheel, k.nextSendOnWheel, h.curExists,
      h.fillingIsCur, h.inSlotsOk, k.outSlotsOk, k.earliestBefore, k.earliestAfter⟩⟩

/-- The inbound half reads three registers only. -/
theorem InvIn.congr {s t : State} (h : InvIn s) (h1 : t.ib = s.ib) (h2 : t.lastIndex = s.lastIndex)
    (h3 : t.cur = s.cur) : InvIn t := by
  constructor
  · rw [h1]; exact h.ibCount
  · rw [h2]; exact h.lastIndexOnWheel
  · rw [h1, h3]; exact h.curExists
  · simp only [inSlot]; rw [h1, h3]; exact h.fillingIsCur
  · rw [h1]; exact h.inSlotsOk

/-- The outbound half reads four registers only. -/
theorem InvOut.congr {s t : State} (h : InvOut s) (h1 : t.ob = s.ob) (h2 : t.nextSend = s.nextSend)
    (h3 : t.wrStarted = s.wrStarted) (h4 : t.earliest = s.earliest) : InvOut t := by
  constructor
  · rw [h1]; exact h.obCount
  · rw [h2]; exact h.nextSendOnWheel
  · rw [h1, h3]; exact h.outSlotsOk
  · rw [h3, h4]; exact h.earliestBefore
  · rw [h3, h4]; exact h.earliestAfter

theorem InvIn.writer {s t : State} (h : InvIn s) (f : WriterFrame s t) : InvIn t :=
  h.congr f.ib f.lastIndex f.cur

theorem InvOut.reader {s t : State} (h : InvOut s) (f : ReaderFrame s t) : InvOut t :=
  h.congr f.ob f.nextSend f.wrStarted f.earliest

/-! ### Slots -/

theorem freed_inSlot_ok : InSlot.freed.Ok := rfl

theorem freed_outSlot_ok (w : Bool) : OutSlot.freed.Ok w := rfl

/-- The slot that `AllocatePacket` hands to the Reader (R84). -/
theorem fresh_inSlot_ok {x : InSlot} (h : x.Ok) (hf : x.st = .free) :
    ({ x with st := .filling, ps := ParserState.empty, hist := [] } : InSlot).Ok := by
  have : x = InSlot.freed := by simpa [InSlot.Ok, hf] using h
  subst this
  exact ⟨rfl, by decide, rfl, rfl, rfl, rfl⟩

/-- The slot that holds a parsed data frame (R101). -/
theorem readySlot_ok {v : View} (hs : onWheel hw v.seq = true) (hl : v.data.length = v.len.toNat) :
    (readySlot v).Ok := ⟨rfl, rfl, hs, hl⟩

/-- A filling slot whose history and parser state a parse has replaced. -/
theorem filling_inSlot_ok {x : InSlot} {h : List Byte} {ps : ParserState} (hx : x.Ok)
    (hf : x.st = .filling) (hr : run hw h = (.incomplete, ps)) :
    ({ x with hist := h, ps := ps } : InSlot).Ok := by
  cases x
  simp only at hf
  subst hf
  exact ⟨hr, run_incomplete_length hr, hx.2.2⟩

theorem markPending_ok {w : Bool} {x : OutSlot} (h : x.Ok w) (hl : x.live = true) :
    (markPending x).Ok w := by
  simpa [OutSlot.Ok, markPending, hl] using h

/-! ### The inbound half -/

theorem getElem_inSlot {s : State} {i : Nat} (h : i < s.ib.length) : s.ib[i]? = some (inSlot s i) := by
  simp [inSlot, h]

/-- Replacing one slot of the inbound buffer keeps the other slots' part of the invariants. -/
theorem InvIn.set {s t : State} {i : Nat} {x : InSlot} (h : InvIn s) (hi : i < s.ib.length)
    (hib : t.ib = s.ib.set i x) (hx : x.Ok) (hli : t.lastIndex ≠ 0)
    (hcur : (x.st = .filling ∧ t.cur = some i) ∨ (x.st ≠ .filling ∧ t.cur = none))
    (hone : s.cur = some i ∨ s.cur = none) : InvIn t := by
  have hget : ∀ k, k < s.ib.length → inSlot t k = if k = i then x else inSlot s k := by
    intro k hk
    simp only [inSlot, hib, List.getD_eq_getElem?_getD]
    split
    · rename_i he; subst he; simp [hk]
    · rename_i he; simp [List.getElem?_set_ne (Ne.symm he)]
  constructor
  · rw [hib, List.length_set]; exact h.ibCount
  · exact hli
  · intro k hk
    rw [hib, List.length_set]
    rcases hcur with ⟨_, hc⟩ | ⟨_, hc⟩ <;> rw [hc] at hk <;> simp at hk
    omega
  · intro k hk
    rw [hib, List.length_set] at hk
    rw [hget k hk]
    split
    · rename_i he
      subst he
      rcases hcur with ⟨h1, h2⟩ | ⟨h1, h2⟩ <;> simp [h1, h2]
    · rename_i he
      have := h.fillingIsCur k hk
      rw [this]
      rcases hone with ho | ho <;> rcases hcur with ⟨_, h2⟩ | ⟨_, h2⟩ <;> rw [ho, h2] <;> simp <;>
        omega
  · intro y hy
    rw [hib] at hy
    rcases List.mem_or_eq_of_mem_set hy with hy | rfl
    · exact h.inSlotsOk y hy
    · exact hx

theorem cleanup_invIn {s : State} (h : InvIn s) : InvIn (cleanup hw s) := by
  have hget : ∀ k, k < s.ib.length → inSlot (cleanup hw s) k = inSlot s k ∨
      ((inSlot s k).st = .ready ∧ inSlot (cleanup hw s) k = InSlot.freed) := by
    intro k hk
    rcases cleanup_getElem hw s k _ (getElem_inSlot hk) with h1 | ⟨h1, h2⟩
    · exact .inl (inSlot_of_getElem h1)
    · exact .inr ⟨h1, inSlot_of_getElem h2⟩
  constructor
  · rw [cleanup_ib_length]; exact h.ibCount
  · exact h.lastIndexOnWheel
  · rw [cleanup_ib_length]; exact h.curExists
  · intro k hk
    rw [cleanup_ib_length] at hk
    rw [cleanup_cur, ← h.fillingIsCur k hk]
    rcases hget k hk with h1 | ⟨h1, h2⟩
    · rw [h1]
    · rw [h1, h2]; decide
  · intro x hx
    obtain ⟨k, hk⟩ := List.mem_iff_getElem?.1 hx
    have hk' : k < s.ib.length := by
      have := (List.getElem?_eq_some_iff.1 hk).1
      rwa [cleanup_ib_length] at this
    rw [← inSlot_of_getElem hk]
    rcases hget k hk' with h1 | ⟨_, h2⟩
    · rw [h1]; exact h.inSlotsOk _ (List.mem_of_getElem? (getElem_inSlot hk'))
    · rw [h2]; exact freed_inSlot_ok

/-- Clearing the inbound buffer (R86). -/
theorem clearInbound_invIn {s t : State} (h : InvIn s) (h1 : t.ib = s.ib.map fun _ => InSlot.freed)
    (h2 : t.lastIndex = 127) (h3 : t.cur = none) : InvIn t := by
  constructor
  · rw [h1, List.length_map]; exact h.ibCount
  · rw [h2]; decide
  · rw [h3]; simp
  · intro k hk
    rw [h1, List.length_map] at hk
    simp [inSlot, h1, h3, hk, InSlot.freed]
  · intro x hx
    rw [h1] at hx
    simp only [List.mem_map] at hx
    obtain ⟨_, _, rfl⟩ := hx
    exact freed_inSlot_ok

/-- The Reader's slot, held or new, with the Reader on it (R98, R84). -/
theorem acquireSlot_invIn {s s1 : State} {i : Nat} (h : InvIn s)
    (ha : acquireSlot hw s = (s1, some i)) (rest : List Byte) :
    InvIn { { s1 with rxq := rest } with cur := some i } ∧ i < s1.ib.length ∧
      (inSlot s1 i).st = .filling := by
  rcases acquireSlot_cases hw s with ⟨j, hj, he⟩ | ⟨hj, he⟩
  · rw [he] at ha
    simp only [Prod.mk.injEq, Option.some.injEq] at ha
    obtain ⟨rfl, rfl⟩ := ha
    have hlt := h.curExists _ hj
    exact ⟨h.congr rfl rfl hj.symm, hlt, (h.fillingIsCur _ hlt).2 hj⟩
  · rw [he] at ha
    rcases allocateInbound_cases hw s with ⟨hb, _⟩ | ⟨k, x, hx, hf, _, hb⟩
    · rw [hb] at ha; simp at ha
    · rw [hb] at ha
      simp only [Prod.mk.injEq, Option.some.injEq] at ha
      obtain ⟨rfl, rfl⟩ := ha
      have hc := cleanup_invIn h
      have hk : k < (cleanup hw s).ib.length := (List.getElem?_eq_some_iff.1 hx).1
      refine ⟨hc.set hk rfl (fresh_inSlot_ok (hc.inSlotsOk x (List.mem_of_getElem? hx)) hf)
        hc.lastIndexOnWheel (.inl ⟨rfl, rfl⟩) (.inr hj), ?_, ?_⟩
      · simpa using hk
      · rw [inSlot_setInSlot_self hk]

/-- What the Reader does with the frame that one byte may finish (R98). -/
theorem consumeByte_invIn {s : State} {i : Nat} {b : Byte} (h : InvIn { s with cur := some i })
    (hi : i < s.ib.length) (hf : (inSlot s i).st = .filling) : InvIn (consumeByte hw i b s) := by
  have hx : (inSlot s i).Ok := h.inSlotsOk _ (List.mem_of_getElem? (getElem_inSlot hi))
  have hview := parseHistory_view_length hw ((inSlot s i).hist ++ [b])
  have hcases := parseHistory_cases hw ((inSlot s i).hist ++ [b])
  -- the slot and the state after the parse
  show InvIn (rdDispatch hw (parseHistory hw ((inSlot s i).hist ++ [b])).status
    (parseHistory hw ((inSlot s i).hist ++ [b])).view
    (setInSlot i { inSlot s i with
        hist := (parseHistory hw ((inSlot s i).hist ++ [b])).hist
        ps := (parseHistory hw ((inSlot s i).hist ++ [b])).ps } { s with cur := some i }))
  generalize parseHistory hw ((inSlot s i).hist ++ [b]) = r at hview hcases ⊢
  have hstay : run hw r.hist = (.incomplete, r.ps) →
      InvIn (setInSlot i { inSlot s i with hist := r.hist, ps := r.ps } { s with cur := some i }) :=
    fun hr => h.set hi rfl (filling_inSlot_ok hx hf hr) h.lastIndexOnWheel (.inl ⟨hf, rfl⟩) (.inl rfl)
  rcases hcases with ⟨hs, hr⟩ | ⟨hs, hr, hv⟩ | ⟨hs, hh, hp⟩
  · rw [hs]; exact hstay hr
  · rw [hs]
    show InvIn (rdFrame hw .parsed r.view (setInSlot i { inSlot s i with hist := r.hist, ps := r.ps }
      { s with cur := some i }))
    have h1 : ∀ y : InSlot, (setInSlot i { inSlot s i with hist := r.hist, ps := r.ps }
        { s with cur := some i }).ib.set i y = s.ib.set i y := fun y => by simp
    have h2 : (setInSlot i { inSlot s i with hist := r.hist, ps := r.ps }
        { s with cur := some i }).lastIndex = s.lastIndex := rfl
    have h3 : (setInSlot i { inSlot s i with hist := r.hist, ps := r.ps }
        { s with cur := some i }).cur = some i := rfl
    have h4 : (setInSlot i { inSlot s i with hist := r.hist, ps := r.ps }
        { s with cur := some i }).ib.map (fun _ => InSlot.freed) =
        s.ib.map fun _ => InSlot.freed := by
      simp only [setInSlot_ib, List.map_set]
      exact List.ext_getElem (by simp) fun k _ _ => by simp
    generalize setInSlot i { inSlot s i with hist := r.hist, ps := r.ps }
      { s with cur := some i } = u at h1 h2 h3 h4
    by_cases h80 : r.view.seq = 0x80
    · rw [rdFrame_handshake .parsed r.view _ h80]
      exact clearInbound_invIn h h4 rfl rfl
    · by_cases hon : onWheel hw r.view.seq = true
      · by_cases hir : inRange hw u.lastIndex r.view.seq = true
        · rw [rdFrame_inWindow hon hir h3]
          exact h.set hi (h1 _) (readySlot_ok hon hview) (h2 ▸ h.lastIndexOnWheel)
            (.inr ⟨fun hc => SlotState.noConfusion hc, rfl⟩) (.inl rfl)
        · rw [rdFrame_outOfWindow hon (by simpa using hir) h3]
          exact h.set hi (h1 _) freed_inSlot_ok (h2 ▸ h.lastIndexOnWheel) (.inr ⟨by decide, rfl⟩)
            (.inl rfl)
      · rw [rdFrame_dropped (by simpa using hon) h80 h3]
        exact h.set hi (h1 _) freed_inSlot_ok (h2 ▸ h.lastIndexOnWheel) (.inr ⟨by decide, rfl⟩)
          (.inl rfl)
  · have hempty := hstay (by rw [hh, hp]; rfl)
    rcases hs with hs | hs <;> rw [hs]
    · exact hempty.congr rfl rfl rfl
    · show InvIn (rdFrame hw .dataError r.view _)
      by_cases h80 : r.view.seq = 0x80
      · rw [rdFrame_handshake .dataError r.view _ h80]
        exact clearInbound_invIn hempty rfl rfl rfl
      · rw [rdFrame_dataError _ h80]
        exact hempty.congr rfl rfl rfl

theorem readerStep_invIn {s : State} (h : InvIn s) : InvIn (readerStep hw s).1 := by
  rcases readerStep_cases hw s with ⟨hs, _⟩ | ⟨b, rest, _, _, _, ⟨hn, hs⟩ | ⟨i, hi, hs⟩⟩
  · rw [hs]; exact h
  · rw [hs]
    rcases acquireSlot_cases hw s with ⟨j, _, he⟩ | ⟨_, he⟩
    · rw [he] at hn; simp at hn
    · rcases allocateInbound_cases hw s with ⟨hb, _⟩ | ⟨k, x, _, _, _, hb⟩
      · rw [he, hb]; exact (cleanup_invIn h).congr rfl rfl rfl
      · rw [he, hb] at hn; simp at hn
  · rw [hs]
    have he : acquireSlot hw s = ((acquireSlot hw s).1, some i) := by rw [← hi]
    obtain ⟨h1, h2, h3⟩ := acquireSlot_invIn h he rest
    exact consumeByte_invIn h1 h2 h3

theorem readLoop_invIn (n : Nat) {s : State} (h : InvIn s) : InvIn (readLoop hw n s) := by
  induction n generalizing s with
  | zero => exact h
  | succ n ih =>
    have h1 := readerStep_invIn h
    unfold readLoop
    split
    · rename_i s1 hs
      rw [hs] at h1
      exact ih (h1.congr (envTurn_ib s1) (envTurn_lastIndex s1) (envTurn_cur s1))
    · rename_i s1 hs
      rw [hs] at h1
      exact h1

theorem popPacket_invIn {s : State} (h : InvIn s) : InvIn (popPacket hw s).1 := by
  rcases popPacket_cases hw s with ⟨hp, _⟩ | ⟨_, i, x, hx, hr, _, _, hp⟩
  · rw [hp]; exact h
  · rw [hp]
    have hi : i < s.ib.length := (List.getElem?_eq_some_iff.1 hx).1
    have hne : s.cur ≠ some i := by
      intro hc
      have := (h.fillingIsCur i hi).2 hc
      rw [inSlot_of_getElem hx, hr] at this
      exact absurd this (by decide)
    have hget : ∀ k, k < s.ib.length →
        inSlot (setInSlot i InSlot.freed s) k = if k = i then InSlot.freed else inSlot s k := by
      intro k hk
      split
      · rename_i he; subst he; exact inSlot_setInSlot_self hk _
      · rename_i he; exact inSlot_setInSlot_ne (Ne.symm he) _
    refine InvIn.congr (s := { setInSlot i InSlot.freed s with lastIndex := nextIndex hw s.lastIndex })
      ?_ rfl rfl rfl
    constructor
    · simpa using h.ibCount
    · exact nextIndex_ne_zero _
    · simpa using h.curExists
    · intro k hk
      have hk' : k < s.ib.length := by simpa using hk
      have := h.fillingIsCur k hk'
      show (inSlot (setInSlot i InSlot.freed s) k).st = .filling ↔ s.cur = some k
      rw [hget k hk']
      split
      · rename_i he; subst he; simp [InSlot.freed, hne]
      · exact this
    · intro y hy
      rcases List.mem_or_eq_of_mem_set hy with hy | rfl
      · exact h.inSlotsOk y hy
      · exact freed_inSlot_ok

/-! ### The outbound half -/

theorem mapLive_invOut {s : State} (h : InvOut s) (p : OutSlot → Bool) (f : OutSlot → OutSlot)
    (hf : ∀ x : OutSlot, x.live = true → x.Ok s.wrStarted → (f x).Ok s.wrStarted) :
    InvOut (mapLive p f s) := by
  constructor
  · simpa using h.obCount
  · exact h.nextSendOnWheel
  · intro y hy
    simp only [mapLive_ob, List.mem_map] at hy
    obtain ⟨x, hx, rfl⟩ := hy
    split
    · rename_i hl
      simp only [Bool.and_eq_true] at hl
      exact hf x hl.1 (h.outSlotsOk x hx)
    · exact h.outSlotsOk x hx
  · exact h.earliestBefore
  · exact h.earliestAfter

theorem wrConsume_invOut {s : State} (h : InvOut s) (k : AckClass) : InvOut (wrConsume hw k s) := by
  have h0 : InvOut { s with outAck := 0x00 } := h.congr rfl rfl rfl rfl
  cases k with
  | empty => exact h
  | pos n =>
    exact mapLive_invOut (mapLive_invOut h0 _ _ fun _ _ _ => freed_outSlot_ok _) _ _
      fun _ hl hx => markPending_ok hx hl
  | neg n => exact mapLive_invOut h0 _ _ fun _ hl hx => markPending_ok hx hl
  | start =>
    simp only [wrConsume]
    split
    · exact h0
    · rename_i hw'
      have hfalse : s.wrStarted = false := by simpa using hw'
      constructor
      · simpa [wrActivate] using h.obCount
      · show (1 : Seq) ≠ 0; decide
      · intro y hy
        simp only [wrActivate, mapLive_ob, List.mem_map] at hy
        obtain ⟨x, hx, rfl⟩ := hy
        have hok := h.outSlotsOk x hx
        rw [hfalse] at hok
        cases hl : x.live with
        | false =>
          have : x = OutSlot.freed := by simpa [OutSlot.Ok, hl] using hok
          subst this
          exact freed_outSlot_ok _
        | true =>
          have hidx : x.idx = hw.handshake := by
            have : x.data.length = x.len.toNat ∧ x.idx = hw.handshake ∧ x.len = 0 := by
              simpa only [OutSlot.Ok, hl] using hok
            exact this.2.1
          simp only [hidx, Bool.true_and, beq_self_eq_true, if_true]
          exact freed_outSlot_ok _
      · simp only [wrActivate, firstSeq_hw, Bool.true_eq_false, iff_false]
        exact seqByte_ne_handshake 1
      · intro _; show onWheel hw 1 = true; decide

theorem wrTimeout_invOut {s : State} (h : InvOut s) (t : Time) : InvOut (wrTimeout hw t s) := by
  have hr : InvOut (if s.ob.any (·.live) then recordEvent .timeout 0 s else s) := by
    split
    · exact h.congr rfl rfl rfl rfl
    · exact h
  unfold wrTimeout
  split
  · exact mapLive_invOut hr _ _ fun _ hl hx => markPending_ok hx hl
  · exact h

theorem updateNextIndex_invOut {s : State} (h : InvOut s) : InvOut (updateNextIndex hw s) := by
  have hon : s.wrStarted = true → onWheel hw (earliestIndex hw s) = true := by
    intro hs
    simp only [earliestIndex, writerPreHandshake, hs, Bool.not_true, Bool.false_eq_true, if_false]
    split
    · rw [onWheel_seqByte]; simpa using h.nextSendOnWheel
    · rename_i x hx
      obtain ⟨j, hj, hl, _⟩ := oldestLive_some hx
      have hok := h.outSlotsOk x (List.mem_of_getElem? hj)
      have : x.data.length = x.len.toNat ∧ onWheel hw x.idx = true := by
        simpa only [OutSlot.Ok, hl, hs] using hok
      exact this.2
  constructor
  · exact h.obCount
  · exact h.nextSendOnWheel
  · exact h.outSlotsOk
  · constructor
    · intro he
      by_contra hc
      have := hon (by simpa using hc)
      rw [updateNextIndex_earliest] at he
      rw [he] at this
      exact absurd this (by decide)
    · intro hs
      have : s.wrStarted = false := hs
      simp [earliestIndex, writerPreHandshake, this]
  · exact hon

/-- Replacing one live slot's ack and pending mark. -/
theorem wrSend_invOut {s : State} (h : InvOut s) {j : Nat} {x : OutSlot} (hx : s.ob[j]? = some x)
    (hl : x.live = true) (t : Time) : InvOut (wrSend hw j t s) := by
  rw [wrSend_eq t hx]
  constructor
  · simpa using h.obCount
  · exact h.nextSendOnWheel
  · intro y hy
    rcases List.mem_or_eq_of_mem_set hy with hy | rfl
    · exact h.outSlotsOk y hy
    · have := h.outSlotsOk x (List.mem_of_getElem? hx)
      simpa [OutSlot.Ok, hl] using this
  · exact h.earliestBefore
  · exact h.earliestAfter

theorem writerStep_invOut {s : State} (h : InvOut s) : InvOut (writerStep hw s) := by
  have h1 : InvOut (wrTimeout hw (now s) (wrDrain hw s)) :=
    wrTimeout_invOut (wrConsume_invOut h _) _
  unfold writerStep
  generalize wrTimeout hw (now s) (wrDrain hw s) = u at h1
  have h2 := updateNextIndex_invOut h1
  rcases wrEmit_cases hw (now s) u with ⟨j, hj, he⟩ | ⟨_, _, he⟩ | ⟨_, _, he⟩
  · rw [he]
    obtain ⟨x, hx, hl, _⟩ := selectPacket_some hj
    exact wrSend_invOut h2 hx hl _
  · rw [he]; exact h2.congr rfl rfl rfl rfl
  · rw [he]; exact h2

theorem addToOutgoingQueue_invOut {s : State} (h : InvOut s) {data : List Byte}
    (hd : data.length ≤ 255) : InvOut (addToOutgoingQueue hw data s).1 := by
  rcases addToOutgoingQueue_cases data s with ⟨_, he⟩ | ⟨_, _, he⟩ | ⟨hs, j, x, _, _, _, he⟩
  · rw [he]; exact h
  · rw [he]; exact h.congr rfl rfl rfl rfl
  · rw [he]
    constructor
    · simpa using h.obCount
    · exact nextIndex_ne_zero _
    · intro y hy
      rcases List.mem_or_eq_of_mem_set hy with hy | rfl
      · exact h.outSlotsOk y hy
      · show OutSlot.Ok s.wrStarted _
        rw [hs]
        refine ⟨?_, ?_⟩
        · show data.length = (BitVec.ofNat 8 data.length).toNat
          rw [BitVec.toNat_ofNat]; omega
        · rw [onWheel_seqByte]; simpa using h.nextSendOnWheel
    · exact h.earliestBefore
    · exact h.earliestAfter

end Sys2Proof.Machine
end

