-- ==== Sys2Proof/Laws/Outputs.lean ====
section
/-! SUPPORT. Events, results and transmitted bytes influence nothing, and neither does the host's
queue of commands (00_scope.md R11, 60_exceptions.md R122, 46_pair_and_host.md R112): every
operation commutes with putting something in front of the three records and replacing the queue. -/

namespace Sys2Proof.Machine

/-- What stands in front of the three records, and the host's queue. -/
structure Outside where
  events : List Event
  results : List (List Byte)
  txs : List Byte
  cmds : List (List Byte)

/-- The state `s` with more in front of its records and another queue. -/
def Outside.around (o : Outside) (s : State) : State :=
  { s with
    events := o.events ++ s.events, results := o.results ++ s.results, txs := o.txs ++ s.txs,
    cmds := o.cmds }

variable (o : Outside)

/-! ### Shared operations -/

theorem around_recordEvent (e : EventCode) (n : Byte) (s : State) :
    recordEvent e n (o.around s) = o.around (recordEvent e n s) := by
  simp [recordEvent, Outside.around]

theorem around_giveResult (bytes : List Byte) (s : State) :
    giveResult bytes (o.around s) = o.around (giveResult bytes s) := by
  simp [giveResult, Outside.around]

theorem around_setCurSlot (x : InSlot) (s : State) :
    setCurSlot x (o.around s) = o.around (setCurSlot x s) := by
  unfold setCurSlot
  cases h : s.cur <;> simp [Outside.around, h, setInSlot]

theorem around_envTurn (s : State) : envTurn (o.around s) = o.around (envTurn s) := by
  unfold envTurn
  cases h : s.env <;> simp [Outside.around, h]

/-! ### The Reader -/

theorem around_allocateInbound (c : Config) (s : State) :
    allocateInbound c (o.around s) =
      (o.around (allocateInbound c s).1, (allocateInbound c s).2) := by
  have h : cleanup c (o.around s) = o.around (cleanup c s) := rfl
  unfold allocateInbound
  rw [h]
  have h' : (o.around (cleanup c s)).ib = (cleanup c s).ib := rfl
  dsimp only
  rw [h']
  split <;> rfl

theorem around_rdFrame (c : Config) (fin : FrameEnd) (v : View) (s : State) :
    rdFrame c fin v (o.around s) = o.around (rdFrame c fin v s) := by
  have h : { o.around s with outAck := v.ack } = o.around { s with outAck := v.ack } := rfl
  unfold rdFrame
  rw [h]
  generalize { s with outAck := v.ack } = u
  split
  · rfl
  · cases fin with
    | parsed =>
      dsimp only [rdParsed]
      split
      · split
        · rename_i h1 _ h2
          have h3 : inRange c u.lastIndex v.seq = true := h2
          rw [if_pos h3, around_setCurSlot]
          rfl
        · rename_i h1 _ h2
          have h3 : ¬inRange c u.lastIndex v.seq = true := h2
          rw [if_neg h3]
          have h4 : { o.around u with inAck := ackCompose true (ackIndex v.seq) } =
              o.around { u with inAck := ackCompose true (ackIndex v.seq) } := rfl
          rw [h4, around_recordEvent, around_setCurSlot]
          rfl
      · rw [around_setCurSlot]; rfl
    | dataError =>
      dsimp only [rdDataError]
      rw [around_recordEvent]
      split <;> rfl

theorem around_rdDispatch (c : Config) (st : Status) (v : View) (s : State) :
    rdDispatch c st v (o.around s) = o.around (rdDispatch c st v s) := by
  cases st
  · rfl
  · exact around_rdFrame o c .parsed v s
  · exact around_recordEvent o _ _ s
  · exact around_rdFrame o c .dataError v s

theorem around_acquireSlot (c : Config) (s : State) :
    acquireSlot c (o.around s) = (o.around (acquireSlot c s).1, (acquireSlot c s).2) := by
  unfold acquireSlot
  have h : (o.around s).cur = s.cur := rfl
  rw [h]
  split
  · rfl
  · exact around_allocateInbound o c s

theorem around_consumeByte (c : Config) (i : Nat) (b : Byte) (s : State) :
    consumeByte c i b (o.around s) = o.around (consumeByte c i b s) := by
  have h : parseChar c i b { o.around s with cur := some i } =
      (o.around (parseChar c i b { s with cur := some i }).1,
        (parseChar c i b { s with cur := some i }).2) := rfl
  unfold consumeByte
  rw [h]
  exact around_rdDispatch o c _ _ _

theorem around_readerStep (c : Config) (s : State) :
    readerStep c (o.around s) = (o.around (readerStep c s).1, (readerStep c s).2) := by
  unfold readerStep
  have h : (o.around s).rxq = s.rxq := rfl
  have h' : (ackPendingIncoming (o.around s) || ackPendingOutgoing (o.around s)) =
      (ackPendingIncoming s || ackPendingOutgoing s) := rfl
  rw [h, h', around_acquireSlot]
  split
  · rfl
  · split
    · rfl
    · cases hs : acquireSlot c s with
      | mk s1 oi =>
        cases oi with
        | none => exact congrArg (fun q => (q, false)) (around_recordEvent o _ _ s1)
        | some i =>
          exact congrArg (fun q => (q, true)) (around_consumeByte o c i _ { s1 with rxq := _ })

theorem around_readLoop (c : Config) (n : Nat) (s : State) :
    readLoop c n (o.around s) = o.around (readLoop c n s) := by
  induction n generalizing s with
  | zero => rfl
  | succ n ih =>
    unfold readLoop
    rw [around_readerStep]
    cases hs : readerStep c s with
    | mk s1 more =>
      cases more with
      | true => simp only; rw [around_envTurn, ih]
      | false => rfl

/-! ### The Writer -/

theorem around_wrConsume (c : Config) (k : AckClass) (s : State) :
    wrConsume c k (o.around s) = o.around (wrConsume c k s) := by
  cases k with
  | empty => rfl
  | start =>
    simp only [wrConsume]
    have h : (o.around s).wrStarted = s.wrStarted := rfl
    rw [h]
    split <;> rfl
  | pos n => rfl
  | neg n => rfl

theorem around_wrTimeout (c : Config) (t : Time) (s : State) :
    wrTimeout c t (o.around s) = o.around (wrTimeout c t s) := by
  unfold wrTimeout
  have h1 : timedOut c t (o.around s) = timedOut c t s := rfl
  have h2 : (o.around s).ob = s.ob := rfl
  rw [h1, h2, around_recordEvent]
  split
  · split <;> rfl
  · rfl

theorem around_wrEmit (c : Config) (t : Time) (s : State) :
    wrEmit c t (o.around s) = o.around (wrEmit c t s) := by
  have h1 : (nextPacket c (o.around s)).2 = (nextPacket c s).2 := rfl
  have hu : updateNextIndex c (o.around s) = o.around (updateNextIndex c s) := rfl
  rcases wrEmit_cases c t s with ⟨j, hj, h⟩ | ⟨hj, ha, h⟩ | ⟨hj, ha, h⟩
  · rcases wrEmit_cases c t (o.around s) with ⟨j', hj', h'⟩ | ⟨hj', _⟩ | ⟨hj', _⟩
    · have : j' = j := by rw [h1, hj] at hj'; exact (Option.some.inj hj').symm
      subst this
      obtain ⟨x, hx, _⟩ := selectPacket_some hj
      have hx' : (updateNextIndex c (o.around s)).ob[j']? = some x := hx
      rw [h, h', wrSend_eq t hx, wrSend_eq t hx', hu]
      simp [Outside.around]
    · rw [h1, hj] at hj'; cases hj'
    · rw [h1, hj] at hj'; cases hj'
  · rcases wrEmit_cases c t (o.around s) with ⟨j', hj', _⟩ | ⟨_, _, h'⟩ | ⟨_, ha', _⟩
    · rw [h1, hj] at hj'; cases hj'
    · rw [h, h', hu]; simp [wrAckOnly, txWrite, Outside.around]
    · exact absurd ha' ha
  · rcases wrEmit_cases c t (o.around s) with ⟨j', hj', _⟩ | ⟨_, ha', _⟩ | ⟨_, _, h'⟩
    · rw [h1, hj] at hj'; cases hj'
    · exact absurd ha ha'
    · rw [h, h', hu]

theorem around_writerStep (c : Config) (s : State) :
    writerStep c (o.around s) = o.around (writerStep c s) := by
  unfold writerStep wrDrain
  have h1 : now (o.around s) = now s := rfl
  have h2 : (o.around s).outAck = s.outAck := rfl
  rw [h1, h2, around_wrConsume, around_wrTimeout, around_wrEmit]

/-! ### TICK and the other commands -/

theorem around_tick (c : Config) (s : State) : tick c (o.around s) = o.around (tick c s) := by
  unfold tick
  have h : arrivals (o.around s) = arrivals s := rfl
  rw [h, around_readLoop, around_envTurn, around_writerStep]

theorem around_moreTicks (c : Config) (n : Nat) (s : State) :
    moreTicks c n (o.around s) = o.around (moreTicks c n s) := by
  induction n generalizing s with
  | zero => rfl
  | succ n ih => simp only [moreTicks]; rw [around_envTurn, around_tick, ih]

theorem around_ticks (c : Config) (n : Nat) (s : State) :
    ticks c n (o.around s) = o.around (ticks c n s) := by
  cases n with
  | zero => rfl
  | succ n => simp only [ticks]; rw [around_tick, around_moreTicks]

theorem around_popPacket (s : State) :
    popPacket hw (o.around s) = (o.around (popPacket hw s).1, (popPacket hw s).2) := by
  unfold popPacket
  have h1 : ackPendingIncoming (o.around s) = ackPendingIncoming s := rfl
  have h2 : nextInOrder hw (o.around s) = nextInOrder hw s := rfl
  rw [h1, h2]
  split
  · rfl
  · split <;> rfl

theorem around_addToOutgoingQueue (data : List Byte) (s : State) :
    addToOutgoingQueue hw data (o.around s) =
      (o.around (addToOutgoingQueue hw data s).1, (addToOutgoingQueue hw data s).2) := by
  unfold addToOutgoingQueue allocateOutbound
  have h1 : writerPreHandshake (o.around s) = writerPreHandshake s := rfl
  have h2 : (o.around s).ob = s.ob := rfl
  rw [h1, h2]
  split
  · rfl
  · cases s.ob.findIdx? (fun x => !x.live) with
    | none => exact congrArg (fun q => (q, false)) (around_recordEvent o _ _ s)
    | some j => rfl

end Sys2Proof.Machine
end

