-- ==== Sys2Proof/Laws/Program.lean ====
section
/-! SUPPORT. `TICKS n` on a line of a host program is `n` `TICK` lines (30_encoding.md R65), whatever the
environment does at the boundaries between them. -/

namespace Sys2Proof.Machine

/-- A line run over and over is a list of that line. -/
theorem foldl_replicate {α β : Type} (f : β → α → β) (a : α) (n : Nat) (x : β) :
    (List.replicate n a).foldl f x = (fun y => f y a)^[n] x := by
  induction n generalizing x with
  | zero => rfl
  | succ n ih => rw [List.replicate_succ, List.foldl_cons, ih]; rfl

/-- A `TICKS` line on one CORE. -/
theorem runLine_ticks (n : Nat) (x : Session) :
    runLine (.ticks n) x = runLines (List.replicate n (.command .tick)) x := by
  rw [runLines, foldl_replicate]
  induction n generalizing x with
  | zero => rfl
  | succ n ih => exact ih (runLine (.command .tick) x)

/-- A `TICKS` line on one end of a link. -/
theorem runLinkLine_ticks (e : End) (n : Nat) (x : LinkSession) :
    runLinkLine e (.ticks n) x = runLinkLines (List.replicate n (e, .command .tick)) x := by
  rw [runLinkLines, foldl_replicate]
  induction n generalizing x with
  | zero => cases e <;> rfl
  | succ n ih =>
    refine Eq.trans ?_ (ih (runLinkLine e (.command .tick) x))
    cases e <;> rfl

/-- With the boundary that precedes a command, the meaning of `TICKS n` is that of `n` `TICK`s. -/
theorem hostRun_ticks (n : Nat) (s : State) :
    hostRun (.ticks (n + 1)) s = (hostRun .tick)^[n + 1] s := by
  have h : ∀ (m : Nat) (u : State), moreTicks hw m u = (hostRun .tick)^[m] u := by
    intro m
    induction m with
    | zero => exact fun _ => rfl
    | succ m ih => exact fun u => ih (hostRun .tick u)
  exact h n (hostRun .tick s)

end Sys2Proof.Machine
end

