-- ==== Sys2Proof/Tests/Slice0.lean ====
section
/-! SUPPORT. Tests of the model. Every expected value comes from the spec: the encodings of
30_encoding.md, and the vectors of 95_test_vectors.md, whose names stand in the comments. Then one
witness for each statement with hypotheses: a concrete case that meets all of them. -/

open Sys2Proof Sys2Proof.Machine Sys2Proof.Statements

namespace Sys2Proof.Tests

/-! ### Well-formedness: an ill-formed term for each check (R54 to R56, R60) -/

/-- 256 bytes, one more than `MAX_PAYLOAD`. -/
def tooLong : List Byte := List.replicate 256 0

/-- 255 bytes, as many as `MAX_PAYLOAD`. -/
def longest : List Byte := List.replicate 255 1

theorem tooLong_fits : payloadFits tooLong = false := by decide +kernel
theorem longest_length : longest.length = 255 := List.length_replicate
theorem longest_fits : payloadFits longest = true := by simp [payloadFits, longest_length]

theorem test_wf_transmit_too_long : (Instr.transmit tooLong).wellFormed = false := tooLong_fits
theorem test_wf_transmit_longest : (Instr.transmit longest).wellFormed = true := longest_fits
theorem test_wf_ackonly_too_long : (Instr.frameAckonly .parsed 0 tooLong).wellFormed = false :=
  tooLong_fits
theorem test_wf_data_too_long : (Instr.frameData .parsed 0 1 tooLong).wellFormed = false := by
  simp only [Instr.wellFormed, tooLong_fits, Bool.and_false]
theorem test_wf_handshake_too_long :
    (Instr.frameHandshake .parsed 0 tooLong).wellFormed = false := tooLong_fits
theorem test_wf_resv_too_long : (Instr.frameResv .parsed 0 1 tooLong).wellFormed = false := by
  simp only [Instr.wellFormed, tooLong_fits, Bool.and_false]
theorem test_wf_data_zero : (Instr.frameData .parsed 0 0 []).wellFormed = false := by decide
theorem test_wf_resv_zero : (Instr.frameResv .parsed 0 0 []).wellFormed = false := by decide
theorem test_wf_pos_zero : (Instr.ackPos 0).wellFormed = false := by decide
theorem test_wf_neg_zero : (Instr.ackNeg 0).wellFormed = false := by decide

/-! ### Decoding: every row's word, written out from the spec -/

theorem test_decode_reset : decodeCommand [0x00] = .ok .reset := by decide
theorem test_decode_tick : decodeCommand [0x01] = .ok .tick := by decide
/-- R64's example. -/
theorem test_decode_transmit : decodeCommand [0x02, 0x03, 0x01, 0x02, 0x03] =
    .ok (.transmit [1, 2, 3]) := by decide
theorem test_decode_transmit_empty : decodeCommand [0x02, 0x00] = .ok (.transmit []) := by decide
theorem test_decode_receive : decodeCommand [0x03] = .ok .receive := by decide
theorem test_decode_initialized : decodeCommand [0x04] = .ok .initialized := by decide
theorem test_decode_reserved05 : decodeCommand [0x05] = .ok .reserved05 := by decide
theorem test_decode_reserved06 : decodeCommand [0x07] = .ok (.reserved06 1) := by decide
theorem test_decode_reserved08 : decodeCommand [0x0F] = .ok (.reserved08 7) := by decide
theorem test_decode_readStep : decodeCommand [0x10] = .ok .readStep := by decide
theorem test_decode_writeStep : decodeCommand [0x11] = .ok .writeStep := by decide
theorem test_decode_peekPacket : decodeCommand [0x12, 0x01] = .ok (.peekPacket 1) := by decide
theorem test_decode_peekResendPacket : decodeCommand [0x13] = .ok .peekResendPacket := by decide
theorem test_decode_reserved14 : decodeCommand [0x14] = .ok (.reserved14 0) := by decide
theorem test_decode_reserved18 : decodeCommand [0x1B] = .ok (.reserved18 3) := by decide
theorem test_decode_reserved20 : decodeCommand [0x3F] = .ok (.reserved20 31) := by decide
theorem test_decode_reserved40 : decodeCommand [0x40] = .ok (.reserved40 0) := by decide
theorem test_decode_reserved80 : decodeCommand [0xFF] = .ok (.reserved80 127) := by decide
theorem test_decode_ticks : decodeLine [0x01, 0x01, 0x01] = .ok (.ticks 3) := by decide
/-- RD14's frame. -/
theorem test_decode_frameAckonly : decodeFrame hw [0x0A, 0x3C, 0x02, 0x00, 0x00, 0x48, 0x28, 0, 0] =
    .ok (.frameAckonly .parsed 0x02 []) := by decide
/-- CK6's frame. -/
theorem test_decode_frameData : decodeFrame hw
    [0x0A, 0x3C, 0x00, 0x01, 0x05, 0x4C, 0x29, 0x01, 0x02, 0x03, 0x04, 0x05, 0x0F, 0x23] =
    .ok (.frameData .parsed 0x00 1 [1, 2, 3, 4, 5]) := by decide
/-- RD12's frame: its last byte is wrong. -/
theorem test_decode_frameData_error : decodeFrame hw
    [0x0A, 0x3C, 0x00, 0x03, 0x05, 0x4E, 0x2D, 0x01, 0x02, 0x01, 0x01, 0x02, 0x07, 0x15] =
    .ok (.frameData .dataError 0x00 3 [1, 2, 1, 1, 2]) := by decide
/-- RD5's frame. -/
theorem test_decode_frameHandshake : decodeFrame hw
    [0x0A, 0x3C, 0x80, 0x80, 0x00, 0x46, 0xA2, 0x00, 0x00] =
    .ok (.frameHandshake .parsed 0x80 []) := by decide
/-- RD15's frame. -/
theorem test_decode_frameResv : decodeFrame hw
    [0x0A, 0x3C, 0x03, 0x81, 0x00, 0xCA, 0x2D, 0x00, 0x00] =
    .ok (.frameResv .parsed 0x03 1 []) := by decide
/-- CK24: the header checksum does not match. -/
theorem test_decode_frameHeaderError : decodeFrame hw
    [0x0A, 0x3C, 0x02, 0x03, 0x05, 0x4E, 0x2D, 0x01, 0x02, 0x01, 0x01, 0x02, 0x07, 0x14] =
    .ok .frameHeaderError := by decide
theorem test_decode_ackEmpty : decodeAck hw [0x00] = .ok .ackEmpty := by decide
theorem test_decode_ackStart : decodeAck hw [0x80] = .ok .ackStart := by decide
theorem test_decode_ackPos : decodeAck hw [0x7F] = .ok (.ackPos 127) := by decide
theorem test_decode_ackNeg : decodeAck hw [0x81] = .ok (.ackNeg 1) := by decide
/-- HC3: two data bytes where the length says three. -/
theorem test_decode_short : decodeCommand [0x02, 0x03, 0x01, 0x02] = .error .wrongLength := by decide
/-- HC4: an operand where none is. -/
theorem test_decode_long : decodeCommand [0x03, 0x00] = .error .wrongLength := by decide
/-- CK23: a frame and one more byte. -/
theorem test_decode_overrun : decodeFrame hw
    [0x0A, 0x3C, 0x00, 0x01, 0x00, 0x47, 0x24, 0x00, 0x00, 0x00] = .error .overrunFrame := by decide
theorem test_decode_incomplete : decodeFrame hw [0x0A, 0x3C] = .error .incompleteFrame := by decide
/-- R63: `TRANSMIT`'s length byte 5 asks for five more bytes, which are zeros here. -/
theorem test_table_word : decodeTableWord 16 0x0502 = some (.transmit [0, 0, 0, 0, 0]) := by decide

/-! ### Host-program text (R64, R65) -/

theorem test_line_transmit : readLine "TRANSMIT 01 02 03 ; a comment".toList =
    some (.command (.transmit [1, 2, 3])) := by decide
theorem test_line_time : readLine "@time 100001".toList = some (.time 100001) := by decide

/-- A two-peer program; the prefix stands alone or before the first word. -/
theorem test_program_linked : readProgram
      ["@link A B".toList, "  ; the peers".toList, "A: TICKS 3".toList, "B:PEEK_PACKET 80".toList] =
    some (.two [(.a, .ticks 3), (.b, .command (.peekPacket 0x80))]) := by decide
/-- A line of a two-peer program without its prefix. -/
theorem test_program_unprefixed : readProgram ["@link A B".toList, "TICK".toList] = none := by decide
/-- The first rows of P1, with its check. -/
theorem test_program_expect : (readProgram ["RESET".toList, "@time 0".toList, "TICK".toList,
      "@expect-tx 0A 3C 00 80 00 C6 22 00 00".toList]).map programMet = some true := by decide

/-! ### Parameters: a corrected literal changes one field (R5, R8, R9) -/

/-- R9 on integers: 0 is not at most 0 - 1. -/
theorem test_valid_no_wheel :
    { hw with seqMax := 0, ibWindow := 0, maxOutgoingIndexGap := 0 : Config }.valid = false := by decide
theorem test_valid_window_edge : { hw with ibWindow := 126 : Config }.valid = true ∧
    { hw with ibWindow := 127 : Config }.valid = false := by decide
theorem test_param_wheel : nextIndex { hw with seqMax := 100 } 100 = 1 ∧
    wheelDist { hw with seqMax := 100 } 100 1 = 1 ∧ onWheel { hw with seqMax := 100 } 101 = false := by
  decide
theorem test_param_handshake :
    ackClass { hw with handshake := 0x90 } (ackStartSequence { hw with handshake := 0x90 }) = .start := by
  decide
/-- The interval from 9 to 1 in 4 bits is 8. -/
theorem test_param_time :
    timedOut { hw with timeW := 4, resendTimeoutUs := 7 } 1 { State.reset with lastSend := 9 } = true ∧
      timedOut { hw with timeW := 4, resendTimeoutUs := 8 } 1 { State.reset with lastSend := 9 } =
        false := by decide

/-! ### Small states -/

/-- The next state of an instruction. -/
def after (i : Instr) (s : State) : State :=
  match exec i s with
  | .next t => t
  | .fault _ => s
  | .refused _ => s

/-- A live frame with one data byte. -/
def frame (pending : Bool) (n b : Byte) : OutSlot :=
  { live := true, pending := pending, idx := n, ack := 0, len := 1, data := [b] }

/-- The Writer active and nothing live, as after the handshake. -/
def active : State :=
  { State.reset with
    rdStarted := true, wrStarted := true, earliest := 1, ob := List.replicate 4 OutSlot.freed }

/-- The start state of WR4 to WR18: 1, 2 and 3 live and sent. -/
def sent123 : State :=
  { active with
    ob := [frame false 1 1, frame false 2 2, frame false 3 3, OutSlot.freed]
    nextSend := 4, lastSend := 5 }

/-- Four live frames, all sent (OB3). -/
def sent1234 : State :=
  { active with
    ob := [frame false 1 1, frame false 2 2, frame false 3 3, frame false 4 4], nextSend := 5 }

/-- A frame that waits for delivery. -/
def ready (n : Byte) (d : List Byte) : InSlot :=
  { st := .ready, ps := ParserState.empty, hist := [], idx := n, ack := 0,
    len := BitVec.ofNat 8 d.length, data := d }

/-- Every inbound slot holds a frame of the window (IB3). -/
def full : State :=
  { State.reset with ib := [ready 1 [1], ready 2 [2], ready 3 [3], ready 4 [4]] }

/-- The Reader holds slot 0, which is empty. -/
def reading : State :=
  { State.reset with
    cur := some 0
    ib := { InSlot.freed with st := .filling } :: List.replicate 3 InSlot.freed }

/-! ### The codec and the wheel -/

/-- CK3. -/
theorem test_ck_wraps : ck [0xFF, 0xFF] = (0xFE, 0xFD) := by decide
/-- CK7c. -/
theorem test_ck_from_two : serialize { hw with hdrCkFrom := 2 } 0x00 0x80 [] =
    [0x0A, 0x3C, 0x00, 0x80, 0x00, 0x80, 0x00, 0x00, 0x00] := by decide
/-- RS3: the resync takes offset 2. -/
theorem test_resync_offset : (parseHistory hw [0x0A, 0x3C, 0x0A, 0x3C, 0x00, 0x01]).hist =
    [0x0A, 0x3C, 0x00, 0x01] := by decide
/-- SQ5: the window wraps. -/
theorem test_window_wraps : (List.range 256).filter (fun n => inRange hw 125 (BitVec.ofNat 8 n)) =
    [1, 2, 126, 127] := by decide
/-- SQ7. -/
theorem test_precedes_wraps : precedesIndex hw 120 7 = true ∧ precedesIndex hw 120 9 = false := by
  decide
/-- SQ9. -/
theorem test_age : [2, 1, 127, 3, 4].map (age hw 3) = [1, 2, 3, 127, 126] := by decide
/-- R76: `HANDSHAKE` is never the number 128, which would be as old as the number 1. -/
theorem test_age_handshake : age hw 3 0x80 < age hw 3 2 := by decide
/-- SQ10. -/
theorem test_scan : scan hw 126 = [126, 127, 1, 2, 3, 4, 5, 6, 7, 8, 9, 10, 11, 12, 13] := by decide
/-- OB7, with its parameter: 15 frames are marked and frame 16 is freed. -/
theorem test_cascade_wide :
    ((removePacket hw 16 { active with
      ob := (List.range 16).map fun k => frame false (BitVec.ofNat 8 (k + 1)) 0 }).ob.map
        fun x => (x.live, x.pending)) = List.replicate 15 (true, true) ++ [(false, false)] := by
  decide

/-! ### Instructions -/

/-- HC5: the mark survives. -/
theorem test_reset : after .reset { full with refused := true, inAck := 1 } =
    { State.reset with refused := true } := by decide
/-- HC9. -/
theorem test_tick_sends_handshake : (after .tick State.reset).txs =
    [0x0A, 0x3C, 0x00, 0x80, 0x00, 0xC6, 0x22, 0x00, 0x00] := by decide
/-- R136, step 2: the handshake frame arrives and the answer carries its ack. -/
theorem test_tick_answers : (after .tick { State.reset with
    rxq := [0x0A, 0x3C, 0x00, 0x80, 0x00, 0xC6, 0x22, 0x00, 0x00] }).txs =
    [0x0A, 0x3C, 0x80, 0x80, 0x00, 0x46, 0xA2, 0x00, 0x00] := by decide
/-- OB4: the freed slot takes the new frame. -/
theorem test_transmit_takes_free_slot : (after (.transmit [5]) { active with
    ob := [frame true 1 1, frame true 2 2, OutSlot.freed, frame false 4 4], nextSend := 5 }).ob =
    [frame true 1 1, frame true 2 2, frame true 5 5, frame false 4 4] := by decide
/-- WR17. -/
theorem test_transmit_before_handshake : after (.transmit [1]) State.reset =
    { State.reset with results := [[0x00]] } := by decide
/-- IB4. -/
theorem test_receive : after .receive { State.reset with
      ib := [InSlot.freed, InSlot.freed, ready 1 [0x0B], InSlot.freed] } =
    { State.reset with lastIndex := 1, inAck := 0x01, results := [[0x01, 0x01, 0x0B]] } := by
  decide
/-- IB7: frame 2 waits for frame 1. -/
theorem test_receive_waits : (after .receive { State.reset with
      ib := [ready 2 [2], InSlot.freed, InSlot.freed, InSlot.freed] }).results = [[0x00, 0x00]] := by
  decide
/-- HC10. -/
theorem test_initialized : (after .initialized State.reset).results = [[0x00]] := by decide
/-- HC1. -/
theorem test_reserved05 : after .reserved05 full = { full with refused := true } := by decide
theorem test_reserved06 : after (.reserved06 1) full = { full with refused := true } := by
  decide
theorem test_reserved08 : after (.reserved08 7) full = { full with refused := true } := by
  decide
theorem test_reserved14 : after (.reserved14 0) full = { full with refused := true } := by
  decide
theorem test_reserved18 : after (.reserved18 3) full = { full with refused := true } := by
  decide
theorem test_reserved20 : after (.reserved20 31) full = { full with refused := true } := by
  decide
theorem test_reserved40 : after (.reserved40 0) full = { full with refused := true } := by
  decide
/-- HC2. -/
theorem test_reserved80 : after (.reserved80 127) full = { full with refused := true } := by
  decide
/-- RD2, HC6. -/
theorem test_readStep_takes_byte :
    let t := after .readStep { State.reset with rxq := [0x0A, 0x3C] }
    t.cur = some 0 ∧ (inSlot t 0).hist = [0x0A] ∧ t.rxq = [0x3C] ∧ t.results = [[0x01]] := by
  decide
/-- RD17. -/
theorem test_readStep_full : after .readStep { full with rxq := [0x0A] } =
    { full with rxq := [0x0A], results := [[0x00]],
                events := [{ code := .bufferFull, info := 0 }] } := by decide
/-- WR15: the ack rides on the data frame. -/
theorem test_writeStep_piggyback :
    let t := after .writeStep { sent123 with
      ob := [frame true 1 1, frame false 2 2, frame false 3 3, OutSlot.freed], inAck := 7, time := 10 }
    t.txs = [0x0A, 0x3C, 0x07, 0x01, 0x01, 0x4F, 0x3A, 0x01, 0x01, 0x01] ∧ t.inAck = 0 ∧
      (outSlot t 0).ack = 7 := by decide
/-- WR12: the interval wraps. -/
theorem test_writeStep_timeout :
    let t := after .writeStep { sent123 with lastSend := (0 : Time) - 10, time := 99991 }
    t.txs = [0x0A, 0x3C, 0x00, 0x01, 0x01, 0x48, 0x25, 0x01, 0x01, 0x01] ∧
      t.ob.map (·.pending) = [false, true, true, false] := by decide
/-- OB13. -/
theorem test_peekPacket : (after (.peekPacket 0x80) State.reset).results =
    [[0x01, 0x00, 0x01, 0x00]] := by decide
/-- OB14. -/
theorem test_peekResendPacket : (after .peekResendPacket State.reset).results =
    [[0x01, 0x80, 0x00, 0x00]] := by decide
/-- R65. -/
theorem test_ticks : after (.ticks 2) State.reset = after .tick (after .tick State.reset) := by
  decide
/-- RD14. -/
theorem test_frameAckonly : after (.frameAckonly .parsed 0x02 []) reading =
    { State.reset with outAck := 0x02 } := by decide
/-- RD11: the window's edge. -/
theorem test_frameData_edge : after (.frameData .parsed 0x00 4 [4]) reading =
    { State.reset with ib := ready 4 [4] :: List.replicate 3 InSlot.freed } := by decide
/-- RD8: one past the edge. -/
theorem test_frameData_past_edge : after (.frameData .parsed 0x00 5 [5]) reading =
    { State.reset with inAck := 0x85, events := [{ code := .sequenceGap, info := 5 }] } := by
  decide
/-- RD6: a bad last byte is no matter. -/
theorem test_frameHandshake : after (.frameHandshake .dataError 0x00 []) reading =
    { State.reset with inAck := 0x80, rdStarted := true } := by decide
/-- RD15. -/
theorem test_frameResv : after (.frameResv .parsed 0x03 1 []) reading =
    { State.reset with outAck := 0x03 } := by decide
/-- RD3. -/
theorem test_frameHeaderError : after .frameHeaderError reading =
    { reading with events := [{ code := .headerError, info := 0 }] } := by decide
theorem test_ackEmpty : after .ackEmpty sent123 = sent123 := by decide
/-- WR2. -/
theorem test_ackStart : after .ackStart { State.reset with outAck := 0x80 } =
    { active with rdStarted := false } := by decide
/-- WR4. -/
theorem test_ackStart_again : after .ackStart { sent123 with outAck := 0x80 } = sent123 := by
  decide
/-- OB3: 3 is freed, 1 and 2 are marked, 4 is untouched. -/
theorem test_ackPos : (after (.ackPos 3) sent1234).ob =
    [frame true 1 1, frame true 2 2, OutSlot.freed, frame false 4 4] := by decide
/-- WR5. -/
theorem test_ackNeg : (after (.ackNeg 3) sent123).ob =
    [frame false 1 1, frame false 2 2, frame true 3 3, OutSlot.freed] := by decide

/-! ### Steps -/

/-- The environment acts, then the host's command runs. -/
theorem test_step_boundary :
    (match step { State.reset with
        cmds := [[0x10]], env := [{ rx := [0x0A], time := some 7 }] } with
      | .next t => (t.results, t.time, t.cmds, t.env.length)
      | .fault _ => ([], 0, [], 0)
      | .refused _ => ([], 0, [], 0)) = ([[0x01]], 7, [], 0) := by decide

/-- The word placed for the fetch runs. -/
theorem test_fetch_word : step (State.reset.withFetchWord 16 0x8012) =
    exec (.peekPacket 0x80) State.reset := by rfl

/-! ### Witnesses -/

/-- A position found by search is the lowest. -/
theorem lowest_of_search {α : Type} (l : List α) (p : α → Prop) [DecidablePred p] (i : Nat)
    (h : l.findIdx? (fun x => decide (p x)) = some i) : Lowest l p i := by
  obtain ⟨⟨x, hx, hp⟩, hlt⟩ := findIdx_some_iff.1 h
  exact ⟨⟨x, hx, of_decide_eq_true hp⟩, fun j y hj hy => of_decide_eq_false (hlt j y hj hy)⟩

theorem witness_DecodeEncodeRoundTrip :
    (Instr.frameData .dataError 5 127 longest).wellFormed = true ∧
      (Instr.frameResv .parsed 0 127 []).wellFormed = true ∧ (Instr.ackNeg 1).wellFormed = true ∧
      (Instr.ticks 0).wellFormed = true := by
  simp only [Instr.wellFormed, longest_fits]
  decide

theorem witness_CommandBytesReadExactly :
    decodeCommand [0x02, 0x02, 0xFF, 0x00] = .ok (.transmit [0xFF, 0x00]) := by decide

theorem witness_MalformedCommandsOnlyMark :
    (∀ bytes : List Byte, ∃ s : State, ∃ rest, (envTurn s).cmds = bytes :: rest) ∧
      RefusedCommand [] ∧ RefusedCommand [0x05] ∧ RefusedCommand [0x0F] ∧ RefusedCommand [0x14] ∧
      RefusedCommand [0xFF] ∧ RefusedCommand [0x03, 0x00] ∧ RefusedCommand [0x12] ∧
      RefusedCommand [0x12, 0x01, 0x02] ∧ RefusedCommand [0x02] ∧
      RefusedCommand [0x02, 0x03, 0x01, 0x02] := by
  refine ⟨fun bytes => ⟨{ State.reset with cmds := [bytes] }, [], rfl⟩, .inl rfl,
    .inr ⟨_, _, rfl, .inl (by decide)⟩, .inr ⟨_, _, rfl, .inl (by decide)⟩,
    .inr ⟨_, _, rfl, .inr (.inl (by decide))⟩, .inr ⟨_, _, rfl, .inr (.inl (by decide))⟩,
    .inr ⟨_, _, rfl, .inr (.inr (.inl (by decide)))⟩,
    .inr ⟨_, _, rfl, .inr (.inr (.inr (.inl (by decide))))⟩,
    .inr ⟨_, _, rfl, .inr (.inr (.inr (.inl (by decide))))⟩,
    .inr ⟨_, _, rfl, .inr (.inr (.inr (.inr ⟨rfl, fun len data h => by simp at h⟩)))⟩,
    .inr ⟨_, _, rfl, .inr (.inr (.inr (.inr ⟨rfl, fun len data h => ?_⟩)))⟩⟩
  simp only [List.cons.injEq] at h
  obtain ⟨rfl, rfl⟩ := h
  decide

theorem witness_SerializedFrameParsesBack :
    longest.length ≤ 255 ∧ 3 < reading.ib.length ∧ (inSlot reading 3).hist = [] :=
  ⟨Nat.le_of_eq longest_length, by decide, by decide⟩

theorem witness_HeaderCorruptionDetected :
    [0, 1, 2, 4, 5, 6].all (fun p => p < 7 && (0xEE : Byte) != (serialize hw 0 1 [1, 2]).getD p 0) =
      true := by decide

theorem witness_PayloadCorruptionDetected :
    [7, 8, 9, 10].all (fun p => 7 ≤ p && p < 9 + 2 &&
      (0xEE : Byte) != (serialize hw 0 1 [1, 2]).getD p 0) = true := by decide

theorem witness_ResyncTakesFirstGoodOffset :
    (reProcess hw [0x0A, 0x0A]).map (fun r => (r.1, r.2.1)) = some ([0x0A], .incomplete) ∧
      (reProcess hw [0x0A, 0x0A, 0x3C, 0x01, 0x00, 0x00, 0x47, 0x25, 0x00, 0x00]).map
        (fun r => r.2.1) = some .parsed ∧
      reProcess hw [0x55, 0x55] = none := by decide

theorem witness_DistCountsSteps : ∃ a b : Seq, a ≠ 0 ∧ b ≠ 0 ∧ a ≠ b ∧
    0 < wheelDist hw a b := ⟨127, 1, by decide⟩

theorem witness_WindowIsNextFour : ∃ lastIndex : Seq, lastIndex ≠ 0 := ⟨125, by decide⟩

/-- IB2's slots: slot 1 is out of the window, slot 2 repeats slot 0, slots 0 and 3 stay. -/
theorem witness_CleanupEvictsExactly :
    ∃ s : State, s.lastIndex ≠ 0 ∧ (∃ x, s.ib[1]? = some x ∧ Evicted s 1 x) ∧
      (∃ x, s.ib[2]? = some x ∧ Evicted s 2 x) ∧
      (∃ x, s.ib[0]? = some x ∧ ¬Evicted s 0 x) ∧ ∃ x, s.ib[3]? = some x ∧ ¬Evicted s 3 x := by
  refine ⟨{ State.reset with
      lastIndex := 1, ib := [ready 2 [2], ready 1 [1], ready 2 [2], InSlot.freed] }, by decide,
    ⟨_, rfl, by decide, .inl (by decide)⟩,
    ⟨_, rfl, by decide, .inr ⟨0, _, by decide, rfl, by decide, by decide⟩⟩,
    ⟨_, rfl, ?_⟩, ⟨_, rfl, fun h => by simpa [InSlot.freed] using h.1⟩⟩
  rintro ⟨_, h | ⟨j, y, hj, _⟩⟩
  · exact absurd h (by decide)
  · omega

theorem witness_ReceiveDeliversInOrder :
    (full.inAck = 0x00 ∧ Lowest full.ib (NextReady full) 0 ∧ full.ib[0]? = some (ready 1 [1])) ∧
      (∃ s : State, s.inAck ≠ 0x00) ∧ ∃ s : State, ∀ x ∈ s.ib, ¬NextReady s x := by
  refine ⟨⟨by decide, ⟨⟨_, rfl, by decide, by decide⟩, fun j x hj => by omega⟩, rfl⟩,
    ⟨{ full with inAck := 0x81 }, by decide⟩, ⟨{ full with lastIndex := 4 }, ?_⟩⟩
  intro x hx h
  have key : ∀ y ∈ full.ib, y.idx ≠ 5 := by decide
  exact key x hx h.2

/-- A delivery, a reset, and a handshake frame: alone, and read by `TICK`. -/
theorem witness_LastIndexMovesOnlyByDelivery :
    (Instr.receive.wellFormed = true ∧ exec .receive full = .next (after .receive full) ∧
        (after .receive full).lastIndex = 1) ∧
      (after .reset { full with lastIndex := 3 }).lastIndex = 127 ∧
      ((Instr.frameHandshake .parsed 0 []).wellFormed = true ∧
        (after (.frameHandshake .parsed 0 []) { full with lastIndex := 3 }).lastIndex = 127) ∧
      (after .tick { State.reset with
        lastIndex := 3, rxq := [0x0A, 0x3C, 0x00, 0x80, 0x00, 0xC6, 0x22, 0x00, 0x00] }).lastIndex =
          127 := by
  refine ⟨⟨rfl, rfl, by decide⟩, by decide, by decide, by decide⟩

theorem witness_TransmitQueuesOrRejects :
    State.reset.wrStarted = false ∧ sent1234.wrStarted = true ∧ (∀ x ∈ sent1234.ob, Live x) ∧
      sent123.wrStarted = true ∧ Lowest sent123.ob (fun y => ¬Live y) 3 ∧
      longest.length ≤ 255 := by
  refine ⟨rfl, rfl, by unfold Live; decide, rfl, ?_, Nat.le_of_eq longest_length⟩
  exact lowest_of_search _ (fun y : OutSlot => ¬y.live = true) _ (by decide)

/-- The invariants hold with four sent frames. -/
theorem sent1234_inv : sent1234.Inv := by
  refine ⟨rfl, rfl, by decide, by decide, (fun i h => by cases h), ?_, ?_, ?_, by decide, fun _ => ?_⟩
  · intro i hi
    have h : ∀ i < 4, (inSlot sent1234 i).st = .free := by decide
    rw [h i hi]
    exact ⟨(fun h => by cases h), (fun h => by cases h)⟩
  · intro x hx
    have : x ∈ List.replicate 4 InSlot.freed := hx
    rw [(List.mem_replicate.1 this).2]
    exact freed_inSlot_ok
  · intro x hx
    simp only [sent1234, List.mem_cons, List.not_mem_nil, or_false] at hx
    rcases hx with rfl | rfl | rfl | rfl <;> exact ⟨rfl, rfl⟩
  · decide

theorem witness_FifthTransmitWaitsForAck :
    sent1234.Inv ∧ sent1234.wrStarted = true ∧ (sent1234.ob.filter (·.live)).length = 4 ∧
      frame false 3 3 ∈ sent1234.ob ∧ (frame false 3 3).idx = seqByte 3 :=
  ⟨sent1234_inv, rfl, rfl, by decide, rfl⟩

theorem witness_EarliestIsOldestLive :
    State.reset.wrStarted = false ∧ (active.wrStarted = true ∧ ∀ x ∈ active.ob, ¬Live x) ∧
      (sent123.wrStarted = true ∧ ∃ x ∈ sent123.ob, Live x) ∧
      sent123.nextSend ≠ 0 ∧ stepsFrom hw 127 4 = sent123.nextSend ∧
      stepsFrom hw 4 127 = sent123.nextSend := by
  have h : stepsFrom hw 4 127 = 4 :=
    BitVec.eq_of_toNat_eq (by rw [stepsFrom_toNat (by decide)]; rfl)
  rw [h]
  unfold Live
  decide

theorem witness_NextPacketKeepsSendOrder :
    (State.reset.wrStarted = false ∧ (nextPacket hw State.reset).2 = some 0) ∧
      (nextPacket hw { State.reset with ob := [] }).2 = none ∧
      (∃ s : State, s.wrStarted = true ∧ (nextPacket hw s).2 = some 1) ∧
      active.wrStarted = true ∧ (nextPacket hw active).2 = none := by
  refine ⟨by decide, by decide, ⟨{ sent123 with
    ob := [frame false 1 1, frame true 2 2, frame true 3 3, OutSlot.freed] }, by decide⟩, by decide⟩

theorem witness_PeekPacketOnlyReads :
    (∀ x ∈ sent123.ob, ¬(Live x ∧ x.idx = 9)) ∧
      Lowest sent123.ob (fun y => Live y ∧ y.idx = 2) 1 ∧ sent123.ob[1]? = some (frame false 2 2) := by
  refine ⟨by unfold Live; decide, ?_, rfl⟩
  exact lowest_of_search _ (fun y : OutSlot => y.live = true ∧ y.idx = 2) _ (by decide)

theorem witness_PeekResendPacketOnlyReads :
    (∀ x ∈ sent123.ob, ¬(Live x ∧ x.pending = true)) ∧
      Lowest State.reset.ob (fun y => Live y ∧ y.pending = true) 0 := by
  refine ⟨by unfold Live; decide, ?_⟩
  exact lowest_of_search _ (fun y : OutSlot => y.live = true ∧ y.pending = true) _ (by decide)

/-- OB3: slot 2 is freed, slot 0 is marked, slot 3 is untouched; in OB1's state an empty slot is. -/
theorem witness_PositiveAckFreesAndCascades :
    (3 : Seq) ≠ 0 ∧ (Live (frame false 3 3) ∧ (frame false 3 3).idx = seqByte 3) ∧
      (Live (frame false 1 1) ∧ (frame false 1 1).idx ≠ seqByte 3 ∧
        precedesIndex hw (frame false 1 1).idx (seqByte 3) = true) ∧
      ((frame false 4 4).idx ≠ seqByte 3 ∧
        precedesIndex hw (frame false 4 4).idx (seqByte 3) = false) ∧ ¬Live OutSlot.freed ∧
      [0, 2, 3].map (fun j => sent1234.ob[j]?) =
        [some (frame false 1 1), some (frame false 3 3), some (frame false 4 4)] := by
  unfold Live
  decide

theorem witness_NegativeAckMarksOnly :
    (3 : Seq) ≠ 0 ∧ sent123.ob[2]? = some (frame false 3 3) ∧ Live (frame false 3 3) ∧
      (frame false 3 3).idx = seqByte 3 ∧ sent123.ob[1]? = some (frame false 2 2) ∧
      (frame false 2 2).idx ≠ seqByte 3 ∧ ¬Live OutSlot.freed := by
  unfold Live
  decide

theorem witness_StartAckActivatesOnce :
    State.reset.wrStarted = false ∧ active.wrStarted = true := by decide

theorem witness_AckByteClasses :
    [0x01, 0x7F].all (fun k : Byte => 1 ≤ k.toNat && k.toNat ≤ 0x7F) = true ∧
      [0x81, 0xFF].all (fun k : Byte => 0x81 ≤ k.toNat) = true := by decide

theorem witness_HandshakeFrameRestartsReader :
    ([] : List Byte).length ≤ 255 ∧ longest.length ≤ 255 :=
  ⟨by decide, Nat.le_of_eq longest_length⟩

/-- The window after 127 is 1 to 4. -/
theorem witness_ParsedFrameStoredOrDropped :
    reading.cur = some 0 ∧ ([5] : List Byte).length ≤ 255 ∧
      [1, 4].all (fun n : Seq => n != 0 && inRange hw reading.lastIndex (seqByte n)) = true ∧
      [5, 127].all (fun n : Seq => n != 0 && !inRange hw reading.lastIndex (seqByte n)) = true ∧
      [1, 127].all (fun low : Seq => low != 0) = true := by decide

theorem witness_DataErrorFrameNegAcked :
    ([1] : List Byte).length ≤ 255 ∧ [1, 127].all (fun n : Seq => n != 0) = true := by decide

theorem witness_ReadStepStallsInOrder :
    State.reset.rxq = [] ∧ (∃ s : State, s.inAck ≠ 0x00) ∧ (∃ s : State, s.outAck ≠ 0x00) ∧
      ∃ s : State, s.rxq ≠ [] ∧ s.inAck = 0x00 ∧ s.outAck = 0x00 ∧ s.cur = none ∧
        ∀ x ∈ (cleanup hw s).ib, x.st ≠ .free :=
  ⟨rfl, ⟨{ full with inAck := 1 }, by decide⟩, ⟨{ full with outAck := 1 }, by decide⟩,
    ⟨{ full with rxq := [0x0A] }, by decide⟩⟩

/-- The Reader's slot is new in the first case and held in the others; the four statuses are an
incomplete header, noise, a whole frame and a frame with a wrong last byte. -/
theorem witness_ReadStepConsumesOneByte :
    (∃ ib, ReaderSlot State.reset 0 ib) ∧ ReaderSlot reading 0 reading.ib ∧
      (∃ x, reading.ib[0]? = some x ∧ (run hw x.hist).1 = .incomplete) ∧ reading.inAck = 0x00 ∧ reading.outAck = 0x00 ∧
      [[0x0A], [0x55], [0x0A, 0x3C, 0x00, 0x01, 0x00, 0x47, 0x24, 0x00, 0x00],
        [0x0A, 0x3C, 0x00, 0x01, 0x00, 0x47, 0x24, 0x00, 0x01]].map
          (fun h => (parseHistory hw h).status) =
        [.incomplete, .headerError, .parsed, .dataError] := by
  refine ⟨⟨_, .inr ⟨rfl, _, rfl, ?_, rfl⟩⟩, .inl ⟨rfl, rfl⟩, ⟨_, rfl, rfl⟩, rfl, rfl, by decide⟩
  exact lowest_of_search _ (fun y : InSlot => y.st = .free) _ (by decide)

/-- `TICK` sends the pending ack; an ack that a frame already carries keeps `in_ack` pending (WR16). -/
theorem witness_PendingAckIsNeverLost :
    (∃ s t : State, s.inAck ≠ 0x00 ∧ exec .tick s = .next t ∧ t.inAck = 0x00) ∧
      (∃ s t : State, s.inAck ≠ 0x00 ∧ exec .writeStep s = .next t ∧ t.inAck = s.inAck) ∧
      (∃ s : State, s.outAck ≠ 0x00) ∧
      LeavesAcks .readStep ∧ LeavesAcks .receive ∧ LeavesAcks (.transmit [1]) ∧
      LeavesAcks (.reserved80 127) := by
  refine ⟨⟨{ sent123 with inAck := 2 }, _, by decide, rfl, by decide⟩,
    ⟨{ sent123 with
      inAck := 7, ob := [{ frame true 1 1 with ack := 5 }, frame false 2 2, frame false 3 3,
        OutSlot.freed] }, _, by decide, rfl, by decide⟩,
    ⟨{ full with outAck := 1 }, by decide⟩, ?_⟩
  unfold LeavesAcks
  decide

/-- A slot with the beginning of a frame, and the empty one a `READ_STEP` begins with. -/
theorem witness_ParseCharRunsThenResyncs :
    (∃ x, reading.ib[0]? = some x ∧ (run hw x.hist).1 = .incomplete) ∧
      (run hw [0x0A, 0x3C, 0x00]).1 = .incomplete := by
  refine ⟨⟨_, rfl, rfl⟩, by decide⟩

/-- 100001 microseconds after, across the wrap of the time input, and exactly 100000. -/
theorem witness_TimeoutMarksEveryLiveFrame :
    100000 < ((99991 : Time).toNat + 2 ^ 64 - ((0 : Time) - 10).toNat) % 2 ^ 64 ∧
      ((99990 : Time).toNat + 2 ^ 64 - ((0 : Time) - 10).toNat) % 2 ^ 64 ≤ 100000 ∧
      (∃ x ∈ sent123.ob, x.live = true) ∧ ¬∃ x ∈ active.ob, x.live = true := by decide

theorem witness_WriteStepSendsAtMostOneFrame :
    (nextPacket hw (wrTimeout hw 0 (wrDrain hw State.reset))).2 = some 0 ∧
      ((nextPacket hw (wrTimeout hw 0 (wrDrain hw { active with inAck := 2 }))).2 = none ∧
        (wrTimeout hw 0 (wrDrain hw { active with inAck := 2 })).inAck ≠ 0x00) ∧
      (nextPacket hw (wrTimeout hw 0 (wrDrain hw active))).2 = none ∧
      (wrTimeout hw 0 (wrDrain hw active)).inAck = 0x00 := by decide

theorem witness_OnlyThreeKindsOfFrameAreSent : ∃ s : State, s.Inv := ⟨sent1234, sent1234_inv⟩

theorem witness_TickLeavesHostSideAlone : ∃ s t : State, exec .tick s = .next t ∧
    s.cmds ≠ [] ∧ t.txs ≠ s.txs :=
  ⟨{ State.reset with cmds := [[0x01]] }, _, rfl, by decide, by decide⟩

theorem witness_TicksIsConsecutiveTicks : ∃ (s : State) (rest : List (List Byte)),
    s.cmds = List.replicate (1 + 1) [0x01] ++ rest ∧ s.env ≠ [] :=
  ⟨{ State.reset with
      cmds := [[0x01], [0x01], [0x03]], env := [{ rx := [0x55], time := some 9 }] }, [[0x03]],
    by decide⟩

theorem witness_InitializedReadsBothFlags :
    (active.rdStarted = true ∧ active.wrStarted = true) ∧ State.reset.rdStarted = false := by decide

theorem witness_OnlyResetEndsTheConnection : ∃ t, exec .tick active = .next t ∧
    Instr.tick ≠ .reset ∧ active.wrStarted = true ∧ active.rdStarted = true :=
  ⟨_, rfl, by decide, rfl, rfl⟩

theorem witness_RefusedIsNeverCleared :
    (∃ s t : State, step s = .next t ∧ s.refused = true) ∧
      ∃ s t : State, step s = .next t ∧ s.refused = false ∧ t.refused = true :=
  ⟨⟨{ State.reset with refused := true, cmds := [[0x00]] }, _, rfl, rfl⟩,
    ⟨{ State.reset with cmds := [[0x05]] }, _, rfl, rfl, rfl⟩⟩

theorem witness_OnlyReadsTakeBytes : ∃ t, exec .writeStep { active with rxq := [1] } = .next t ∧
    Instr.writeStep ≠ .tick ∧ Instr.writeStep ≠ .readStep ∧ ∀ n, Instr.writeStep ≠ .ticks n :=
  ⟨_, rfl, by decide, by decide, fun n h => by cases h⟩

theorem witness_StepRunsTheDecodedCommand : ∃ (s : State) (rest : List (List Byte)),
    (envTurn s).cmds = [0x12, 0x80] :: rest ∧ decodeCommand [0x12, 0x80] = .ok (.peekPacket 0x80) :=
  ⟨{ State.reset with cmds := [[0x12, 0x80]] }, [], rfl, by decide⟩

theorem witness_IdleStepChangesNothing : ∃ s : State, s.cmds = [] ∧ s.env ≠ [] :=
  ⟨{ State.reset with env := [{ rx := [0x0A], time := none }] }, rfl, by decide⟩

theorem witness_StepKeepsInvariants : ∃ s t : State, s.Inv ∧ step s = .next t :=
  ⟨sent1234, _, sent1234_inv, rfl⟩

end Sys2Proof.Tests
end

/-! PROOFS. Events, results and transmitted bytes are outputs only (00_scope.md R11,
60_exceptions.md R122, 46_pair_and_host.md R112). Laws/Outputs.lean has every operation commute with
`Outside.around`; here that reaches every instruction, and a state with given records is the state
without records, with those put around it. -/

namespace Sys2Proof.Proofs

open Sys2Proof.Machine Sys2Proof.Statements

/-! ### Commands that give a result -/

theorem around_transmit (o : Outside) (data : List Byte) (s : State) :
    transmit hw data (o.around s) = o.around (transmit hw data s) := by
  unfold transmit
  rw [around_addToOutgoingQueue, around_giveResult]

theorem around_receive (o : Outside) (s : State) :
    receive hw (o.around s) = o.around (receive hw s) := by
  unfold receive
  rw [around_popPacket, around_giveResult]

/-- `READ_STEP` (R118): one `Read`, and its answer as the result. -/
theorem around_readStep (o : Outside) (s : State) :
    giveResult [flagByte (readerStep hw (o.around s)).2] (readerStep hw (o.around s)).1 =
      o.around (giveResult [flagByte (readerStep hw s).2] (readerStep hw s).1) := by
  rw [around_readerStep, around_giveResult]

/-! ### Instructions -/

/-- Every instruction is a function of the state that commutes with what stands outside. A result
`INITIALIZED` or a `PEEK` gives reads no record, so both sides append the same bytes. -/
theorem exec_commutes_around (i : Instr) :
    ∃ f : State → State, (∀ s, exec i s = .next (f s)) ∧
      ∀ (o : Outside) (s : State), f (o.around s) = o.around (f s) := by
  have hrefuse (o : Outside) (s : State) : refuse (o.around s) = o.around (refuse s) := rfl
  have hframe (fin : FrameEnd) (v : View) (o : Outside) := around_rdFrame o hw fin v
  have hack (k : AckClass) (o : Outside) := around_wrConsume o hw k
  cases i with
  | reset => exact ⟨resetCore hw, fun _ => rfl, fun _ _ => rfl⟩
  | tick => exact ⟨tick hw, fun _ => rfl, fun o => around_tick o hw⟩
  | transmit data => exact ⟨transmit hw data, fun _ => rfl, fun o => around_transmit o data⟩
  | receive => exact ⟨receive hw, fun _ => rfl, around_receive⟩
  | initialized => exact ⟨_, fun _ => rfl, fun o s => around_giveResult o _ s⟩
  | readStep => exact ⟨_, fun _ => rfl, around_readStep⟩
  | writeStep => exact ⟨writerStep hw, fun _ => rfl, fun o => around_writerStep o hw⟩
  | peekPacket _ => exact ⟨_, fun _ => rfl, fun o s => around_giveResult o _ s⟩
  | peekResendPacket => exact ⟨_, fun _ => rfl, fun o s => around_giveResult o _ s⟩
  | reserved05 => exact ⟨refuse, fun _ => rfl, hrefuse⟩
  | reserved06 _ => exact ⟨refuse, fun _ => rfl, hrefuse⟩
  | reserved08 _ => exact ⟨refuse, fun _ => rfl, hrefuse⟩
  | reserved14 _ => exact ⟨refuse, fun _ => rfl, hrefuse⟩
  | reserved18 _ => exact ⟨refuse, fun _ => rfl, hrefuse⟩
  | reserved20 _ => exact ⟨refuse, fun _ => rfl, hrefuse⟩
  | reserved40 _ => exact ⟨refuse, fun _ => rfl, hrefuse⟩
  | reserved80 _ => exact ⟨refuse, fun _ => rfl, hrefuse⟩
  | ticks n => exact ⟨ticks hw n, fun _ => rfl, fun o => around_ticks o hw n⟩
  | frameAckonly fin _ _ => exact ⟨_, fun _ => rfl, hframe fin _⟩
  | frameData fin _ _ _ => exact ⟨_, fun _ => rfl, hframe fin _⟩
  | frameHandshake fin _ _ => exact ⟨_, fun _ => rfl, hframe fin _⟩
  | frameResv fin _ _ _ => exact ⟨_, fun _ => rfl, hframe fin _⟩
  | frameHeaderError => exact ⟨rdHeaderError, fun _ => rfl, fun o => around_recordEvent o _ _⟩
  | ackEmpty => exact ⟨_, fun _ => rfl, hack .empty⟩
  | ackStart => exact ⟨_, fun _ => rfl, hack .start⟩
  | ackPos n => exact ⟨_, fun _ => rfl, hack (.pos n)⟩
  | ackNeg n => exact ⟨_, fun _ => rfl, hack (.neg n)⟩

/-! ### Records -/

/-- The state with nothing recorded yet. -/
def withoutRecords (s : State) : State := { s with events := [], results := [], txs := [] }

/-- A state whose records hold anything is the state without records, with
those in front. -/
theorem around_withoutRecords (s : State) (events : List Machine.Event) (results : List (List Byte))
    (txs : List Byte) :
    Outside.around ⟨events, results, txs, s.cmds⟩ (withoutRecords s) =
      { s with events := events, results := results, txs := txs } := by
  simp [Outside.around, withoutRecords]

/-- Settles O48: what the instruction does to the state without records is what it does behind
any records. -/
theorem outputsInfluenceNothing : Obligations.OutputsInfluenceNothing := by
  intro i s
  obtain ⟨f, hexec, haround⟩ := exec_commutes_around i
  refine ⟨{ f (withoutRecords s) with cmds := s.cmds }, (f (withoutRecords s)).events,
    (f (withoutRecords s)).results, (f (withoutRecords s)).txs, fun events results txs => ?_⟩
  rw [← around_withoutRecords, hexec, haround]
  rfl

end Sys2Proof.Proofs

/-! PROOFS. The state's own rules (10_state.md): the invariants of R37 at reset and at every step,
the mark `refused` of R31, and the pending acks of R24 and R25. `CommandEffect` says once what a host
command can do; each of the three step statements is one case analysis of it. -/

namespace Sys2Proof.Proofs

open Sys2Proof.Machine Sys2Proof.Statements

/-! ### What a host command can do -/

/-- What a host command does to the state (R60, R61, R127): the six commands with a meaning of their
own, a command that only answers, and a reserved opcode. -/
inductive CommandEffect : Instr → State → State → Prop
  | reset (s : State) : CommandEffect .reset s (resetCore hw s)
  | tick (s : State) : CommandEffect .tick s (tick hw s)
  | transmit (data : List Byte) (s : State) : CommandEffect (.transmit data) s (transmit hw data s)
  | receive (s : State) : CommandEffect .receive s (receive hw s)
  | readStep (s : State) : CommandEffect .readStep s
      (giveResult [flagByte (readerStep hw s).2] (readerStep hw s).1)
  | writeStep (s : State) : CommandEffect .writeStep s (writerStep hw s)
  | answer (i : Instr) (bytes : List Byte) (s : State) : CommandEffect i s (giveResult bytes s)
  | reserved {op : Byte} {i : Instr} (h : reservedRow op = some i) (s : State) :
      CommandEffect i s (refuse s)

theorem exec_command {i : Instr} (hc : channelOf i = .command) (s : State) :
    ∃ t, exec i s = .next t ∧ CommandEffect i s t := by
  cases i with
  | reset => exact ⟨_, rfl, .reset s⟩
  | tick => exact ⟨_, rfl, .tick s⟩
  | transmit data => exact ⟨_, rfl, .transmit data s⟩
  | receive => exact ⟨_, rfl, .receive s⟩
  | readStep => exact ⟨_, rfl, .readStep s⟩
  | writeStep => exact ⟨_, rfl, .writeStep s⟩
  | initialized => exact ⟨_, rfl, .answer _ _ s⟩
  | peekPacket _ => exact ⟨_, rfl, .answer _ _ s⟩
  | peekResendPacket => exact ⟨_, rfl, .answer _ _ s⟩
  | reserved05 => exact ⟨_, rfl, .reserved (op := 0x05) rfl s⟩
  | reserved06 low =>
    exact ⟨_, rfl, .reserved (op := 0x06 ||| low.setWidth 8) (by revert low; decide) s⟩
  | reserved08 low =>
    exact ⟨_, rfl, .reserved (op := 0x08 ||| low.setWidth 8) (by revert low; decide) s⟩
  | reserved14 low =>
    exact ⟨_, rfl, .reserved (op := 0x14 ||| low.setWidth 8) (by revert low; decide) s⟩
  | reserved18 low =>
    exact ⟨_, rfl, .reserved (op := 0x18 ||| low.setWidth 8) (by revert low; decide) s⟩
  | reserved20 low =>
    exact ⟨_, rfl, .reserved (op := 0x20 ||| low.setWidth 8) (by revert low; decide) s⟩
  | reserved40 low =>
    exact ⟨_, rfl, .reserved (op := 0x40 ||| low.setWidth 8) (by revert low; decide) s⟩
  | reserved80 low =>
    exact ⟨_, rfl, .reserved (op := 0x80 ||| low.setWidth 8) (by revert low; decide) s⟩
  | ticks _ | frameAckonly _ _ _ | frameData _ _ _ _ | frameHandshake _ _ _ | frameResv _ _ _ _
  | frameHeaderError | ackEmpty | ackStart | ackPos _ | ackNeg _ => nomatch hc

theorem commandEffect_of_exec {i : Instr} {s t : State} (hc : channelOf i = .command)
    (h : exec i s = .next t) : CommandEffect i s t := by
  obtain ⟨u, hu, heff⟩ := exec_command hc s
  rw [hu] at h
  exact Host.Outcome.next.inj h ▸ heff

/-- A step is a boundary, then either nothing, or a well-formed command's effect, or the refusal of a
string that does not decode (R59, R61, R110, R133). -/
theorem step_effect {s t : State} (h : step s = .next t) :
    t = envTurn s ∨ ∃ bytes rest, s.cmds = bytes :: rest ∧
      ((∃ i, i.wellFormed = true ∧ decodeCommand bytes = .ok i ∧
          CommandEffect i { envTurn s with cmds := rest } t) ∨
        ∃ e, decodeCommand bytes = .error e ∧ t = refuse { envTurn s with cmds := rest }) := by
  rcases step_cases s with ⟨_, hs⟩ | ⟨bytes, rest, hcmds, hs⟩
  · exact .inl (Host.Outcome.next.inj (h.symm.trans hs))
  · rw [hs, runCommand] at h
    refine .inr ⟨bytes, rest, hcmds, ?_⟩
    cases hd : decodeCommand bytes with
    | ok i =>
      rw [hd] at h
      obtain ⟨hwf, hc, _⟩ := encode_decodeCommand hd
      exact .inl ⟨i, hwf, rfl, commandEffect_of_exec hc h⟩
    | error e =>
      rw [hd] at h
      exact .inr ⟨e, rfl, (Host.Outcome.next.inj h).symm⟩

/-! ### What `RECEIVE`, `TRANSMIT` and a stalled `Read` leave unchanged -/

theorem popPacket_readerFrame (s : State) : ReaderFrame s (popPacket hw s).1 := by
  rcases popPacket_cases hw s with ⟨hp, _⟩ | ⟨_, i, x, _, _, _, _, hp⟩ <;> rw [hp]
  · exact .refl s
  · exact (setInSlot_readerFrame i InSlot.freed s).trans ⟨rfl, rfl, rfl, rfl, rfl, rfl, rfl, rfl, rfl⟩

theorem popPacket_outAck (s : State) : (popPacket hw s).1.outAck = s.outAck := by
  rcases popPacket_cases hw s with ⟨hp, _⟩ | ⟨_, i, x, _, _, _, _, hp⟩ <;> rw [hp]
  rfl

/-- A pending `in_ack` holds delivery back (R85 (b)). -/
theorem popPacket_of_pending {s : State} (h : s.inAck ≠ 0x00) : popPacket hw s = (s, none) := by
  rcases popPacket_cases hw s with ⟨hp, _⟩ | ⟨h0, _⟩
  · exact hp
  · exact absurd h0 h

theorem addToOutgoingQueue_writerFrame (data : List Byte) (s : State) :
    WriterFrame s (addToOutgoingQueue hw data s).1 := by
  rcases addToOutgoingQueue_cases data s with ⟨_, he⟩ | ⟨_, _, he⟩ | ⟨_, j, x, _, _, _, he⟩ <;>
    rw [he]
  · exact .refl s
  · constructor <;> rfl
  · constructor <;> rfl

theorem addToOutgoingQueue_acks (data : List Byte) (s : State) :
    (addToOutgoingQueue hw data s).1.inAck = s.inAck ∧
      (addToOutgoingQueue hw data s).1.outAck = s.outAck := by
  rcases addToOutgoingQueue_cases data s with ⟨_, he⟩ | ⟨_, _, he⟩ | ⟨_, j, x, _, _, _, he⟩ <;>
    rw [he] <;> exact ⟨rfl, rfl⟩

/-- A pending ack stalls the Reader (R98). -/
theorem readerStep_of_pending {s : State} (h : s.inAck ≠ 0x00 ∨ s.outAck ≠ 0x00) :
    readerStep hw s = (s, false) := by
  rcases readerStep_cases hw s with ⟨hs, _⟩ | ⟨_, _, _, hin, hout, _⟩
  · exact hs
  · exact absurd h (by simp [hin, hout])

/-! ### The invariants (R37) -/

/-- The invariants read seven registers only. -/
theorem inv_congr {s t : State} (h : s.Inv) (hib : t.ib = s.ib) (hlast : t.lastIndex = s.lastIndex)
    (hcur : t.cur = s.cur) (hob : t.ob = s.ob) (hnext : t.nextSend = s.nextSend)
    (hwr : t.wrStarted = s.wrStarted) (hearliest : t.earliest = s.earliest) : t.Inv := by
  obtain ⟨hin, hout⟩ := (inv_iff s).1 h
  exact (inv_iff t).2 ⟨hin.congr hib hlast hcur, hout.congr hob hnext hwr hearliest⟩

/-- Settles O52: the inbound slots are FREE and the Reader holds none; the outbound slots are the
handshake frame and free ones. -/
theorem resetSatisfiesInvariants : Obligations.ResetSatisfiesInvariants := by
  have hib : ∀ x ∈ State.reset.ib, x = InSlot.freed := fun x hx => List.eq_of_mem_replicate hx
  constructor
  case ibCount => rfl
  case obCount => rfl
  case lastIndexOnWheel => decide
  case nextSendOnWheel => decide
  case curExists => exact nofun
  case fillingIsCur =>
    intro i hi
    rw [hib _ (List.mem_of_getElem? (getElem_inSlot hi))]
    exact ⟨nofun, nofun⟩
  case inSlotsOk => exact fun x hx => hib x hx ▸ freed_inSlot_ok
  case outSlotsOk =>
    intro x hx
    rcases List.mem_cons.1 hx with rfl | hx
    · exact ⟨rfl, rfl, rfl⟩
    · exact List.eq_of_mem_replicate hx ▸ freed_outSlot_ok _
  case earliestBefore => exact ⟨fun _ => rfl, fun _ => rfl⟩
  case earliestAfter => exact nofun

/-- `RESET` gives every register of R37 its value at power-on, from any state (R134). -/
theorem resetCore_inv (s : State) : (resetCore hw s).Inv :=
  inv_congr resetSatisfiesInvariants rfl rfl rfl rfl rfl rfl rfl

theorem giveResult_inv {s : State} (h : s.Inv) (bytes : List Byte) : (giveResult bytes s).Inv :=
  inv_congr h rfl rfl rfl rfl rfl rfl rfl

theorem refuse_inv {s : State} (h : s.Inv) : (refuse s).Inv :=
  inv_congr h rfl rfl rfl rfl rfl rfl rfl

theorem envTurn_inv {s : State} (h : s.Inv) : (envTurn s).Inv :=
  inv_congr h (envTurn_ib s) (envTurn_lastIndex s) (envTurn_cur s) (envTurn_ob s)
    (envTurn_nextSend s) (envTurn_wrStarted s) (envTurn_earliest s)

theorem readerStep_inv {s : State} (h : s.Inv) : (readerStep hw s).1.Inv := by
  obtain ⟨hin, hout⟩ := (inv_iff s).1 h
  exact (inv_iff _).2 ⟨readerStep_invIn hin, hout.reader (readerStep_readerFrame hw s)⟩

theorem readLoop_inv (n : Nat) {s : State} (h : s.Inv) : (readLoop hw n s).Inv := by
  obtain ⟨hin, hout⟩ := (inv_iff s).1 h
  exact (inv_iff _).2 ⟨readLoop_invIn n hin, hout.reader (readLoop_readerFrame hw n s)⟩

theorem writerStep_inv {s : State} (h : s.Inv) : (writerStep hw s).Inv := by
  obtain ⟨hin, hout⟩ := (inv_iff s).1 h
  exact (inv_iff _).2 ⟨hin.writer (writerStep_writerFrame hw s), writerStep_invOut hout⟩

theorem tick_inv {s : State} (h : s.Inv) : (tick hw s).Inv :=
  writerStep_inv (envTurn_inv (readLoop_inv _ h))

theorem popPacket_inv {s : State} (h : s.Inv) : (popPacket hw s).1.Inv := by
  obtain ⟨hin, hout⟩ := (inv_iff s).1 h
  exact (inv_iff _).2 ⟨popPacket_invIn hin, hout.reader (popPacket_readerFrame s)⟩

/-- A queued payload fits its length byte, because the command that brings it is well formed (R60). -/
theorem addToOutgoingQueue_inv {s : State} (h : s.Inv) {data : List Byte} (hd : data.length ≤ 255) :
    (addToOutgoingQueue hw data s).1.Inv := by
  obtain ⟨hin, hout⟩ := (inv_iff s).1 h
  exact (inv_iff _).2
    ⟨hin.writer (addToOutgoingQueue_writerFrame data s), addToOutgoingQueue_invOut hout hd⟩

theorem commandEffect_inv {i : Instr} {s t : State} (heff : CommandEffect i s t)
    (hwf : i.wellFormed = true) (h : s.Inv) : t.Inv := by
  cases heff with
  | reset => exact resetCore_inv s
  | tick => exact tick_inv h
  | transmit data =>
    have hlen : data.length ≤ 255 := (Laws.payloadFits_iff data).1 hwf
    exact giveResult_inv (addToOutgoingQueue_inv h hlen) _
  | receive => exact giveResult_inv (popPacket_inv h) _
  | readStep => exact giveResult_inv (readerStep_inv h) _
  | writeStep => exact writerStep_inv h
  | answer => exact giveResult_inv h _
  | reserved => exact refuse_inv h

/-- Settles O53: the boundary, the taking of a command, every command's effect and the refusal each
keep the invariants. -/
theorem stepKeepsInvariants : Obligations.StepKeepsInvariants := by
  intro s t h hstep
  have htaken (rest : List (List Byte)) : ({ envTurn s with cmds := rest } : State).Inv :=
    inv_congr (envTurn_inv h) rfl rfl rfl rfl rfl rfl rfl
  rcases step_effect hstep with rfl | ⟨bytes, rest, _, ⟨i, hwf, _, heff⟩ | ⟨e, _, rfl⟩⟩
  · exact envTurn_inv h
  · exact commandEffect_inv heff hwf (htaken rest)
  · exact refuse_inv (htaken rest)

/-! ### The mark `refused` (R31, R61) -/

/-- No command but a reserved opcode writes the mark. -/
theorem commandEffect_refused {i : Instr} {s t : State} (heff : CommandEffect i s t) :
    t.refused = s.refused ∨ t.refused = true ∧ ∃ op, reservedRow op = some i := by
  cases heff with
  | reset => exact .inl rfl
  | tick => exact .inl (tick_hostFrame hw s).2.2
  | transmit data => exact .inl (addToOutgoingQueue_writerFrame data s).refused
  | receive => exact .inl (popPacket_readerFrame s).refused
  | readStep => exact .inl (readerStep_readerFrame hw s).refused
  | writeStep => exact .inl (writerStep_writerFrame hw s).refused
  | answer => exact .inl rfl
  | reserved hrow => exact .inr ⟨rfl, _, hrow⟩

/-- A reserved opcode is refused whatever follows it. -/
theorem refusedCommand_of_reservedRow {op : Byte} {i : Instr} (h : reservedRow op = some i)
    (operands : List Byte) : RefusedCommand (op :: operands) := by
  have hop := (reservedRow_isSome op).1 (by rw [h]; rfl)
  refine .inr ⟨op, operands, rfl, ?_⟩
  rcases hop with hlow | hhigh
  · exact .inl hlow
  · exact .inr (.inl hhigh)

theorem decodeBare_error {i : Instr} {operands : List Byte} {e : DecodeError}
    (h : decodeBare i operands = .error e) : operands.length ≠ 0 := by
  cases operands with
  | nil => cases h
  | cons b rest => simp

theorem decodeTransmit_error {operands : List Byte} {e : DecodeError}
    (h : decodeTransmit operands = .error e) (len : Byte) (data : List Byte)
    (ho : operands = len :: data) : data.length ≠ len.toNat := by
  subst ho
  intro hlen
  rw [decodeTransmit, if_pos hlen] at h
  cases h

theorem decodePeek_error {operands : List Byte} {e : DecodeError}
    (h : decodePeek operands = .error e) : operands.length ≠ 1 := by
  intro hlen
  obtain ⟨idx, rfl⟩ := List.length_eq_one_iff.1 hlen
  cases h

/-- The opcodes without a reserved row are those of R60: `TRANSMIT`, `PEEK_PACKET`, and the commands
without operands. -/
theorem reservedRow_none {op : Byte} (h : reservedRow op = none) :
    op = 0x02 ∨ op = 0x12 ∨ op ∈ [0x00, 0x01, 0x03, 0x04, 0x10, 0x11, 0x13] := by
  revert op; decide

/-- What does not decode is what R61 refuses. -/
theorem refusedCommand_of_error {bytes : List Byte} {e : DecodeError}
    (h : decodeCommand bytes = .error e) : RefusedCommand bytes := by
  cases bytes with
  | nil => exact .inl rfl
  | cons op operands =>
    cases hrow : reservedRow op with
    | some i => exact refusedCommand_of_reservedRow hrow operands
    | none =>
      refine .inr ⟨op, operands, rfl, .inr (.inr ?_)⟩
      rcases reservedRow_none hrow with rfl | rfl | hbare
      · exact .inr (.inr ⟨rfl, decodeTransmit_error h⟩)
      · exact .inr (.inl ⟨rfl, decodePeek_error h⟩)
      · simp only [List.mem_cons, List.not_mem_nil, or_false] at hbare
        rcases hbare with rfl | rfl | rfl | rfl | rfl | rfl | rfl <;>
          exact .inl ⟨by decide, decodeBare_error h⟩

/-- A step leaves the mark, or sets it for a command that R61 refuses: of what a step can do, only a
reserved opcode and a string that does not decode write it. -/
theorem step_refused {s t : State} (h : step s = .next t) :
    t.refused = s.refused ∨ t.refused = true ∧
      ∃ bytes rest, s.cmds = bytes :: rest ∧ RefusedCommand bytes := by
  rcases step_effect h with rfl | ⟨bytes, rest, hcmds, ⟨i, _, hdec, heff⟩ | ⟨e, herr, rfl⟩⟩
  · exact .inl (envTurn_refused s)
  · rcases commandEffect_refused heff with hsame | ⟨hset, op, hrow⟩
    · exact .inl (hsame.trans (envTurn_refused s))
    · have hbytes : [op] = bytes :=
        (reservedRow_encode hrow).2.2.symm.trans (encode_decodeCommand hdec).2.2
      exact .inr ⟨hset, bytes, rest, hcmds, hbytes ▸ refusedCommand_of_reservedRow hrow []⟩
  · exact .inr ⟨rfl, bytes, rest, hcmds, refusedCommand_of_error herr⟩

/-- Settles O47, by the two things a step can do to the mark. -/
theorem refusedIsNeverCleared : Obligations.RefusedIsNeverCleared := by
  intro s t hstep
  rw [envTurn_cmds]
  rcases step_refused hstep with hsame | ⟨hset, hrefused⟩
  · rw [hsame]
    exact ⟨id, fun hclear hset => absurd (hclear.symm.trans hset) Bool.false_ne_true⟩
  · exact ⟨fun _ => hset, fun _ _ => hrefused⟩

/-! ### Pending acks (R24, R25) -/

/-- With an ack pending, a command that neither resets CORE nor makes the Writer act keeps it: the
Reader stalls (R98) and nothing is delivered while `in_ack` is pending (R85 (b)). -/
theorem commandEffect_keepsAcks {i : Instr} {s t : State} (heff : CommandEffect i s t)
    (hi : LeavesAcks i) :
    (s.inAck ≠ 0x00 → t.inAck = s.inAck) ∧ (s.outAck ≠ 0x00 → t.outAck = s.outAck) := by
  obtain ⟨_, hreset, htick, hwrite⟩ := hi
  cases heff with
  | reset => exact absurd rfl hreset
  | tick => exact absurd rfl htick
  | writeStep => exact absurd rfl hwrite
  | transmit data =>
    obtain ⟨hin, hout⟩ := addToOutgoingQueue_acks data s
    exact ⟨fun _ => hin, fun _ => hout⟩
  | receive =>
    refine ⟨fun h => ?_, fun _ => popPacket_outAck s⟩
    simp [receive, popPacket_of_pending h]
  | readStep =>
    refine ⟨fun h => ?_, fun h => ?_⟩
    · simp [readerStep_of_pending (.inl h)]
    · simp [readerStep_of_pending (.inr h)]
  | answer => exact ⟨fun _ => rfl, fun _ => rfl⟩
  | reserved => exact ⟨fun _ => rfl, fun _ => rfl⟩

/-- The ack row of `out_ack` is the Writer's first step (R104). -/
theorem exec_ackInstr (s : State) : exec (ackInstr hw s.outAck) s = .next (wrDrain hw s) := by
  unfold ackInstr wrDrain
  cases ackClass hw s.outAck <;> rfl

/-- Consuming an ack neither takes `in_ack` nor sends, and any ack but the empty one is gone after. -/
theorem wrConsume_acks (k : AckClass) (s : State) :
    (wrConsume hw k s).inAck = s.inAck ∧ (wrConsume hw k s).txs = s.txs ∧
      (k ≠ .empty → (wrConsume hw k s).outAck = 0x00) := by
  cases k with
  | empty => exact ⟨rfl, rfl, fun hk => absurd rfl hk⟩
  | start => dsimp only [wrConsume]; split <;> exact ⟨rfl, rfl, fun _ => rfl⟩
  | pos n => exact ⟨rfl, rfl, fun _ => rfl⟩
  | neg n => exact ⟨rfl, rfl, fun _ => rfl⟩

theorem ackClass_ne_empty {k : Byte} (h : k ≠ 0x00) : ackClass hw k ≠ .empty := by
  unfold ackClass
  rw [if_neg h]
  repeat' split
  all_goals exact nofun

theorem wrDrain_of_empty {s : State} (h : s.outAck = 0x00) : wrDrain hw s = s := by
  rw [wrDrain, h, ackClass_empty, wrConsume]

theorem wrDrain_outAck (s : State) : (wrDrain hw s).outAck = 0x00 := by
  by_cases h : s.outAck = 0x00
  · rw [wrDrain_of_empty h, h]
  · obtain ⟨_, _, hout⟩ := wrConsume_acks (ackClass hw s.outAck) s
    exact hout (ackClass_ne_empty h)

/-- `Write` begins with the ack row; done before it, the row is not done again (R103, R104). -/
theorem writerStep_wrDrain (s : State) : writerStep hw (wrDrain hw s) = writerStep hw s := by
  have htime : now (wrDrain hw s) = now s := (wrDrain_writerFrame hw s).time
  simp only [writerStep, htime, wrDrain_of_empty (wrDrain_outAck s)]

theorem wrTimeout_acks (t : Time) (s : State) :
    (wrTimeout hw t s).inAck = s.inAck ∧ (wrTimeout hw t s).txs = s.txs := by
  rcases wrTimeout_cases hw t s with ⟨_, he⟩ | ⟨_, he⟩ <;> rw [he]
  exacts [⟨rfl, rfl⟩, ⟨rfl, rfl⟩]

/-- Between the states a pending `in_ack` was kept, or sent on a frame and emptied (R106, R107). -/
def AckKeptOrSent (s t : State) : Prop :=
  t.inAck = s.inAck ∨ t.inAck = 0x00 ∧ ∃ seq data, Sent s t (serialize hw s.inAck seq data)

theorem wrEmit_ackKeptOrSent {t : Time} {s : State} (h : s.inAck ≠ 0x00) :
    AckKeptOrSent s (wrEmit hw t s) := by
  rcases wrEmit_cases hw t s with ⟨j, hj, he⟩ | ⟨_, _, he⟩ | ⟨_, h0, _⟩
  · obtain ⟨x, hx, _⟩ := selectPacket_some hj
    rw [he, wrSend_eq t hx]
    by_cases hack : x.ack = 0x00
    · refine .inr ⟨if_pos hack, x.idx, bufRead x.data x.len.toNat, ?_⟩
      simp only [Sent, if_pos hack, updateNextIndex_inAck, updateNextIndex_txs]
    · exact .inl (if_neg hack)
  · rw [he]
    exact .inr ⟨rfl, hw.seqNone, [], rfl⟩
  · exact absurd h0 h

theorem writerStep_ackKeptOrSent {s : State} (h : s.inAck ≠ 0x00) :
    AckKeptOrSent s (writerStep hw s) := by
  obtain ⟨hdrainAck, hdrainTxs, _⟩ := wrConsume_acks (ackClass hw s.outAck) s
  obtain ⟨htimeAck, htimeTxs⟩ := wrTimeout_acks (now s) (wrDrain hw s)
  have hack := htimeAck.trans hdrainAck
  have htxs := htimeTxs.trans hdrainTxs
  have hemit := wrEmit_ackKeptOrSent (t := now s) (hack ▸ h)
  simpa only [writerStep, AckKeptOrSent, Sent, hack, htxs] using hemit

/-- With an ack pending `TICK` reads nothing (R98, R114). -/
theorem tick_of_pending {s : State} (h : s.inAck ≠ 0x00 ∨ s.outAck ≠ 0x00) :
    tick hw s = writerStep hw (envTurn s) := by
  rw [tick, readLoop, readerStep_of_pending h]

theorem tick_ackKeptOrSent {s : State} (h : s.inAck ≠ 0x00) : AckKeptOrSent s (tick hw s) := by
  rw [tick_of_pending (.inl h)]
  simpa only [AckKeptOrSent, Sent, envTurn_inAck, envTurn_txs] using
    writerStep_ackKeptOrSent (s := envTurn s) (by rwa [envTurn_inAck])

/-- Settles O35, from the effect of a command that leaves the acks, from `Write` and from the stall
that a pending ack is for the Reader. -/
theorem pendingAckIsNeverLost : Obligations.PendingAckIsNeverLost := by
  intro s
  have hkeeps {i : Instr} {t : State} (hi : LeavesAcks i) (he : exec i s = .next t) :=
    commandEffect_keepsAcks (commandEffect_of_exec hi.1 he) hi
  refine ⟨fun hin => ⟨fun i t hi he => (hkeeps hi he).1 hin, ?_⟩,
    fun hout => ⟨fun i t hi he => (hkeeps hi he).2 hout, ?_⟩, ?_⟩
  · rintro i t (rfl | rfl) he
    · exact Host.Outcome.next.inj he ▸ writerStep_ackKeptOrSent hin
    · exact Host.Outcome.next.inj he ▸ tick_ackKeptOrSent hin
  · exact ⟨wrDrain hw s, exec_ackInstr s, wrDrain_outAck s,
      congrArg Host.Outcome.next (writerStep_wrDrain s).symm⟩
  · exact fun h => congrArg Host.Outcome.next (tick_of_pending h)

end Sys2Proof.Proofs

/-! PROOFS. The two ends of a link (20_memory.md R48, 60_exceptions.md R131, 30_encoding.md R65). What an
end runs is a function of its own state, whose transmitted bytes only grow: the other end is handed what
was appended and nothing else. -/

namespace Sys2Proof.Proofs

open Sys2Proof.Machine Sys2Proof.Statements

/-- No instruction takes a transmitted byte back (R112): the case of `outputsInfluenceNothing` where the
records are the state's own. -/
theorem exec_sends (i : Instr) (s : State) : ∃ t tx, exec i s = .next t ∧ Sent s t tx := by
  obtain ⟨_, _, _, tx, hexec⟩ := outputsInfluenceNothing i s
  exact ⟨_, tx, hexec s.events s.results s.txs, rfl⟩

theorem hostRun_of_exec {i : Instr} {s t : State} (h : exec i (envTurn s) = .next t) :
    hostRun i s = t := by
  rw [hostRun, h]

theorem newBytes_of_sent {s t : State} {tx : List Byte} (h : Sent s t tx) : newBytes s t = tx := by
  rw [newBytes, h, List.drop_left]

/-- Settles O55: the run of either end is `hostRun` of its own state, and the bytes delivered are those
`exec_sends` says were appended; the boundary before the instruction transmits nothing. -/
theorem linkedEndsShareNothing : Obligations.LinkedEndsShareNothing := by
  intro i s
  obtain ⟨t, tx, hexec, hsent⟩ := exec_sends i (envTurn s)
  rw [Sent, envTurn_txs] at hsent
  have hrun : hostRun i s = t := hostRun_of_exec hexec
  have hnew : newBytes s t = tx := newBytes_of_sent hsent
  refine ⟨t, tx, hexec, hsent, fun other => ⟨?_, ?_⟩⟩
  · simp only [linkRunA, hrun, hnew, deliver]
  · simp only [linkRunB, hrun, hnew, deliver]

end Sys2Proof.Proofs

/-! PROOFS. The instruction encoding (30_encoding.md): decode of encode for every row and encode of
decode for the command port, what R61 refuses, the classes of R54, `TICKS` as consecutive `TICK`s
(R65), and the frames a `Write` can send (R58). -/

namespace Sys2Proof.Proofs

open Sys2Proof.Machine Sys2Proof.Statements

/-! ### Decode and encode (R52 to R61) -/

/-- Settles O1: Laws/PerInstr.lean has the round trip of each row. -/
theorem decodeEncodeRoundTrip : Obligations.DecodeEncodeRoundTrip := by
  intro i
  cases i with
  | reset => exact Laws.RoundTrip.reset
  | tick => exact Laws.RoundTrip.tick
  | transmit data => exact Laws.RoundTrip.transmit data
  | receive => exact Laws.RoundTrip.receive
  | initialized => exact Laws.RoundTrip.initialized
  | reserved05 => exact Laws.RoundTrip.reserved05
  | reserved06 low => exact Laws.RoundTrip.reserved06 low
  | reserved08 low => exact Laws.RoundTrip.reserved08 low
  | readStep => exact Laws.RoundTrip.readStep
  | writeStep => exact Laws.RoundTrip.writeStep
  | peekPacket idx => exact Laws.RoundTrip.peekPacket idx
  | peekResendPacket => exact Laws.RoundTrip.peekResendPacket
  | reserved14 low => exact Laws.RoundTrip.reserved14 low
  | reserved18 low => exact Laws.RoundTrip.reserved18 low
  | reserved20 low => exact Laws.RoundTrip.reserved20 low
  | reserved40 low => exact Laws.RoundTrip.reserved40 low
  | reserved80 low => exact Laws.RoundTrip.reserved80 low
  | ticks n => exact Laws.RoundTrip.ticks n
  | frameAckonly fin ack data => exact Laws.RoundTrip.frameAckonly fin ack data
  | frameData fin ack n data => exact Laws.RoundTrip.frameData fin ack n data
  | frameHandshake fin ack data => exact Laws.RoundTrip.frameHandshake fin ack data
  | frameResv fin ack low data => exact Laws.RoundTrip.frameResv fin ack low data
  | frameHeaderError => exact Laws.RoundTrip.frameHeaderError
  | ackEmpty => exact Laws.RoundTrip.ackEmpty
  | ackStart => exact Laws.RoundTrip.ackStart
  | ackPos n => exact Laws.RoundTrip.ackPos n
  | ackNeg n => exact Laws.RoundTrip.ackNeg n

/-- Settles O2, by the cases of the opcode map in `encode_decodeCommand`. -/
theorem commandBytesReadExactly : Obligations.CommandBytesReadExactly :=
  fun _ _ h => encode_decodeCommand h

/-- Settles O3: six closed words, each decoded by evaluation. -/
theorem writtenOutWordsDecode : Obligations.WrittenOutWordsDecode :=
  ⟨by decide, by decide, by decide, by decide, by decide, by decide⟩

/-! ### The ack classes (R54) -/

/-- A byte that is neither 0x00 nor 0x80 is a positive or a negative ack by its high bit. -/
theorem ackClass_of_ne {k : Byte} (hempty : k ≠ 0x00) (hstart : k ≠ 0x80) :
    ackClass hw k = if 0x80 ≤ k.toNat then .neg (k.setWidth 7) else .pos (k.setWidth 7) := by
  have hne : isStartSequenceAck hw k = false := beq_eq_false_iff_ne.2 hstart
  simp only [ackClass, if_neg hempty, hne, Bool.false_eq_true, if_false, ackError, ackIndex,
    BitVec.msb_eq_decide, decide_eq_true_eq]

theorem ackClass_of_low {k : Byte} (hpos : 1 ≤ k.toNat) (hlow : k.toNat ≤ 0x7F) :
    ackClass hw k = .pos (k.setWidth 7) := by
  rw [ackClass_of_ne (by rintro rfl; contradiction) (by rintro rfl; contradiction),
    if_neg (by omega)]

theorem ackClass_of_high {k : Byte} (hhigh : 0x81 ≤ k.toNat) :
    ackClass hw k = .neg (k.setWidth 7) := by
  rw [ackClass_of_ne (by rintro rfl; contradiction) (by rintro rfl; contradiction),
    if_pos (by omega)]

/-- Settles O27: 0x00 and 0x80 are tested first; of the other bytes the high bit decides. -/
theorem ackByteClasses : Obligations.AckByteClasses := by
  refine ⟨?_, ?_, fun k => ⟨fun ⟨hpos, hlow⟩ => ?_, fun hhigh => ?_⟩⟩
  · rw [ackInstr, ackClass_empty]
  · rw [ackInstr, ackClass_start]
  · rw [ackInstr, ackClass_of_low hpos hlow]
  · rw [ackInstr, ackClass_of_high hhigh]

/-! ### A step runs the host's next command (R59, R61, R110) -/

theorem step_of_cmds {s : State} {bytes : List Byte} {rest : List (List Byte)}
    (h : (envTurn s).cmds = bytes :: rest) :
    step s = runCommand bytes { envTurn s with cmds := rest } := by
  rw [envTurn_cmds] at h
  rcases step_cases s with ⟨hnil, _⟩ | ⟨bytes', rest', hcons, hstep⟩
  · exact absurd (hnil.symm.trans h) nofun
  · obtain ⟨rfl, rfl⟩ := List.cons.inj (hcons.symm.trans h)
    exact hstep

theorem runCommand_of_ok {bytes : List Byte} {i : Instr} (h : decodeCommand bytes = .ok i)
    (s : State) : runCommand bytes s = exec i s := by
  rw [runCommand, h]

theorem runCommand_of_error {bytes : List Byte} {e : DecodeError}
    (h : decodeCommand bytes = .error e) (s : State) : runCommand bytes s = .next (refuse s) := by
  rw [runCommand, h]

/-- Settles O50, by what a step does with a waiting command. -/
theorem stepRunsTheDecodedCommand : Obligations.StepRunsTheDecodedCommand := by
  intro s bytes rest i hcmds hdec
  rw [step_of_cmds hcmds, runCommand_of_ok hdec]

/-! ### What R61 refuses -/

/-- Settles O5: each reserved row's arm is `Refuse`. -/
theorem reservedRowsOnlyMark : Obligations.ReservedRowsOnlyMark := fun _ =>
  ⟨rfl, fun _ => rfl, fun _ => rfl, fun _ => rfl, fun _ => rfl, fun _ => rfl, fun _ => rfl,
    fun _ => rfl⟩

theorem decodeBare_of_operands (i : Instr) {operands : List Byte} (h : operands.length ≠ 0) :
    decodeBare i operands = .error .wrongLength := by
  cases operands with
  | nil => exact absurd rfl h
  | cons b rest => rfl

theorem decodePeek_of_operands {operands : List Byte} (h : operands.length ≠ 1) :
    decodePeek operands = .error .wrongLength := by
  match operands, h with
  | [], _ => rfl
  | [_], h => exact absurd rfl h
  | _ :: _ :: _, _ => rfl

theorem decodeTransmit_of_operands {operands : List Byte}
    (h : ∀ len data, operands = len :: data → data.length ≠ len.toNat) :
    decodeTransmit operands = .error .wrongLength := by
  cases operands with
  | nil => rfl
  | cons len data => rw [decodeTransmit, if_neg (h len data rfl)]

/-- The commands that are their opcode byte alone (R60). -/
theorem decodeCommand_bare {op : Byte}
    (h : op.toNat ∈ [0x00, 0x01, 0x03, 0x04, 0x10, 0x11, 0x13]) :
    ∃ i, ∀ operands, decodeCommand (op :: operands) = decodeBare i operands := by
  have hop : op ∈ ([0x00, 0x01, 0x03, 0x04, 0x10, 0x11, 0x13] : List Byte) := by
    revert op; decide
  simp only [List.mem_cons, List.not_mem_nil, or_false] at hop
  rcases hop with rfl | rfl | rfl | rfl | rfl | rfl | rfl <;> exact ⟨_, fun _ => rfl⟩

/-- A reserved opcode is no command's, so the opcode map reaches its reserved row (R61). -/
theorem decodeCommand_reserved {op : Byte} {i : Instr} (h : reservedRow op = some i)
    (operands : List Byte) : decodeCommand (op :: operands) = decodeBare i operands := by
  have hop := (reservedRow_isSome op).1 (by rw [h]; rfl)
  have hne {c : Byte} (hc : c.toNat < 0x05 ∨ 0x0F < c.toNat ∧ c.toNat < 0x14) : op ≠ c := by
    rintro rfl; omega
  simp only [decodeCommand, h, if_neg (hne (c := 0x00) (by decide)),
    if_neg (hne (c := 0x01) (by decide)), if_neg (hne (c := 0x02) (by decide)),
    if_neg (hne (c := 0x03) (by decide)), if_neg (hne (c := 0x04) (by decide)),
    if_neg (hne (c := 0x10) (by decide)), if_neg (hne (c := 0x11) (by decide)),
    if_neg (hne (c := 0x12) (by decide)), if_neg (hne (c := 0x13) (by decide))]

/-- A reserved opcode is refused whether it stands alone, as an instruction that marks the state, or
has operands and does not decode. -/
theorem runCommand_reserved {op : Byte} (h : (reservedRow op).isSome = true)
    (operands : List Byte) (s : State) : runCommand (op :: operands) s = .next (refuse s) := by
  obtain ⟨i, hrow⟩ := Option.isSome_iff_exists.1 h
  have hdec := decodeCommand_reserved hrow operands
  cases operands with
  | nil => rw [runCommand_of_ok hdec, exec_reservedRow hrow]
  | cons b rest => exact runCommand_of_error hdec s

theorem runCommand_refused {bytes : List Byte} (h : RefusedCommand bytes) (s : State) :
    runCommand bytes s = .next (refuse s) := by
  rcases h with rfl | ⟨op, operands, rfl,
    hlow | hhigh | ⟨hbare, hlen⟩ | ⟨hpeek, hlen⟩ | ⟨htransmit, hlen⟩⟩
  · rfl
  · exact runCommand_reserved ((reservedRow_isSome op).2 (.inl hlow)) operands s
  · exact runCommand_reserved ((reservedRow_isSome op).2 (.inr hhigh)) operands s
  · obtain ⟨i, hdec⟩ := decodeCommand_bare hbare
    exact runCommand_of_error ((hdec operands).trans (decodeBare_of_operands i hlen)) s
  · obtain rfl : op = 0x12 := BitVec.eq_of_toNat_eq hpeek
    have hdec : decodeCommand (0x12 :: operands) = _ := decodePeek_of_operands hlen
    exact runCommand_of_error hdec s
  · obtain rfl : op = 0x02 := BitVec.eq_of_toNat_eq htransmit
    have hdec : decodeCommand (0x02 :: operands) = _ := decodeTransmit_of_operands hlen
    exact runCommand_of_error hdec s

/-- Settles O4: the step takes the command, and each kind of string that R61 refuses only marks. -/
theorem malformedCommandsOnlyMark : Obligations.MalformedCommandsOnlyMark := by
  intro s bytes rest hcmds hrefused
  rw [step_of_cmds hcmds, runCommand_refused hrefused, refuse]

/-! ### The frames a `Write` sends (R58, R103) -/

/-- The bytes one `Write` may append to the transmitted stream (R58). -/
inductive WriteBytes : List Byte → Prop
  | nothing : WriteBytes []
  | handshake (ack : Byte) : WriteBytes (serialize hw ack 0x80 [])
  | data (ack : Byte) {data : List Byte} {n : Seq} (hn : n ≠ 0) (hlen : data.length ≤ 255) :
      WriteBytes (serialize hw ack (seqByte n) data)
  | ackOnly {ack : Byte} (h : ack ≠ 0x00) : WriteBytes (serialize hw ack 0x00 [])

/-- A live slot as R26 describes it holds the handshake frame or a data frame (R37 (4), R109). -/
theorem writeBytes_of_slot {started : Bool} {x : OutSlot} (hok : x.Ok started)
    (hlive : x.live = true) (ack : Byte) :
    WriteBytes (serialize hw ack x.idx (bufRead x.data x.len.toNat)) := by
  simp only [OutSlot.Ok, hlive] at hok
  cases started with
  | false =>
    obtain ⟨_, hidx, hlen⟩ := hok
    rw [hidx, hlen]
    exact .handshake ack
  | true =>
    obtain ⟨_, hidx⟩ := hok
    obtain ⟨n, hn, hseq⟩ := (onWheel_iff x.idx).1 hidx
    rw [hseq]
    refine .data ack hn ?_
    rw [bufRead_length]
    exact Nat.le_of_lt_succ x.len.isLt

theorem wrEmit_writeBytes {s : State} (h : InvOut s) (t : Time) :
    ∃ bytes, WriteBytes bytes ∧ Sent s (wrEmit hw t s) bytes := by
  rcases wrEmit_cases hw t s with ⟨j, hj, he⟩ | ⟨_, hack, he⟩ | ⟨_, _, he⟩
  · obtain ⟨x, hx, hlive, _⟩ := selectPacket_some hj
    rw [he, wrSend_eq t hx]
    exact ⟨_, writeBytes_of_slot (h.outSlotsOk x (List.mem_of_getElem? hx)) hlive _, rfl⟩
  · rw [he]
    exact ⟨_, .ackOnly hack, rfl⟩
  · rw [he]
    exact ⟨[], .nothing, (List.append_nil _).symm⟩

/-- The ack and the timeout come before the frame is chosen and transmit nothing (R103). -/
theorem writerStep_writeBytes {s : State} (h : InvOut s) :
    ∃ bytes, WriteBytes bytes ∧ Sent s (writerStep hw s) bytes := by
  have hinv := wrTimeout_invOut (wrConsume_invOut h (ackClass hw s.outAck)) (now s)
  obtain ⟨_, hdrain, _⟩ := wrConsume_acks (ackClass hw s.outAck) s
  obtain ⟨_, htimeout⟩ := wrTimeout_acks (now s) (wrDrain hw s)
  obtain ⟨bytes, hbytes, hsent⟩ := wrEmit_writeBytes hinv (now s)
  refine ⟨bytes, hbytes, ?_⟩
  rw [Sent] at hsent ⊢
  exact hsent.trans (congrArg (· ++ bytes) (htimeout.trans hdrain))

/-- Settles O38: `WRITE_STEP` is one `Write`, and its bytes are of one of the four kinds. -/
theorem onlyThreeKindsOfFrameAreSent : Obligations.OnlyThreeKindsOfFrameAreSent := by
  intro s h
  obtain ⟨bytes, hbytes, hsent⟩ := writerStep_writeBytes ((inv_iff s).1 h).2
  refine ⟨writerStep hw s, rfl, ?_⟩
  cases hbytes with
  | nothing => exact .inl hsent
  | handshake ack => exact .inr (.inl ⟨ack, hsent⟩)
  | data ack hn hlen => exact .inr (.inr (.inl ⟨ack, _, _, hn, hlen, hsent⟩))
  | ackOnly hack => exact .inr (.inr (.inr ⟨_, hack, hsent⟩))

/-! ### `TICKS n` is `n` `TICK`s (R65) -/

/-- The state with another queue of host commands. -/
def withCmds (cmds : List (List Byte)) (s : State) : State := { s with cmds := cmds }

/-- Another queue is the part of `Outside` that puts nothing in front of the records. -/
theorem around_eq_withCmds (cmds : List (List Byte)) (s : State) :
    Outside.around ⟨[], [], [], cmds⟩ s = withCmds cmds s := rfl

theorem envTurn_withCmds (cmds : List (List Byte)) (s : State) :
    envTurn (withCmds cmds s) = withCmds cmds (envTurn s) := by
  rw [← around_eq_withCmds, around_envTurn, around_eq_withCmds]

theorem tick_withCmds (cmds : List (List Byte)) (s : State) :
    tick hw (withCmds cmds s) = withCmds cmds (tick hw s) := by
  rw [← around_eq_withCmds, around_tick, around_eq_withCmds]

theorem exec_tick (s : State) : exec .tick s = .next (tick hw s) := rfl

/-- A step that finds a `TICK` command waiting takes it and runs one `TICK`. -/
theorem step_tick {s : State} {rest : List (List Byte)} (h : s.cmds = [0x01] :: rest) :
    step s = .next (withCmds rest (tick hw (envTurn s))) := by
  have hdec : decodeCommand [0x01] = .ok .tick := Laws.RoundTrip.tick rfl
  rw [step_of_cmds ((envTurn_cmds s).trans h), runCommand_of_ok hdec, exec_tick, ← tick_withCmds,
    withCmds]

theorem run_succ_of_step {M : Host.Core} {s t : M.State} (n : Nat) (h : M.step s = .next t) :
    M.run (n + 1) s = M.run n t := by
  simp only [Host.Core.run, h]

/-- Steps that take `n` `TICK` commands from the host are `n` `TICK`s, each after its boundary. No
`TICK` reads the queue, so it may stand as the commands leave it from the beginning on. -/
theorem run_tick_commands (n : Nat) (s : State) (rest : List (List Byte))
    (h : s.cmds = List.replicate n [0x01] ++ rest) :
    Host.Core.run core n s = .next (moreTicks hw n (withCmds rest s)) := by
  induction n generalizing s with
  | zero =>
    obtain rfl : s.cmds = rest := h
    rfl
  | succ n ih =>
    have hcons : s.cmds = [0x01] :: (List.replicate n [0x01] ++ rest) := h
    calc Host.Core.run core (n + 1) s
      _ = Host.Core.run core n (withCmds (List.replicate n [0x01] ++ rest) (tick hw (envTurn s))) :=
        run_succ_of_step (M := core) n (step_tick hcons)
      _ = .next (moreTicks hw n (withCmds rest (tick hw (envTurn s)))) := ih _ rfl
      _ = .next (moreTicks hw (n + 1) (withCmds rest s)) := by
        rw [moreTicks, envTurn_withCmds, tick_withCmds]

/-- Settles O41: the steps and `TICKS` are the same `moreTicks`; Laws/Program.lean has the lines. -/
theorem ticksIsConsecutiveTicks : Obligations.TicksIsConsecutiveTicks := by
  refine ⟨fun _ => rfl, fun n s rest hcmds => ⟨_, rfl, ?_⟩, runLine_ticks, runLinkLine_ticks⟩
  rw [run_tick_commands (n + 1) s rest hcmds, moreTicks, envTurn_withCmds, ticks, withCmds]

end Sys2Proof.Proofs

/-! PROOFS. The Frame Codec (40_frame_codec.md): the checksum as sums (R66), the frame that parses back
(R73), where a changed byte is found (R75), and what the resync and the parse of one byte answer (R70,
R71). -/

namespace Sys2Proof.Proofs

open Sys2Proof.Machine Sys2Proof.Statements

/-! ### The checksum (R66) -/

/-- The sum in which byte `i` of `n` counts `n - i` times (R66). -/
def weightedSum (s : List Byte) : Nat :=
  ((List.range s.length).map fun i => (s.length - i) * (s.getD i 0).toNat).sum

@[simp] theorem weightedSum_nil : weightedSum [] = 0 := rfl

@[simp] theorem weightedSum_cons (x : Byte) (rest : List Byte) :
    weightedSum (x :: rest) = (rest.length + 1) * x.toNat + weightedSum rest := by
  simp [weightedSum, List.range_succ_eq_map, Function.comp_def]

theorem toNat_sum (s : List Byte) : s.sum.toNat = (s.map BitVec.toNat).sum % 256 := by
  induction s with
  | nil => rfl
  | cons x rest ih => simp [BitVec.toNat_add, ih]

/-- The second running sum from any start: the start's first sum enters once per byte (R66). -/
theorem foldl_ckAdd_snd_toNat (s : List Byte) (a b : Byte) :
    (s.foldl ckAdd (a, b)).2.toNat = (b.toNat + s.length * a.toNat + weightedSum s) % 256 := by
  induction s generalizing a b with
  | nil => simp [Nat.mod_eq_of_lt b.isLt]
  | cons x rest ih =>
    have hnext : (b + (a + x)).toNat + rest.length * (a + x).toNat ≡
        b.toNat + (a.toNat + x.toNat) + rest.length * (a.toNat + x.toNat) [MOD 256] := by
      simp only [BitVec.toNat_add]
      exact ((Nat.mod_modEq _ _).trans ((Nat.mod_modEq _ _).add_left _)).add
        ((Nat.mod_modEq _ _).mul_left _)
    calc ((x :: rest).foldl ckAdd (a, b)).2.toNat
      _ = ((b + (a + x)).toNat + rest.length * (a + x).toNat + weightedSum rest) % 256 := ih _ _
      _ = (b.toNat + (a.toNat + x.toNat) + rest.length * (a.toNat + x.toNat) +
            weightedSum rest) % 256 := hnext.add_right _
      _ = _ := by rw [weightedSum_cons, List.length_cons]; ring_nf

/-- Settles O6: both sums, from the running sums' start at 0. -/
theorem checksumIsRunningSum : Obligations.ChecksumIsRunningSum := by
  intro s
  have hsnd := foldl_ckAdd_snd_toNat s 0 0
  refine ⟨by rw [ck_fst, toNat_sum], ?_⟩
  simpa [ck, weightedSum] using hsnd

/-- Changing one byte changes the first sum (R75). -/
theorem ck_fst_set_ne {s : List Byte} {p : Nat} {b : Byte} (hp : p < s.length) (hb : b ≠ s.getD p 0) :
    (ck s).1 ≠ (ck (s.set p b)).1 := by
  rw [ck_fst, ck_fst]
  induction s generalizing p with
  | nil => simp at hp
  | cons x rest ih =>
    cases p with
    | zero => simpa using Ne.symm hb
    | succ p => simpa using ih (by simpa using hp) (by simpa using hb)

/-! ### Steps and runs (R68, R69) -/

@[simp] theorem frameHeader_length (ack seq : Byte) (n : Nat) :
    (frameHeader hw ack seq n).length = 7 := (rfl)

/-- The sync bytes are compared (R68). -/
theorem codecStep_bad_sync0 {ps : ParserState} (h : ps.pos = 0) {b : Byte} (hb : b ≠ 0x0A) :
    codecStep hw ps b = (ps, .headerError) := if_pos ⟨h, hb⟩

theorem codecStep_bad_sync1 {ps : ParserState} (h : ps.pos = 1) {b : Byte} (hb : b ≠ 0x3C) :
    codecStep hw ps b = (ps, .headerError) := by
  simp only [codecStep]
  rw [if_neg (by omega), if_pos ⟨h, hb⟩]

/-- The first header checksum byte is compared (R68). -/
theorem codecStep_first_header_sum {ps : ParserState} (h : ps.pos = 5) (b : Byte) :
    codecStep hw ps b =
      if b ≠ ps.ha then (ps, .headerError) else ({ ps with pos := 6 }, .incomplete) := by
  simp [codecStep, h]

/-- The second header checksum byte is compared (R68). -/
theorem codecStep_second_header_sum {ps : ParserState} (h : ps.pos = 6) (b : Byte) :
    codecStep hw ps b =
      if b ≠ ps.hb then (ps, .headerError) else ({ ps with pos := 7 }, .incomplete) := by
  simp [codecStep, h]

/-- After the payload the parser stands at the first payload checksum byte (R68). -/
theorem afterPayload_pos (ack seq : Byte) {data : List Byte} (hlen : data.length ≤ 255) :
    (afterPayload ack seq data).pos = 7 + (afterPayload ack seq data).len.toNat := by
  simp only [afterPayload, afterHeader, BitVec.toNat_ofNat]
  omega

/-- A byte taken by the step leaves the history incomplete. -/
theorem run_snoc_of_incomplete {xs : List Byte} {b : Byte} {q q' : ParserState}
    (hxs : run hw xs = (.incomplete, q)) (hb : codecStep hw q b = (q', .incomplete)) :
    run hw (xs ++ [b]) = (.incomplete, q') := by
  rw [run, runFrom_snoc hxs, hb]

/-- One byte more than the beginning of a frame cannot overrun the frame (R69, R70). -/
theorem run_snoc_ne_overrun {h : List Byte} (hinc : (run hw h).1 = .incomplete) (b : Byte) :
    (run hw (h ++ [b])).1 ≠ .overrun := by
  rcases hr : run hw h with ⟨st, q⟩
  obtain rfl : st = .incomplete := by simpa [hr] using hinc
  rw [run, runFrom_snoc hr]
  cases (codecStep hw q b).2 <;> simp

/-- A byte that the step refuses ends the run, whatever follows. -/
theorem runFrom_of_headerError {ps q : ParserState} {b : Byte}
    (h : codecStep hw ps b = (q, .headerError)) (rest : List Byte) :
    (runFrom hw ps (b :: rest)).1 = .headerError := by
  simp only [runFrom, h]

theorem runFrom_of_dataError {ps q : ParserState} {b : Byte}
    (h : codecStep hw ps b = (q, .dataError)) (rest : List Byte) :
    (runFrom hw ps (b :: rest)).1 = .dataError := by
  simp only [runFrom, h]

/-! ### The resync and the parse of one byte (R70, R71) -/

/-- A good history is its own first good tail. -/
theorem firstGoodTail_of_good {b : Byte} {rest : List Byte} (h : Good (b :: rest)) :
    ∃ st ps, firstGoodTail hw (b :: rest) = some (b :: rest, st, ps) := by
  rcases hr : run hw (b :: rest) with ⟨st, ps⟩
  rcases h with h | h
  · obtain rfl : st = .incomplete := by simpa [hr] using h
    exact ⟨.incomplete, ps, by simp only [firstGoodTail, hr]⟩
  · obtain rfl : st = .parsed := by simpa [hr] using h
    exact ⟨.parsed, ps, by simp only [firstGoodTail, hr]⟩

/-- A bad history is passed over. -/
theorem firstGoodTail_of_not_good {b : Byte} {rest : List Byte} (h : ¬Good (b :: rest)) :
    firstGoodTail hw (b :: rest) = firstGoodTail hw rest := by
  rcases hr : run hw (b :: rest) with ⟨st, ps⟩
  cases st with
  | incomplete => exact absurd (.inl (by rw [hr])) h
  | parsed => exact absurd (.inr (by rw [hr])) h
  | headerError | dataError | overrun => simp only [firstGoodTail, hr]

/-- No tail before the bad byte is good, and then none at an offset of the rest. -/
theorem not_good_drop_cons {b : Byte} {rest : List Byte} {n : Nat} (hbad : ¬Good (b :: rest))
    (h : ∀ j < n, ¬Good (rest.drop j)) : ∀ j < n + 1, ¬Good ((b :: rest).drop j)
  | 0, _ => hbad
  | j + 1, hj => h j (Nat.lt_of_succ_lt_succ hj)

/-- The tail found is the one at the lowest good offset. -/
theorem firstGoodTail_some_drop {h t : List Byte} {st : Status} {ps : ParserState}
    (hg : firstGoodTail hw h = some (t, st, ps)) :
    ∃ k < h.length, t = h.drop k ∧ ∀ j < k, ¬Good (h.drop j) := by
  induction h with
  | nil => simp [firstGoodTail] at hg
  | cons b rest ih =>
    by_cases hgood : Good (b :: rest)
    · obtain ⟨st', ps', hfirst⟩ := firstGoodTail_of_good hgood
      rw [hfirst] at hg
      obtain ⟨rfl, -⟩ : b :: rest = t ∧ _ := by simpa using hg
      exact ⟨0, by simp, rfl, by simp⟩
    · rw [firstGoodTail_of_not_good hgood] at hg
      obtain ⟨k, hk, rfl, hlow⟩ := ih hg
      exact ⟨k + 1, Nat.succ_lt_succ hk, rfl, not_good_drop_cons hgood hlow⟩

/-- If no tail is found, none is good. -/
theorem firstGoodTail_none {h : List Byte} (hg : firstGoodTail hw h = none) :
    ∀ k < h.length, ¬Good (h.drop k) := by
  induction h with
  | nil => simp
  | cons b rest ih =>
    by_cases hgood : Good (b :: rest)
    · obtain ⟨st, ps, hfirst⟩ := firstGoodTail_of_good hgood
      simp [hfirst] at hg
    · exact not_good_drop_cons hgood (ih (firstGoodTail_of_not_good hgood ▸ hg))

/-- Offsets into the tail are the offsets from 1 on. -/
theorem not_good_drop_of_tail {h : List Byte} {n : Nat} (hbad : ∀ j < n, ¬Good (h.tail.drop j)) :
    ∀ j, 1 ≤ j → j < n + 1 → ¬Good (h.drop j)
  | j + 1, _, hj => List.drop_tail ▸ hbad j (Nat.lt_of_succ_lt_succ hj)

theorem reProcess_some {h t : List Byte} {st : Status} {ps : ParserState}
    (hg : reProcess hw h = some (t, st, ps)) :
    ∃ k, 1 ≤ k ∧ k < h.length ∧ t = h.drop k ∧ ∀ j, 1 ≤ j → j < k → ¬Good (h.drop j) := by
  obtain ⟨k, hk, ht, hlow⟩ := firstGoodTail_some_drop hg
  rw [List.length_tail] at hk
  exact ⟨k + 1, by omega, by omega, by rw [ht, List.drop_tail], not_good_drop_of_tail hlow⟩

theorem reProcess_none {h : List Byte} (hg : reProcess hw h = none) :
    ∀ k, 1 ≤ k → k < h.length → ¬Good (h.drop k) := fun k h1 hk =>
  not_good_drop_of_tail (firstGoodTail_none hg) k h1 (by rw [List.length_tail]; omega)

/-- Settles O10: the search over the tail is the search from offset 1 on. -/
theorem resyncTakesFirstGoodOffset : Obligations.ResyncTakesFirstGoodOffset := by
  refine fun h => ⟨fun t st ps hg => ?_, reProcess_none⟩
  obtain ⟨k, h1, hk, ht, hlow⟩ := reProcess_some hg
  obtain ⟨hrun, -⟩ := firstGoodTail_some hg
  exact ⟨k, h1, hk, ht, hrun.imp And.symm And.symm, hlow⟩

/-- A failed history's resync is what R70 and R71 make of it. -/
theorem recoverFrame_recovers (h : List Byte) (st : Status) (ps : ParserState) :
    Recovers h st ps (recoverFrame hw h st ps) := by
  unfold recoverFrame
  split
  case h_1 t st' ps' hg =>
    obtain ⟨hrun, -⟩ := firstGoodTail_some hg
    obtain ⟨k, h1, hk, rfl, hlow⟩ := reProcess_some hg
    exact .inl ⟨k, st', ps', h1, hk, hlow, hrun, rfl⟩
  case h_2 hg => exact .inr ⟨reProcess_none hg, rfl⟩

theorem parseHistory_of_incomplete {h : List Byte} {ps : ParserState}
    (hr : run hw h = (.incomplete, ps)) :
    parseHistory hw h = { status := .incomplete, hist := h, ps := ps, view := frameView ps } := by
  simp only [parseHistory, hr]

theorem parseHistory_of_parsed {h : List Byte} {ps : ParserState} (hr : run hw h = (.parsed, ps)) :
    parseHistory hw h = { status := .parsed, hist := h, ps := ps, view := frameView ps } := by
  simp only [parseHistory, hr]

theorem parseHistory_of_headerError {h : List Byte} {ps : ParserState}
    (hr : run hw h = (.headerError, ps)) :
    parseHistory hw h = recoverFrame hw h .headerError ps := by
  simp only [parseHistory, hr]

theorem parseHistory_of_dataError {h : List Byte} {ps : ParserState}
    (hr : run hw h = (.dataError, ps)) :
    parseHistory hw h = recoverFrame hw h .dataError ps := by
  simp only [parseHistory, hr]

theorem parseHistory_parsesTo {h : List Byte} (hover : (run hw h).1 ≠ .overrun) :
    ParsesTo h (parseHistory hw h) := by
  rcases hr : run hw h with ⟨st, ps⟩
  refine ⟨ps, ?_⟩
  cases st with
  | incomplete => exact .inl ⟨hr, parseHistory_of_incomplete hr⟩
  | parsed => exact .inr (.inl ⟨hr, parseHistory_of_parsed hr⟩)
  | headerError =>
    rw [parseHistory_of_headerError hr]
    exact .inr (.inr (.inl ⟨hr, recoverFrame_recovers h _ ps⟩))
  | dataError =>
    rw [parseHistory_of_dataError hr]
    exact .inr (.inr (.inr ⟨hr, recoverFrame_recovers h _ ps⟩))
  | overrun => exact absurd (by rw [hr]) hover

/-- Settles O56: a history that was incomplete before its last byte does not overrun. -/
theorem parseCharRunsThenResyncs : Obligations.ParseCharRunsThenResyncs := by
  intro s i b x hx hinc
  refine ⟨parseHistory hw (x.hist ++ [b]), parseHistory_parsesTo (run_snoc_ne_overrun hinc b), ?_⟩
  simp only [parseChar, inSlot_of_getElem hx, setInSlot]

/-! ### A serialized frame parses back (R73) -/

/-- A byte that leaves the history incomplete is appended to it. -/
theorem parseChar_of_incomplete {s : State} {i : Nat} {b : Byte} {q : ParserState}
    (hr : run hw ((inSlot s i).hist ++ [b]) = (.incomplete, q)) :
    parseChar hw i b s =
      (setInSlot i { inSlot s i with hist := (inSlot s i).hist ++ [b], ps := q } s, .incomplete,
        frameView q) := by
  simp only [parseChar, parseHistory_of_incomplete hr]

/-- The byte that completes the frame is answered with the frame's view. -/
theorem parseChar_of_parsed {s : State} {i : Nat} {b : Byte} {q : ParserState}
    (hr : run hw ((inSlot s i).hist ++ [b]) = (.parsed, q)) :
    (parseChar hw i b s).2 = (.parsed, frameView q) := by
  simp only [parseChar, parseHistory_of_parsed hr]

/-- After bytes `xs` into slot `i`, whose history was `h`: the history holds them too, and each was
answered `INCOMPLETE`. -/
structure FedIncomplete (i : Nat) (h xs : List Byte) (r : State × List (Status × View)) : Prop where
  hist : (inSlot r.1 i).hist = h ++ xs
  answered : r.2.length = xs.length
  incomplete : ∀ a ∈ r.2, a.1 = .incomplete

/-- While the history with the fed bytes parses as the beginning of a frame, no byte is lost to a
resync (R70). -/
theorem feedBytes_of_incomplete {xs : List Byte} {s : State} {i : Nat} (hi : i < s.ib.length)
    (hinc : (run hw ((inSlot s i).hist ++ xs)).1 = .incomplete) :
    FedIncomplete i (inSlot s i).hist xs (feedBytes i xs s) := by
  induction xs generalizing s with
  | nil => exact ⟨by simp [feedBytes], rfl, by simp [feedBytes]⟩
  | cons b rest ih =>
    rw [List.append_cons] at hinc
    have hb : (run hw ((inSlot s i).hist ++ [b])).1 = .incomplete :=
      runFrom_incomplete_of_append (Prod.ext hinc rfl)
    have hchar := parseChar_of_incomplete (Prod.ext hb rfl)
    have hslot : (inSlot (parseChar hw i b s).1 i).hist = (inSlot s i).hist ++ [b] := by
      rw [hchar, inSlot_setInSlot_self hi]
    obtain ⟨hist, answered, incomplete⟩ :=
      ih (s := (parseChar hw i b s).1) (by rw [hchar]; simpa using hi) (by rwa [hslot])
    refine ⟨by rw [feedBytes, hist, hslot, ← List.append_cons], by simp [feedBytes, answered], ?_⟩
    simpa [feedBytes, hchar] using incomplete

theorem feedBytes_snoc (i : Nat) (xs : List Byte) (b : Byte) (s : State) :
    (feedBytes i (xs ++ [b]) s).2 =
      (feedBytes i xs s).2 ++ [(parseChar hw i b (feedBytes i xs s).1).2] := by
  induction xs generalizing s with
  | nil => rfl
  | cons x rest ih => simp only [List.cons_append, feedBytes, ih]

/-- Bytes that parse to a frame, fed to an empty slot: only the last one is not answered
`INCOMPLETE` (R70, R73). -/
theorem feedBytes_of_parsed {xs : List Byte} {b : Byte} {q : ParserState} {s : State} {i : Nat}
    (hi : i < s.ib.length) (hempty : (inSlot s i).hist = [])
    (hr : run hw (xs ++ [b]) = (.parsed, q)) :
    ∃ before, (feedBytes i (xs ++ [b]) s).2 = before ++ [(.parsed, frameView q)] ∧
      before.length = xs.length ∧ ∀ a ∈ before, a.1 = .incomplete := by
  have hinc : (run hw xs).1 = .incomplete := runFrom_incomplete_of_parsed hr
  obtain ⟨hist, answered, incomplete⟩ :=
    feedBytes_of_incomplete (xs := xs) hi (by rwa [hempty, List.nil_append])
  rw [hempty, List.nil_append] at hist
  exact ⟨_, by rw [feedBytes_snoc, parseChar_of_parsed (by rwa [hist])], answered, incomplete⟩

/-- Settles O7, by the run of a serialized frame (`run_serialize`) byte by byte. -/
theorem serializedFrameParsesBack : Obligations.SerializedFrameParsesBack := by
  intro ack seq data s i hlen hi hempty
  have hbytes : serialize hw ack seq data =
      (frameHeader hw ack seq data.length ++ data ++ [(ck data).1]) ++ [(ck data).2] := by
    simp [serialize_hw]
  have hparsed := run_serialize ack seq hlen
  rw [hbytes] at hparsed
  obtain ⟨before, hfed, hcount, hinc⟩ := feedBytes_of_parsed hi hempty hparsed
  refine ⟨rfl, before, ?_, ?_, hinc⟩
  · rw [hbytes, hfed, frameView_afterPayload ack seq hlen]
  · have htotal := congrArg List.length hbytes
    rw [serialize_length, List.length_append, List.length_singleton] at htotal
    omega

/-! ### One changed byte is found (R75) -/

/-- The run of `h` is incomplete before its byte `e`, and byte `e` ends it with the error `st`. -/
def FailsAt (h : List Byte) (e : Nat) (st : RunStatus) : Prop :=
  (run hw (h.take e)).1 = .incomplete ∧ (run hw (h.take (e + 1))).1 = st ∧ (run hw h).1 = st

/-- A history fails at the first byte that ends its run. -/
theorem failsAt_of_append {xs : List Byte} {b : Byte} {st : RunStatus} {q : ParserState}
    (hxs : run hw xs = (.incomplete, q)) (hb : ∀ rest, (runFrom hw q (b :: rest)).1 = st)
    (rest : List Byte) : FailsAt (xs ++ b :: rest) xs.length st := by
  have hfail : ∀ ys, (run hw (xs ++ b :: ys)).1 = st := fun ys => by
    rw [run, runFrom_append hxs, hb]
  have htake : (xs ++ b :: rest).take (xs.length + 1) = xs ++ [b] := by simp [List.take_append]
  exact ⟨by simp [hxs], by rw [htake, hfail], hfail rest⟩

theorem failsAt_sync0 {b : Byte} (hb : b ≠ 0x0A) (rest : List Byte) :
    FailsAt (b :: rest) 0 .headerError :=
  failsAt_of_append (xs := []) rfl (runFrom_of_headerError (codecStep_bad_sync0 rfl hb)) rest

theorem failsAt_sync1 {b : Byte} (hb : b ≠ 0x3C) (rest : List Byte) :
    FailsAt (0x0A :: b :: rest) 1 .headerError :=
  failsAt_of_append (xs := [0x0A]) rfl (runFrom_of_headerError (codecStep_bad_sync1 rfl hb)) rest

theorem failsAt_first_header_sum {ack seq b : Byte} {n : Nat}
    (hb : b ≠ (ck (headerBytes hw ack seq n)).1) (rest : List Byte) :
    FailsAt (headerBytes hw ack seq n ++ b :: rest) 5 .headerError :=
  failsAt_of_append (run_headerBytes ack seq n)
    (runFrom_of_headerError ((codecStep_first_header_sum rfl b).trans (if_pos hb))) rest

theorem failsAt_second_header_sum {ack seq b : Byte} {n : Nat}
    (hb : b ≠ (ck (headerBytes hw ack seq n)).2) (rest : List Byte) :
    FailsAt (headerBytes hw ack seq n ++ (ck (headerBytes hw ack seq n)).1 :: b :: rest) 6
      .headerError := by
  have hsum : run hw (headerBytes hw ack seq n ++ [(ck (headerBytes hw ack seq n)).1]) =
      (.incomplete, { afterHeader ack seq n with pos := 6 }) :=
    run_snoc_of_incomplete (run_headerBytes ack seq n)
      ((codecStep_first_header_sum rfl _).trans (if_neg (not_not.mpr rfl)))
  rw [List.append_cons]
  exact failsAt_of_append hsum
    (runFrom_of_headerError ((codecStep_second_header_sum rfl b).trans (if_pos hb))) rest

theorem failsAt_first_payload_sum {ack seq b : Byte} {data : List Byte} (hlen : data.length ≤ 255)
    (hb : b ≠ (ck data).1) (rest : List Byte) :
    FailsAt (frameHeader hw ack seq data.length ++ data ++ b :: rest) (7 + data.length)
      .dataError := by
  have hstep := codecStep_first_sum (afterPayload_pos ack seq hlen) b
  have hfail := failsAt_of_append (run_header_payload ack seq hlen)
    (runFrom_of_dataError (hstep.trans (if_pos hb))) rest
  rwa [List.length_append, frameHeader_length] at hfail

theorem failsAt_second_payload_sum {ack seq b : Byte} {data : List Byte} (hlen : data.length ≤ 255)
    (hb : b ≠ (ck data).2) :
    FailsAt (frameHeader hw ack seq data.length ++ data ++ [(ck data).1, b]) (8 + data.length)
      .dataError := by
  have hpos := afterPayload_pos ack seq hlen
  have hsum := run_snoc_of_incomplete (run_header_payload ack seq hlen)
    ((codecStep_first_sum hpos (ck data).1).trans (if_neg (not_not.mpr rfl)))
  have hstep := codecStep_second_sum
    (ps := { afterPayload ack seq data with pos := (afterPayload ack seq data).pos + 1 })
    (by dsimp only; omega) b
  have hfail := failsAt_of_append hsum (runFrom_of_dataError (hstep.trans (if_pos hb))) []
  have hlength : (frameHeader hw ack seq data.length ++ data ++ [(ck data).1]).length =
      8 + data.length := by
    simp only [List.length_append, frameHeader_length, List.length_singleton]
    omega
  rwa [hlength, ← List.append_cons] at hfail

/-- A changed ack, sequence or length byte leaves header bytes of another frame. -/
theorem headerBytes_set (ack seq b : Byte) (n : Nat) {p : Nat} (h2 : 2 ≤ p) (h4 : p ≤ 4) :
    ∃ ack' seq' n', (headerBytes hw ack seq n).set p b = headerBytes hw ack' seq' n' := by
  obtain rfl | rfl | rfl : p = 2 ∨ p = 3 ∨ p = 4 := by omega
  · exact ⟨b, seq, n, rfl⟩
  · exact ⟨ack, b, n, rfl⟩
  · exact ⟨ack, seq, b.toNat, by simp⟩

/-- A changed ack, sequence or length byte is found at the first header checksum byte. -/
theorem failsAt_changed_field {ack seq b : Byte} {n p : Nat} (h2 : 2 ≤ p) (h4 : p ≤ 4)
    (hb : b ≠ (headerBytes hw ack seq n).getD p 0) (rest : List Byte) :
    FailsAt ((headerBytes hw ack seq n).set p b ++ (ck (headerBytes hw ack seq n)).1 :: rest) 5
      .headerError := by
  have hsum := ck_fst_set_ne (Nat.lt_succ_of_le h4) hb
  obtain ⟨ack', seq', n', hset⟩ := headerBytes_set ack seq b n h2 h4
  rw [hset] at hsum ⊢
  exact failsAt_first_header_sum hsum rest

/-- Settles O8, by the place of the changed byte: sync, field or header checksum. -/
theorem headerCorruptionDetected : Obligations.HeaderCorruptionDetected := by
  intro ack seq data p b _ hp hb
  have hbytes : serialize hw ack seq data =
      headerBytes hw ack seq data.length ++ (ck (headerBytes hw ack seq data.length)).1 ::
        (ck (headerBytes hw ack seq data.length)).2 :: (data ++ [(ck data).1, (ck data).2]) := by
    simp [serialize_hw, frameHeader]
  change FailsAt _ (if 2 ≤ p ∧ p ≤ 4 then 5 else p) .headerError
  rw [hbytes] at hb ⊢
  obtain rfl | rfl | ⟨h2, h4⟩ | rfl | rfl :
      p = 0 ∨ p = 1 ∨ (2 ≤ p ∧ p ≤ 4) ∨ p = 5 ∨ p = 6 := by omega
  · exact failsAt_sync0 hb _
  · exact failsAt_sync1 hb _
  · have hlt : p < (headerBytes hw ack seq data.length).length := Nat.lt_succ_of_le h4
    rw [List.getD_append _ _ _ _ hlt] at hb
    rw [if_pos ⟨h2, h4⟩, List.set_append_left _ _ hlt]
    exact failsAt_changed_field h2 h4 hb _
  · exact failsAt_first_header_sum hb _
  · exact failsAt_second_header_sum hb _

/-- A changed payload byte is found at the first payload checksum byte. -/
theorem failsAt_changed_payload {ack seq b : Byte} {data : List Byte} {k : Nat}
    (hlen : data.length ≤ 255) (hk : k < data.length) (hb : b ≠ data.getD k 0) (rest : List Byte) :
    FailsAt (frameHeader hw ack seq data.length ++ data.set k b ++ (ck data).1 :: rest)
      (7 + data.length) .dataError := by
  have hset : (data.set k b).length = data.length := List.length_set
  have hfail := failsAt_first_payload_sum (ack := ack) (seq := seq) (by rwa [hset])
    (ck_fst_set_ne hk hb) rest
  rwa [hset] at hfail

/-- Settles O9, by the place of the changed byte: payload, or one of the two checksum bytes. -/
theorem payloadCorruptionDetected : Obligations.PayloadCorruptionDetected := by
  intro ack seq data p b hlen h7 hp hb
  obtain ⟨k, rfl⟩ := Nat.exists_eq_add_of_le h7
  change FailsAt _ (if 7 + k = 8 + data.length then 7 + k else 7 + data.length) .dataError
  have hheader : (frameHeader hw ack seq data.length).length ≤ 7 + k := h7
  rw [serialize_hw, List.append_assoc, List.getD_append_right _ _ _ _ hheader,
    frameHeader_length, Nat.add_sub_cancel_left] at hb
  rw [serialize_hw, List.append_assoc, List.set_append_right _ _ hheader, frameHeader_length,
    Nat.add_sub_cancel_left]
  obtain hk | rfl | rfl : k < data.length ∨ k = data.length ∨ k = data.length + 1 := by omega
  · rw [List.getD_append _ _ _ _ hk] at hb
    rw [if_neg (by omega), List.set_append_left _ _ hk, ← List.append_assoc]
    exact failsAt_changed_payload hlen hk hb _
  · rw [List.getD_append_right _ _ _ _ le_rfl, Nat.sub_self] at hb
    rw [if_neg (by omega), List.set_append_right _ _ le_rfl, Nat.sub_self, ← List.append_assoc]
    exact failsAt_first_payload_sum hlen hb _
  · rw [List.getD_append_right _ _ _ _ (by omega), Nat.add_sub_cancel_left] at hb
    rw [if_pos (by omega), List.set_append_right _ _ (by omega), Nat.add_sub_cancel_left,
      ← List.append_assoc, show 7 + (data.length + 1) = 8 + data.length by omega]
    exact failsAt_second_payload_sum hlen hb

end Sys2Proof.Proofs

/-! PROOFS. The wheel of sequence numbers (41_sequence_space.md R77 to R80): `Dist` is the least number
of `NextIndex` steps, so a test on a distance between 1 and a bound is a test for some step count
between 1 and that bound. The inbound window and the outbound gap are two such tests. -/

namespace Sys2Proof.Proofs

open Sys2Proof.Machine

/-! ### Distances (R77, R78) -/

/-- `NextIndex` in the words of R77. -/
theorem nextIndex_toNat_wrap {a : Seq} (ha : a ≠ 0) :
    (nextIndex hw a).toNat = if a.toNat = 127 then 1 else a.toNat + 1 := by
  have hrange := toNat_of_ne_zero ha
  rw [nextIndex_toNat ha]
  split <;> omega

/-- Fewer steps than the distance do not lead to `b`: the distance to where they lead is their own
number. -/
theorem stepsFrom_ne_of_lt_wheelDist {a b : Seq} (ha : a ≠ 0) {k : Nat}
    (hk : k < wheelDist hw a b) : stepsFrom hw a k ≠ b := by
  rintro rfl
  rw [wheelDist_stepsFrom ha (hk.trans (wheelDist_lt _ _))] at hk
  exact lt_irrefl k hk

/-- There and back is once around the wheel. -/
theorem wheelDist_add_wheelDist {a b : Seq} (ha : a ≠ 0) (hb : b ≠ 0) (hab : a ≠ b) :
    wheelDist hw a b + wheelDist hw b a = 127 := by
  have hrangeA := toNat_of_ne_zero ha
  have hrangeB := toNat_of_ne_zero hb
  have hne : a.toNat ≠ b.toNat := fun h => hab (BitVec.eq_of_toNat_eq h)
  rw [wheelDist_eq, wheelDist_eq]
  omega

/-- Settles O12: each clause is a fact about the wheel. -/
theorem distCountsSteps : Obligations.DistCountsSteps := fun _ _ ha hb =>
  ⟨nextIndex_toNat_wrap ha, stepsFrom_wheelDist ha hb, Nat.le_of_lt_succ (wheelDist_lt _ _),
    fun _ => stepsFrom_ne_of_lt_wheelDist ha, fun hab => hab ▸ wheelDist_self _,
    wheelDist_add_wheelDist ha hb⟩

/-! ### Distances within a bound (R79, R80) -/

/-- A distance lies between 1 and a bound shorter than the wheel exactly if some step count there
leads to the number. -/
theorem wheelDist_within_iff {a b : Seq} (ha : a ≠ 0) (hb : b ≠ 0) {bound : Nat}
    (hbound : bound < 127) :
    (1 ≤ wheelDist hw a b ∧ wheelDist hw a b ≤ bound) ↔
      ∃ k, 1 ≤ k ∧ k ≤ bound ∧ b = stepsFrom hw a k := by
  constructor
  · rintro ⟨hpos, hle⟩
    exact ⟨wheelDist hw a b, hpos, hle, (stepsFrom_wheelDist ha hb).symm⟩
  · rintro ⟨k, hpos, hle, rfl⟩
    rw [wheelDist_stepsFrom ha (hle.trans_lt hbound)]
    exact ⟨hpos, hle⟩

/-- `InRange`, for a wheel number's byte a bound on the distance from `last_index`. -/
theorem inRange_iff (lastIndex : Seq) (b : Byte) :
    inRange hw lastIndex b = true ↔
      ∃ n : Seq, n ≠ 0 ∧ b = seqByte n ∧
        1 ≤ wheelDist hw lastIndex n ∧ wheelDist hw lastIndex n ≤ 4 := by
  simp only [inRange, Bool.and_eq_true, decide_eq_true_eq, onWheel_iff]
  constructor
  · rintro ⟨⟨⟨n, hn, rfl⟩, hpos⟩, hle⟩
    rw [setWidth_seqByte] at hpos hle
    exact ⟨n, hn, rfl, hpos, hle⟩
  · rintro ⟨n, hn, rfl, hpos, hle⟩
    rw [setWidth_seqByte]
    exact ⟨⟨⟨n, hn, rfl⟩, hpos⟩, hle⟩

/-- `PrecedesIndex`, for two wheel numbers' bytes a bound on the distance between them. -/
theorem precedesIndex_iff (a b : Byte) :
    precedesIndex hw a b = true ↔
      ∃ m n : Seq, m ≠ 0 ∧ n ≠ 0 ∧ a = seqByte m ∧ b = seqByte n ∧
        1 ≤ wheelDist hw m n ∧ wheelDist hw m n ≤ 15 := by
  simp only [precedesIndex, Bool.and_eq_true, decide_eq_true_eq, onWheel_iff]
  constructor
  · rintro ⟨⟨⟨⟨m, hm, rfl⟩, n, hn, rfl⟩, hpos⟩, hle⟩
    rw [setWidth_seqByte, setWidth_seqByte] at hpos hle
    exact ⟨m, n, hm, hn, rfl, rfl, hpos, hle⟩
  · rintro ⟨m, n, hm, hn, rfl, rfl, hpos, hle⟩
    rw [setWidth_seqByte, setWidth_seqByte]
    exact ⟨⟨⟨⟨m, hm, rfl⟩, n, hn, rfl⟩, hpos⟩, hle⟩

/-- Settles O13: the window is a bound on the distance, and so on the step count. -/
theorem windowIsNextFour : Obligations.WindowIsNextFour := by
  intro lastIndex b hl
  rw [inRange_iff]
  constructor
  · rintro ⟨n, hn, rfl, hdist⟩
    obtain ⟨k, hpos, hle, rfl⟩ := (wheelDist_within_iff hl hn (by decide)).1 hdist
    exact ⟨k, hpos, hle, rfl⟩
  · rintro ⟨k, hpos, hle, rfl⟩
    have hn := stepsFrom_ne_zero hl k
    exact ⟨_, hn, rfl, (wheelDist_within_iff hl hn (by decide)).2 ⟨k, hpos, hle, rfl⟩⟩

/-- Settles O14: the gap is a bound on the distance, and so on the step count. -/
theorem precedesWithinGap : Obligations.PrecedesWithinGap := by
  intro a b
  rw [precedesIndex_iff]
  constructor
  · rintro ⟨m, n, hm, hn, rfl, rfl, hdist⟩
    obtain ⟨k, hpos, hle, rfl⟩ := (wheelDist_within_iff hm hn (by decide)).1 hdist
    exact ⟨m, k, hm, hpos, hle, rfl, rfl⟩
  · rintro ⟨m, k, hm, hpos, hle, rfl, rfl⟩
    have hn := stepsFrom_ne_zero hm k
    exact ⟨m, _, hm, hn, rfl, rfl, (wheelDist_within_iff hm hn (by decide)).2 ⟨k, hpos, hle, rfl⟩⟩

end Sys2Proof.Proofs

/-! PROOFS. The Inbound Ring Buffer (42_inbound_buffer.md): the two passes of `Cleanup` as one condition
on a slot (R83), the two answers of `RECEIVE` (R85, R116), and what moves `last_index` (R86, R87):
`KeptOrRestarted` says once what an operation that can handle frames does to it. -/

namespace Sys2Proof.Proofs

open Sys2Proof.Machine Sys2Proof.Statements

/-! ### Cleanup (R83) -/

theorem outOfWindow_iff {lastIndex : Seq} {x : InSlot} :
    outOfWindow hw lastIndex x = true ↔ x.st = .ready ∧ inRange hw lastIndex x.idx = false := by
  simp [outOfWindow]

/-- Pass 1, slot by slot. -/
theorem evictOutOfWindow_getElem {lastIndex : Seq} {ib : List InSlot} {i : Nat} {x : InSlot}
    (h : ib[i]? = some x) :
    (evictOutOfWindow hw lastIndex ib)[i]? =
      some (if outOfWindow hw lastIndex x then InSlot.freed else x) := by
  simp [evictOutOfWindow, h]

/-- After pass 1 the READY slots are those that were READY and in the window. -/
theorem evictOutOfWindow_ready_iff {lastIndex : Seq} {ib : List InSlot} {j : Nat} {y : InSlot} :
    ((evictOutOfWindow hw lastIndex ib)[j]? = some y ∧ y.st = .ready) ↔
      ib[j]? = some y ∧ y.st = .ready ∧ inRange hw lastIndex y.idx = true := by
  constructor
  · rintro ⟨hy, hready⟩
    obtain ⟨z, hz, hyz⟩ : ∃ z, ib[j]? = some z ∧
        (if outOfWindow hw lastIndex z then InSlot.freed else z) = y := by
      simpa [evictOutOfWindow] using hy
    split at hyz
    · subst hyz
      cases hready
    · next hin =>
      subst hyz
      exact ⟨hz, hready, by simpa [outOfWindow_iff, hready] using hin⟩
  · rintro ⟨hy, hready, hin⟩
    have hkeep : ¬outOfWindow hw lastIndex y = true := by simp [outOfWindow_iff, hin]
    exact ⟨by rw [evictOutOfWindow_getElem hy, if_neg hkeep], hready⟩

/-- The READY slot `x` at position `i` has the index of an earlier READY slot. -/
def RepeatsEarlier (ib : List InSlot) (i : Nat) (x : InSlot) : Prop :=
  x.st = .ready ∧ ∃ j y, j < i ∧ ib[j]? = some y ∧ y.st = .ready ∧ y.idx = x.idx

/-- Pass 2, begun with no index seen, slot by slot. -/
theorem dropDuplicates_nil_getElem {ib : List InSlot} {i : Nat} {x : InSlot} (h : ib[i]? = some x) :
    (RepeatsEarlier ib i x → (dropDuplicates [] ib)[i]? = some InSlot.freed) ∧
      (¬RepeatsEarlier ib i x → (dropDuplicates [] ib)[i]? = some x) := by
  simpa only [RepeatsEarlier, List.not_mem_nil, false_or] using dropDuplicates_getElem [] ib i x h

/-- What one of the two passes evicts, in terms of the slots before both: an earlier slot with the
index of a slot in the window is in the window itself, so pass 1 leaves it for pass 2 to compare. -/
theorem evicted_iff {s : State} {i : Nat} {x : InSlot} :
    Evicted s i x ↔ outOfWindow hw s.lastIndex x = true ∨
      RepeatsEarlier (evictOutOfWindow hw s.lastIndex s.ib) i x := by
  constructor
  · rintro ⟨hready, hout | ⟨j, y, hj, hy, hyready, hidx⟩⟩
    · exact .inl (outOfWindow_iff.2 ⟨hready, hout⟩)
    · cases hin : inRange hw s.lastIndex x.idx with
      | false => exact .inl (outOfWindow_iff.2 ⟨hready, hin⟩)
      | true =>
        obtain ⟨hy', _⟩ := evictOutOfWindow_ready_iff.2 ⟨hy, hyready, hidx ▸ hin⟩
        exact .inr ⟨hready, j, y, hj, hy', hyready, hidx⟩
  · rintro (hout | ⟨hready, j, y, hj, hy', hyready, hidx⟩)
    · obtain ⟨hready, hin⟩ := outOfWindow_iff.1 hout
      exact ⟨hready, .inl hin⟩
    · obtain ⟨hy, _, _⟩ := evictOutOfWindow_ready_iff.1 ⟨hy', hyready⟩
      exact ⟨hready, .inr ⟨j, y, hj, hy, hyready, hidx⟩⟩

theorem cleanup_getElem_of_evicted {s : State} {i : Nat} {x : InSlot} (hx : s.ib[i]? = some x)
    (h : Evicted s i x) : (cleanup hw s).ib[i]? = some InSlot.freed := by
  have hpass := evictOutOfWindow_getElem (lastIndex := s.lastIndex) hx
  rw [cleanup_ib]
  by_cases hout : outOfWindow hw s.lastIndex x = true
  · rw [if_pos hout] at hpass
    exact (dropDuplicates_nil_getElem hpass).2 fun ⟨hready, _⟩ => nomatch hready
  · rw [if_neg hout] at hpass
    exact (dropDuplicates_nil_getElem hpass).1 ((evicted_iff.1 h).resolve_left hout)

theorem cleanup_getElem_of_not_evicted {s : State} {i : Nat} {x : InSlot} (hx : s.ib[i]? = some x)
    (h : ¬Evicted s i x) : (cleanup hw s).ib[i]? = some x := by
  obtain ⟨hin, hfirst⟩ := not_or.1 (mt evicted_iff.2 h)
  have hpass := evictOutOfWindow_getElem (lastIndex := s.lastIndex) hx
  rw [if_neg hin] at hpass
  exact (dropDuplicates_nil_getElem hpass).2 hfirst

/-- Settles O15: what either pass evicts is `Evicted`. -/
theorem cleanupEvictsExactly : Obligations.CleanupEvictsExactly := fun s =>
  ⟨rfl, cleanup_ib_length hw s,
    fun _ _ hx => ⟨cleanup_getElem_of_evicted hx, cleanup_getElem_of_not_evicted hx⟩⟩

/-! ### Delivery (R85, R116) -/

theorem exec_receive (s : State) : exec .receive s = .next (receive hw s) := rfl

theorem lowest_unique {α : Type} {l : List α} {p : α → Prop} {i j : Nat} (hi : Lowest l p i)
    (hj : Lowest l p j) : i = j := by
  obtain ⟨⟨x, hx, hpx⟩, hbelowI⟩ := hi
  obtain ⟨⟨y, hy, hpy⟩, hbelowJ⟩ := hj
  rcases Nat.lt_trichotomy i j with hlt | heq | hgt
  · exact absurd hpx (hbelowJ i x hlt hx)
  · exact heq
  · exact absurd hpy (hbelowI j y hgt hy)

theorem popPacket_of_lowest {s : State} {i : Nat} {x : InSlot} (hack : s.inAck = 0x00)
    (hlow : Lowest s.ib (NextReady s) i) (hx : s.ib[i]? = some x) :
    popPacket hw s =
      ({ setInSlot i InSlot.freed s with
          lastIndex := nextIndex hw s.lastIndex
          inAck := ackCompose false (nextIndex hw s.lastIndex) },
        some (x.len, bufRead x.data x.len.toNat)) := by
  rcases popPacket_cases hw s with ⟨_, hpend | hnone⟩ | ⟨_, j, y, hy, hready, hidx, hbelow, hp⟩
  · exact absurd hack hpend
  · obtain ⟨⟨z, hz, hnext⟩, _⟩ := hlow
    exact absurd hnext (hnone z (List.mem_of_getElem? hz))
  · obtain rfl : i = j := lowest_unique hlow ⟨⟨y, hy, hready, hidx⟩, hbelow⟩
    obtain rfl : x = y := Option.some.inj (hx.symm.trans hy)
    exact hp

theorem popPacket_of_no_delivery {s : State} (h : s.inAck ≠ 0x00 ∨ ∀ x ∈ s.ib, ¬NextReady s x) :
    popPacket hw s = (s, none) := by
  rcases popPacket_cases hw s with ⟨hp, _⟩ | ⟨hack, j, y, hy, hready, hidx, _⟩
  · exact hp
  · rcases h with hpend | hnone
    · exact absurd hack hpend
    · exact absurd ⟨hready, hidx⟩ (hnone y (List.mem_of_getElem? hy))

/-- Settles O16: `RECEIVE` is `PopPacket` and its result. -/
theorem receiveDeliversInOrder : Obligations.ReceiveDeliversInOrder := by
  intro s
  constructor
  · intro i x hack hlow hx
    rw [exec_receive, receive, popPacket_of_lowest hack hlow hx]
    rfl
  · intro h
    rw [exec_receive, receive, popPacket_of_no_delivery h]
    rfl

/-- `RECEIVE` moves `last_index` only by a delivery (R85, R87). -/
theorem receive_lastIndex (s : State) :
    (receive hw s).lastIndex = s.lastIndex ∨
      s.inAck = 0x00 ∧ (∃ x ∈ s.ib, NextReady s x) ∧
        (receive hw s).lastIndex = nextIndex hw s.lastIndex := by
  rw [receive, giveResult_lastIndex]
  rcases popPacket_cases hw s with ⟨hp, _⟩ | ⟨hack, _, x, hx, hready, hidx, _, hp⟩ <;> rw [hp]
  · exact .inl rfl
  · exact .inr ⟨hack, ⟨x, List.mem_of_getElem? hx, hready, hidx⟩, rfl⟩

/-! ### What handling frames does to `last_index` (R87, R100) -/

/-- Between the states `last_index` and `rd_started` were kept, or a handshake frame restarted the
sequence. `rd_started` is in the first case so that a restart lasts through what follows it. -/
def KeptOrRestarted (s t : State) : Prop :=
  (t.lastIndex = s.lastIndex ∧ t.rdStarted = s.rdStarted) ∨ (t.lastIndex = 127 ∧ t.rdStarted = true)

theorem KeptOrRestarted.refl (s : State) : KeptOrRestarted s s := .inl ⟨rfl, rfl⟩

theorem KeptOrRestarted.trans {s t u : State} (h : KeptOrRestarted s t) (h' : KeptOrRestarted t u) :
    KeptOrRestarted s u := by
  rcases h' with ⟨hlast, hrd⟩ | hrestart
  · rw [KeptOrRestarted, hlast, hrd]
    exact h
  · exact .inr hrestart

theorem keptOrRestarted_of_writerFrame {s t : State} (h : WriterFrame s t) : KeptOrRestarted s t :=
  .inl ⟨h.lastIndex, h.rdStarted⟩

theorem envTurn_keptOrRestarted (s : State) : KeptOrRestarted s (envTurn s) :=
  .inl ⟨envTurn_lastIndex s, envTurn_rdStarted s⟩

theorem rdParsed_keeps (v : View) (s : State) :
    (rdParsed hw v s).lastIndex = s.lastIndex ∧ (rdParsed hw v s).rdStarted = s.rdStarted := by
  unfold rdParsed
  split
  · split <;> simp
  · simp

/-- A frame that is no handshake leaves the sequence alone, whatever becomes of it (R101, R102). -/
theorem rdFrame_keeps {v : View} (h : v.seq ≠ 0x80) (fin : FrameEnd) (s : State) :
    (rdFrame hw fin v s).lastIndex = s.lastIndex ∧
      (rdFrame hw fin v s).rdStarted = s.rdStarted := by
  cases fin with
  | parsed =>
    rw [← hw_handshake] at h
    rw [rdFrame, if_neg h]
    exact rdParsed_keeps v { s with outAck := v.ack }
  | dataError =>
    rw [rdFrame_dataError s h]
    exact ⟨rfl, rfl⟩

theorem rdFrame_keptOrRestarted (fin : FrameEnd) (v : View) (s : State) :
    KeptOrRestarted s (rdFrame hw fin v s) := by
  by_cases h : v.seq = 0x80
  · rw [rdFrame_handshake fin v s h]
    exact .inr ⟨rfl, rfl⟩
  · exact .inl (rdFrame_keeps h fin s)

theorem rdDispatch_keptOrRestarted (st : Status) (v : View) (s : State) :
    KeptOrRestarted s (rdDispatch hw st v s) := by
  cases st with
  | incomplete => exact .refl s
  | headerError => exact .inl ⟨rfl, rfl⟩
  | parsed => exact rdFrame_keptOrRestarted .parsed v s
  | dataError => exact rdFrame_keptOrRestarted .dataError v s

theorem acquireSlot_keptOrRestarted (s : State) : KeptOrRestarted s (acquireSlot hw s).1 := by
  rcases acquireSlot_cases hw s with ⟨_, _, h⟩ | ⟨_, h⟩ <;> rw [h]
  · exact .refl s
  · rcases allocateInbound_cases hw s with ⟨h, _⟩ | ⟨_, _, _, _, _, h⟩ <;> rw [h] <;>
      exact .inl ⟨rfl, rfl⟩

theorem readerStep_keptOrRestarted (s : State) : KeptOrRestarted s (readerStep hw s).1 := by
  have hslot := acquireSlot_keptOrRestarted s
  rcases readerStep_cases hw s with ⟨h, _⟩ | ⟨_, _, _, _, _, ⟨_, h⟩ | ⟨_, _, h⟩⟩ <;> rw [h]
  · exact .refl s
  · exact hslot
  · exact hslot.trans (rdDispatch_keptOrRestarted _ _ _)

theorem readLoop_keptOrRestarted (n : Nat) (s : State) : KeptOrRestarted s (readLoop hw n s) := by
  induction n generalizing s with
  | zero => exact .refl s
  | succ n ih =>
    have hread := readerStep_keptOrRestarted s
    unfold readLoop
    split
    · next s1 h =>
      rw [h] at hread
      exact (hread.trans (envTurn_keptOrRestarted s1)).trans (ih _)
    · next s1 h =>
      rw [h] at hread
      exact hread

theorem tick_keptOrRestarted (s : State) : KeptOrRestarted s (tick hw s) :=
  ((readLoop_keptOrRestarted _ s).trans (envTurn_keptOrRestarted _)).trans
    (keptOrRestarted_of_writerFrame (writerStep_writerFrame hw _))

theorem moreTicks_keptOrRestarted (n : Nat) (s : State) : KeptOrRestarted s (moreTicks hw n s) := by
  induction n generalizing s with
  | zero => exact .refl s
  | succ n ih => exact ((envTurn_keptOrRestarted s).trans (tick_keptOrRestarted _)).trans (ih _)

theorem ticks_keptOrRestarted (n : Nat) (s : State) : KeptOrRestarted s (ticks hw n s) := by
  cases n with
  | zero => exact .refl s
  | succ n => exact (tick_keptOrRestarted s).trans (moreTicks_keptOrRestarted n _)

/-! ### What an instruction does to `last_index` (R87) -/

/-- The instructions in which a handshake frame can be handled: its own row, and those that read. -/
def MayHandshake (i : Instr) : Prop :=
  (∃ fin ack data, i = .frameHandshake fin ack data) ∨ i = .readStep ∨ i = .tick ∨ ∃ n, i = .ticks n

/-- The ways in which an instruction treats `last_index`. -/
inductive LastIndexEffect : Instr → State → State → Prop
  | keeps {i : Instr} {s t : State} (h : t.lastIndex = s.lastIndex) : LastIndexEffect i s t
  | receive (s : State) : LastIndexEffect .receive s (receive hw s)
  | reset (s : State) : LastIndexEffect .reset s (resetCore hw s)
  | handshake {i : Instr} {s t : State} (hi : MayHandshake i) (h : KeptOrRestarted s t) :
      LastIndexEffect i s t

theorem lastIndexEffect_of_command {i : Instr} {s t : State} (h : CommandEffect i s t) :
    LastIndexEffect i s t := by
  cases h with
  | reset => exact .reset s
  | receive => exact .receive s
  | tick => exact .handshake (.inr (.inr (.inl rfl))) (tick_keptOrRestarted s)
  | readStep => exact .handshake (.inr (.inl rfl)) (readerStep_keptOrRestarted s)
  | transmit data => exact .keeps (addToOutgoingQueue_writerFrame data s).lastIndex
  | writeStep => exact .keeps (writerStep_writerFrame hw s).lastIndex
  | answer => exact .keeps rfl
  | reserved => exact .keeps rfl

/-- Of the rows that are no command, the handshake frame and `TICKS` can restart the sequence; the
sequence byte of any other frame row is not the handshake marker (R55). -/
theorem lastIndexEffect_of_exec {i : Instr} {s t : State} (hwf : i.wellFormed = true)
    (h : exec i s = .next t) : LastIndexEffect i s t := by
  by_cases hc : channelOf i = .command
  · exact lastIndexEffect_of_command (commandEffect_of_exec hc h)
  · cases i with
    | ticks n =>
      cases h
      exact .handshake (.inr (.inr (.inr ⟨n, rfl⟩))) (ticks_keptOrRestarted n s)
    | frameHandshake fin ack data =>
      cases h
      exact .handshake (.inl ⟨fin, ack, data, rfl⟩) (rdFrame_keptOrRestarted fin _ s)
    | frameAckonly fin ack data =>
      cases h
      exact .keeps (rdFrame_keeps (show (0x00 : Byte) ≠ 0x80 by decide) fin s).1
    | frameData fin ack n data =>
      cases h
      exact .keeps (rdFrame_keeps (seqByte_ne_handshake n) fin s).1
    | frameResv fin ack low data =>
      cases h
      have hlow : low ≠ 0 := by
        rintro rfl
        cases hwf
      exact .keeps (rdFrame_keeps (resvByte_ne_handshake hlow) fin s).1
    | frameHeaderError => cases h; exact .keeps rfl
    | ackEmpty => cases h; exact .keeps rfl
    | ackStart => cases h; exact .keeps (wrConsume_writerFrame hw .start s).lastIndex
    | ackPos n => cases h; exact .keeps rfl
    | ackNeg n => cases h; exact .keeps rfl
    | reset | tick | transmit _ | receive | initialized | reserved05 | reserved06 _ | reserved08 _
    | readStep | writeStep | peekPacket _ | peekResendPacket | reserved14 _ | reserved18 _
    | reserved20 _ | reserved40 _ | reserved80 _ => exact absurd rfl hc

/-- Settles O17: an instruction keeps `last_index`, or is a delivery, a reset, or one in which a
handshake frame can be handled. -/
theorem lastIndexMovesOnlyByDelivery : Obligations.LastIndexMovesOnlyByDelivery := by
  intro i s t hwf h
  cases lastIndexEffect_of_exec hwf h with
  | keeps hsame => exact .inl hsame
  | receive =>
    rcases receive_lastIndex s with hsame | hdelivery
    · exact .inl hsame
    · exact .inr (.inl ⟨rfl, hdelivery⟩)
  | reset => exact .inr (.inr ⟨rfl, .inl rfl⟩)
  | handshake hi hmove =>
    rcases hmove with ⟨hsame, _⟩ | ⟨hlast, hstarted⟩
    · exact .inl hsame
    · exact .inr (.inr ⟨hlast, .inr ⟨hstarted, hi⟩⟩)

end Sys2Proof.Proofs

/-! PROOFS. The Outbound Ring Buffer (43_outbound_buffer.md): the two answers of a peek (R95, R96),
what an ack does to one slot (R92, R93), the oldest live number (R90, R81), the frame `NextPacket`
selects (R91), and the queue of four frames that `TRANSMIT` fills and an ack empties (R89, R97, R108). -/

namespace Sys2Proof.Proofs

open Sys2Proof.Machine Sys2Proof.Statements

/-! ### Peeks (R95, R96) -/

theorem exec_peekPacket (idx : Byte) (s : State) :
    exec (.peekPacket idx) s = .next (giveResult (peekPacket s idx) s) := rfl

theorem exec_peekResendPacket (s : State) :
    exec .peekResendPacket s = .next (giveResult (peekResendPacket s) s) := rfl

theorem lowestOutSlot_of_none {s : State} {p : OutSlot → Bool} (h : ∀ x ∈ s.ob, ¬p x = true) :
    lowestOutSlot s p = none :=
  List.find?_eq_none.2 h

theorem lowestOutSlot_of_lowest {s : State} {p : OutSlot → Bool} {j : Nat} {x : OutSlot}
    (hlow : Lowest s.ob (fun y => p y = true) j) (hx : s.ob[j]? = some x) :
    lowestOutSlot s p = some x := by
  obtain ⟨hfound, hbelow⟩ := hlow
  have hidx : s.ob.findIdx? p = some j :=
    findIdx_some_iff.2 ⟨hfound, fun k y hk hy => Bool.eq_false_iff.2 (hbelow k y hk hy)⟩
  rw [lowestOutSlot, find_eq_findIdx, hidx]
  exact hx

/-- The test of `PEEK_PACKET` in the words of R95. -/
theorem peekTest_iff (idx : Byte) (x : OutSlot) :
    (x.live && x.idx == idx) = true ↔ Live x ∧ x.idx = idx := by
  simp [Live]

/-- The test of `PEEK_RESEND_PACKET` in the words of R96. -/
theorem peekResendTest_iff (x : OutSlot) :
    (x.live && x.pending) = true ↔ Live x ∧ x.pending = true := by
  simp [Live]

/-- Settles O22: the two outcomes of the search are the two results. -/
theorem peekPacketOnlyReads : Obligations.PeekPacketOnlyReads := by
  intro s idx
  simp only [← peekTest_iff]
  constructor
  · intro hnone
    rw [exec_peekPacket, peekPacket, lowestOutSlot_of_none hnone]
    rfl
  · intro j x hlow hx
    rw [exec_peekPacket, peekPacket, lowestOutSlot_of_lowest hlow hx]
    rfl

/-- Settles O23: the two outcomes of the search are the two results. -/
theorem peekResendPacketOnlyReads : Obligations.PeekResendPacketOnlyReads := by
  intro s
  simp only [← peekResendTest_iff]
  constructor
  · intro hnone
    rw [exec_peekResendPacket, peekResendPacket, lowestOutSlot_of_none hnone]
    rfl
  · intro j x hlow hx
    rw [exec_peekResendPacket, peekResendPacket, lowestOutSlot_of_lowest hlow hx]
    rfl

/-! ### Acks, slot by slot (R92, R93) -/

theorem exec_ackPos (n : Seq) (s : State) :
    exec (.ackPos n) s = .next (removePacket hw n { s with outAck := 0x00 }) := rfl

theorem exec_ackNeg (n : Seq) (s : State) :
    exec (.ackNeg n) s = .next (markResend n { s with outAck := 0x00 }) := rfl

theorem mapLive_getElem_of_hit {p : OutSlot → Bool} {s : State} {j : Nat} {x : OutSlot}
    (hx : s.ob[j]? = some x) (hl : Live x) (hp : p x = true) (f : OutSlot → OutSlot) :
    (mapLive p f s).ob[j]? = some (f x) := by
  rw [mapLive_getElem, hx, Option.map_some, hp, show x.live = true from hl]
  rfl

theorem mapLive_getElem_of_miss {p : OutSlot → Bool} {s : State} {j : Nat} {x : OutSlot}
    (hx : s.ob[j]? = some x) (h : ¬Live x ∨ p x = false) (f : OutSlot → OutSlot) :
    (mapLive p f s).ob[j]? = some x := by
  have hmiss : (x.live && p x) = false := by
    rcases h with hl | hp
    · rw [Bool.eq_false_iff.2 hl, Bool.false_and]
    · rw [hp, Bool.and_false]
  rw [mapLive_getElem, hx, Option.map_some, hmiss]
  rfl

/-- A slot that pass 1 of `RemovePacket` frees is no longer live for pass 2. -/
theorem removePacket_frees {s : State} {n : Seq} {j : Nat} {x : OutSlot} (hx : s.ob[j]? = some x)
    (hl : Live x) (hidx : x.idx = seqByte n) :
    (removePacket hw n s).ob[j]? = some OutSlot.freed := by
  have hpass := mapLive_getElem_of_hit (p := fun y => y.idx == seqByte n) hx hl (beq_iff_eq.2 hidx)
    fun _ => OutSlot.freed
  exact mapLive_getElem_of_miss hpass (.inl (by decide : ¬OutSlot.freed.live = true)) _

/-- A slot with another index passes pass 1 of `RemovePacket`. -/
theorem freePass_leaves {s : State} {n : Seq} {j : Nat} {x : OutSlot} (hx : s.ob[j]? = some x)
    (h : ¬Live x ∨ x.idx ≠ seqByte n) :
    (mapLive (fun y => y.idx == seqByte n) (fun _ => OutSlot.freed) s).ob[j]? = some x :=
  mapLive_getElem_of_miss (p := fun y => y.idx == seqByte n) hx
    (h.imp_right beq_eq_false_iff_ne.2) _

theorem removePacket_marks {s : State} {n : Seq} {j : Nat} {x : OutSlot} (hx : s.ob[j]? = some x)
    (hl : Live x) (hidx : x.idx ≠ seqByte n) (hprec : precedesIndex hw x.idx (seqByte n) = true) :
    (removePacket hw n s).ob[j]? = some { x with pending := true } :=
  mapLive_getElem_of_hit (p := fun y => precedesIndex hw y.idx (seqByte n))
    (freePass_leaves hx (.inr hidx)) hl hprec markPending

theorem removePacket_leaves {s : State} {n : Seq} {j : Nat} {x : OutSlot} (hx : s.ob[j]? = some x)
    (h : ¬Live x ∨ (x.idx ≠ seqByte n ∧ precedesIndex hw x.idx (seqByte n) = false)) :
    (removePacket hw n s).ob[j]? = some x :=
  mapLive_getElem_of_miss (p := fun y => precedesIndex hw y.idx (seqByte n))
    (freePass_leaves hx (h.imp_right And.left)) (h.imp_right And.right) markPending

/-- Settles O24: the two passes of `RemovePacket` on each kind of slot. -/
theorem positiveAckFreesAndCascades : Obligations.PositiveAckFreesAndCascades := fun s n _ =>
  ⟨_, exec_ackPos n s, rfl, (mapLive_ob_length _ _ _).trans (mapLive_ob_length _ _ _),
    fun _ _ hx => ⟨removePacket_frees hx, removePacket_marks hx, removePacket_leaves hx⟩⟩

theorem markResend_marks {s : State} {n : Seq} {j : Nat} {x : OutSlot} (hx : s.ob[j]? = some x)
    (hl : Live x) (hidx : x.idx = seqByte n) :
    (markResend n s).ob[j]? = some { x with pending := true } :=
  mapLive_getElem_of_hit (p := fun y => y.idx == seqByte n) hx hl (beq_iff_eq.2 hidx) markPending

theorem markResend_leaves {s : State} {n : Seq} {j : Nat} {x : OutSlot} (hx : s.ob[j]? = some x)
    (h : ¬Live x ∨ x.idx ≠ seqByte n) : (markResend n s).ob[j]? = some x :=
  mapLive_getElem_of_miss (p := fun y => y.idx == seqByte n) hx
    (h.imp_right beq_eq_false_iff_ne.2) markPending

/-- Settles O25: `MarkResend` is one pass. -/
theorem negativeAckMarksOnly : Obligations.NegativeAckMarksOnly := fun s n _ =>
  ⟨_, exec_ackNeg n s, rfl, mapLive_ob_length _ _ _,
    fun _ _ hx => ⟨markResend_marks hx, markResend_leaves hx⟩⟩

/-! ### The oldest live number (R90, R81) -/

theorem earliestIndex_of_handshaking {s : State} (h : s.wrStarted = false) :
    earliestIndex hw s = 0x80 := by
  simp [earliestIndex, writerPreHandshake, h]

theorem earliestIndex_of_no_live {s : State} (hs : s.wrStarted = true)
    (hnone : ∀ x ∈ s.ob, ¬Live x) : earliestIndex hw s = seqByte s.nextSend := by
  have hold := (oldestLive_none_iff hw s.nextSend s.ob).2
    fun x hx => Bool.eq_false_iff.2 (hnone x hx)
  simp [earliestIndex, writerPreHandshake, hs, hold]

theorem earliestIndex_of_oldest {s : State} {x : OutSlot} (hs : s.wrStarted = true)
    (hold : oldestLive hw s.nextSend s.ob = some x) : earliestIndex hw s = x.idx := by
  simp [earliestIndex, writerPreHandshake, hs, hold]

theorem exists_oldestLive {s : State} (hlive : ∃ x ∈ s.ob, Live x) :
    ∃ x, oldestLive hw s.nextSend s.ob = some x := by
  obtain ⟨x, hx, hl⟩ := hlive
  refine Option.ne_none_iff_exists'.1 fun hnone => ?_
  exact Bool.eq_false_iff.1 ((oldestLive_none_iff hw s.nextSend s.ob).1 hnone x hx) hl

/-- The distance to the number `k` steps ahead, also beyond one turn of the wheel. -/
theorem wheelDist_stepsFrom_mod {n : Seq} (h : n ≠ 0) (k : Nat) :
    wheelDist hw n (stepsFrom hw n k) = k % 127 := by
  have hrange := toNat_of_ne_zero h
  rw [wheelDist_eq, stepsFrom_toNat h]
  omega

/-- The age of a number counts the steps from it, 1 to 127 (R81). -/
theorem age_of_stepsFrom {n : Seq} (h : n ≠ 0) {k : Nat} (hpos : 1 ≤ k) (hle : k ≤ 127) :
    age hw (stepsFrom hw n k) (seqByte n) = k := by
  rw [age_seqByte h, wheelDist_stepsFrom_mod h]
  omega

/-- Settles O20: `oldestLive_some` says which live frame is the oldest. -/
theorem earliestIsOldestLive : Obligations.EarliestIsOldestLive := by
  intro s
  refine ⟨rfl, earliestIndex_of_handshaking, earliestIndex_of_no_live, ?_, ?_⟩
  · intro hs hlive
    obtain ⟨x, hold⟩ := exists_oldestLive hlive
    obtain ⟨j, hj, hl, hmax⟩ := oldestLive_some hold
    exact ⟨j, x, hj, hl, earliestIndex_of_oldest hs hold, hmax⟩
  · rintro - n k hn hpos hle hsteps
    rw [← hsteps]
    exact age_of_stepsFrom hn hpos hle

/-! ### The frame sent next (R91) -/

theorem selectPacket_of_handshaking {s : State} (h : s.wrStarted = false) :
    selectPacket hw s = pendingSlot s 0x80 := by
  simp [selectPacket, writerPreHandshake, h]

theorem selectPacket_of_active {s : State} (h : s.wrStarted = true) :
    selectPacket hw s =
      (wheelFrom hw 15 (s.earliest.setWidth 7)).findSome? fun n => pendingSlot s (seqByte n) := by
  simp [selectPacket, writerPreHandshake, h, scan]

/-- Settles O21: `selectPacket` is one search before the Writer is active, and after it the first of
fifteen that succeeds. No search reads `earliest`, the one register `UpdateNextIndex` writes. -/
theorem nextPacketKeepsSendOrder : Obligations.NextPacketKeepsSendOrder := by
  intro s
  refine ⟨rfl, fun hs => ?_, fun hs => ?_⟩
  · have hsel : (nextPacket hw s).2 = pendingSlot s 0x80 :=
      selectPacket_of_handshaking (s := updateNextIndex hw s) hs
    rw [hsel]
    exact ⟨fun _ => pendingSlot_some_iff, pendingSlot_none_iff⟩
  · have hsel := selectPacket_of_active (s := updateNextIndex hw s) hs
    obtain ⟨hsome, hnone⟩ := wheelFrom_findSome hw
      (fun n => pendingSlot (updateNextIndex hw s) (seqByte n)) 15
      ((updateNextIndex hw s).earliest.setWidth 7)
    rw [← hsel] at hsome hnone
    constructor
    · intro j hj
      obtain ⟨k, hk, hfound, hbefore⟩ := hsome j hj
      exact ⟨k, hk, pendingSlot_some_iff.1 hfound,
        fun k' hk' => pendingSlot_none_iff.1 (hbefore k' hk')⟩
    · intro hj k hk
      exact pendingSlot_none_iff.1 (hnone hj k hk)

/-! ### Queueing (R89, R97, R108) -/

theorem exec_transmit (data : List Byte) (s : State) :
    exec (.transmit data) s = .next (transmit hw data s) := rfl

theorem addToOutgoingQueue_of_handshaking {s : State} (h : s.wrStarted = false) (data : List Byte) :
    addToOutgoingQueue hw data s = (s, false) := by
  simp [addToOutgoingQueue, writerPreHandshake, h]

theorem addToOutgoingQueue_of_full {s : State} (hs : s.wrStarted = true)
    (hfull : ∀ x ∈ s.ob, Live x) (data : List Byte) :
    addToOutgoingQueue hw data s = (recordEvent .bufferFull 1 s, false) := by
  rcases addToOutgoingQueue_cases data s with ⟨hpre, _⟩ | ⟨_, _, hq⟩ | ⟨_, j, x, hx, hdead, _⟩
  · exact absurd hs (Bool.eq_false_iff.1 hpre)
  · exact hq
  · exact absurd (hfull x (List.mem_of_getElem? hx)) (Bool.eq_false_iff.1 hdead)

theorem addToOutgoingQueue_of_lowest {s : State} {j : Nat} (hs : s.wrStarted = true)
    (hlow : Lowest s.ob (fun y => ¬Live y) j) (data : List Byte) :
    addToOutgoingQueue hw data s =
      ({ s with
          ob := s.ob.set j
            { live := true, pending := true, idx := seqByte s.nextSend, ack := 0x00,
              len := BitVec.ofNat 8 data.length, data := data }
          nextSend := nextIndex hw s.nextSend }, true) := by
  rcases addToOutgoingQueue_cases data s with
    ⟨hpre, _⟩ | ⟨_, hfull, _⟩ | ⟨_, i, x, hx, hdead, hbelow, hq⟩
  · exact absurd hs (Bool.eq_false_iff.1 hpre)
  · obtain ⟨⟨x, hx, hdead⟩, _⟩ := hlow
    exact absurd (hfull x (List.mem_of_getElem? hx)) hdead
  · obtain rfl : j = i := lowest_unique hlow
      ⟨⟨x, hx, Bool.eq_false_iff.1 hdead⟩, fun k y hk hy => not_not.2 (hbelow k y hk hy)⟩
    exact hq

/-- Settles O18: `TRANSMIT` is `AddToOutgoingQueue` and its result. -/
theorem transmitQueuesOrRejects : Obligations.TransmitQueuesOrRejects := by
  intro s data _
  refine ⟨fun hs => ?_, fun hs hfull => ?_, fun j hs hlow => ?_⟩
  · rw [exec_transmit, transmit, addToOutgoingQueue_of_handshaking hs]
    rfl
  · rw [exec_transmit, transmit, addToOutgoingQueue_of_full hs hfull]
    rfl
  · rw [exec_transmit, transmit, addToOutgoingQueue_of_lowest hs hlow]
    rfl

/-- With every slot live, `TRANSMIT` answers that it did not queue. -/
theorem transmit_results_of_full {s : State} (hs : s.wrStarted = true) (hfull : ∀ x ∈ s.ob, Live x)
    (data : List Byte) : (transmit hw data s).results = s.results ++ [[0x00]] := by
  rw [transmit, addToOutgoingQueue_of_full hs hfull]
  rfl

/-- With any slot free, `TRANSMIT` answers that it queued. -/
theorem transmit_results_of_free {s : State} (hs : s.wrStarted = true)
    (hfree : OutSlot.freed ∈ s.ob) (data : List Byte) :
    (transmit hw data s).results = s.results ++ [[0x01]] := by
  rcases addToOutgoingQueue_cases data s with ⟨hpre, _⟩ | ⟨_, hfull, _⟩ | ⟨_, _, _, _, _, _, hq⟩
  · exact absurd hs (Bool.eq_false_iff.1 hpre)
  · exact absurd (hfull _ hfree) Bool.false_ne_true
  · rw [transmit, hq]
    rfl

theorem live_count_le {s : State} (h : s.Inv) : (s.ob.filter (·.live)).length ≤ 4 :=
  (List.length_filter_le _ _).trans_eq h.obCount

/-- Four live frames leave no slot free (R97). -/
theorem all_live_of_count {s : State} (h : s.Inv) (hcount : (s.ob.filter (·.live)).length = 4) :
    ∀ x ∈ s.ob, Live x :=
  List.length_filter_eq_length_iff.1 (hcount.trans h.obCount.symm)

/-- Settles O19: with four live frames all slots are, and consuming the ack of one of them leaves an
empty slot, which is all a `TRANSMIT` needs. -/
theorem fifthTransmitWaitsForAck : Obligations.FifthTransmitWaitsForAck := by
  intro s hinv
  refine ⟨live_count_le hinv, fun hs hcount data _ => ⟨?_, fun n x hx hidx => ?_⟩⟩
  · exact ⟨_, exec_transmit data s,
      transmit_results_of_full hs (all_live_of_count hinv hcount) data⟩
  · obtain ⟨j, hj⟩ := List.getElem?_of_mem hx
    have hfreed := List.mem_of_getElem? (removePacket_frees (s := { s with outAck := 0x00 }) hj
      (all_live_of_count hinv hcount x hx) hidx)
    exact ⟨_, _, exec_ackPos n s, exec_transmit data _,
      transmit_results_of_free (s := removePacket hw n { s with outAck := 0x00 }) hs hfreed data⟩

end Sys2Proof.Proofs

/-! PROOFS. The Reader (44_reader.md): what each frame row does in the slot the Reader holds (R99 to
R102), and `READ_STEP` (R98, R125 (a)). A `Read` is settled by the slot it acquires: without one it
stalls, with one it parses the oldest byte there and runs the row of the frame that ends. -/

namespace Sys2Proof.Proofs

open Sys2Proof.Machine Sys2Proof.Statements

/-! ### The frame rows (R99 to R102) -/

theorem exec_frameHandshake (fin : FrameEnd) (ack : Byte) (data : List Byte) (s : State) :
    exec (.frameHandshake fin ack data) s = .next (rdFrame hw fin (viewOf ack 0x80 data) s) := rfl

theorem exec_frameData (fin : FrameEnd) (ack : Byte) (n : Seq) (data : List Byte) (s : State) :
    exec (.frameData fin ack n data) s =
      .next (rdFrame hw fin (viewOf ack (seqByte n) data) s) := rfl

theorem exec_frameAckonly (fin : FrameEnd) (ack : Byte) (data : List Byte) (s : State) :
    exec (.frameAckonly fin ack data) s = .next (rdFrame hw fin (viewOf ack 0x00 data) s) := rfl

theorem exec_frameResv (fin : FrameEnd) (ack : Byte) (low : Seq) (data : List Byte) (s : State) :
    exec (.frameResv fin ack low data) s =
      .next (rdFrame hw fin (viewOf ack (0x80 ||| low.setWidth 8) data) s) := rfl

theorem exec_frameHeaderError (s : State) :
    exec .frameHeaderError s = .next (rdHeaderError s) := rfl

theorem onWheel_seqByte_of_ne {n : Seq} (h : n ≠ 0) : onWheel hw (seqByte n) = true :=
  (onWheel_iff _).2 ⟨n, h, rfl⟩

theorem onWheel_seqNone : onWheel hw 0x00 = false := by decide

/-- Settles O29: the row is `RdHandshake` after the capture of the ack, however the frame ended. -/
theorem handshakeFrameRestartsReader : Obligations.HandshakeFrameRestartsReader := by
  intro s fin ack data _
  rw [exec_frameHandshake, rdFrame_handshake fin (viewOf ack 0x80 data) s rfl]
  rfl

/-- Settles O30: `RdParsed` on and off the wheel, in and out of the window. -/
theorem parsedFrameStoredOrDropped : Obligations.ParsedFrameStoredOrDropped := by
  intro s i ack data _ hcur
  refine ⟨fun n hn hin => ?_, fun n hn hout => ?_, ?_, fun low hlow => ?_⟩
  · rw [exec_frameData, rdFrame_inWindow (v := viewOf ack (seqByte n) data)
      (onWheel_seqByte_of_ne hn) hin hcur]
    rfl
  · rw [exec_frameData, rdFrame_outOfWindow (v := viewOf ack (seqByte n) data)
      (onWheel_seqByte_of_ne hn) hout hcur]
    simp only [viewOf, ackIndex_seqByte]
  · rw [exec_frameAckonly, rdFrame_dropped (v := viewOf ack 0x00 data) onWheel_seqNone
      (show (0x00 : Byte) ≠ 0x80 by decide) hcur]
    rfl
  · rw [exec_frameResv, rdFrame_dropped (v := viewOf ack (0x80 ||| low.setWidth 8) data)
      (onWheel_resvByte low) (resvByte_ne_handshake hlow) hcur]
    rfl

/-- Settles O31: `RdDataError` on and off the wheel. -/
theorem dataErrorFrameNegAcked : Obligations.DataErrorFrameNegAcked := by
  intro s ack data _
  refine ⟨fun n hn => ?_, ?_, fun low hlow => ?_⟩
  · rw [exec_frameData, rdFrame_dataError (v := viewOf ack (seqByte n) data) s
      (seqByte_ne_handshake n)]
    simp only [viewOf, onWheel_seqByte_of_ne hn, if_true, ackIndex_seqByte]
  · rw [exec_frameAckonly, rdFrame_dataError (v := viewOf ack 0x00 data) s
      (show (0x00 : Byte) ≠ 0x80 by decide)]
    simp only [viewOf, onWheel_seqNone, Bool.false_eq_true, if_false]
  · rw [exec_frameResv, rdFrame_dataError (v := viewOf ack (0x80 ||| low.setWidth 8) data) s
      (resvByte_ne_handshake hlow)]
    simp only [viewOf, onWheel_resvByte, Bool.false_eq_true, if_false]

/-- Settles O32: the row is `RdHeaderError`, which is one `Event`. -/
theorem headerErrorOnlyRecords : Obligations.HeaderErrorOnlyRecords := fun s =>
  exec_frameHeaderError s

/-! ### The row of a finished frame (R55, R58) -/

/-- Every sequence byte is that of one of the four rows. -/
theorem seqByte_cases (b : Byte) :
    b = 0x80 ∨ b = 0x00 ∨ (∃ n : Seq, n ≠ 0 ∧ b = seqByte n) ∨
      ∃ low : Seq, low ≠ 0 ∧ b = 0x80 ||| low.setWidth 8 := by
  by_cases hshake : b = 0x80
  · exact .inl hshake
  by_cases hnone : b = 0x00
  · exact .inr (.inl hnone)
  by_cases hwheel : onWheel hw b = true
  · exact .inr (.inr (.inl ((onWheel_iff b).1 hwheel)))
  · refine .inr (.inr (.inr ⟨b.setWidth 7, ?_⟩))
    revert b
    decide

/-- The row of a finished frame does what `Read` does with the frame. A view's length byte is no
operand of the row, so it has to be the length of the payload. -/
theorem exec_frameInstr (fin : FrameEnd) {v : View} (hlen : v.data.length = v.len.toNat)
    (s : State) : exec (frameInstr hw fin v) s = .next (rdFrame hw fin v s) := by
  obtain ⟨ack, seq, len, data⟩ := v
  obtain rfl : len = BitVec.ofNat 8 data.length := by
    simp only at hlen
    rw [hlen, BitVec.ofNat_toNat, BitVec.setWidth_eq]
  rcases seqByte_cases seq with rfl | rfl | ⟨n, hn, rfl⟩ | ⟨low, hlow, rfl⟩
  · simp only [frameInstr, seqClass_handshake]
    exact exec_frameHandshake fin ack data s
  · simp only [frameInstr, seqClass_none]
    exact exec_frameAckonly fin ack data s
  · simp only [frameInstr, seqClass_seqByte hn]
    exact exec_frameData fin ack n data s
  · simp only [frameInstr, seqClass_resv hlow]
    exact exec_frameResv fin ack low data s

/-! ### The Reader's slot (R98, R84) -/

theorem acquireSlot_of_held {s : State} {i : Nat} (h : s.cur = some i) :
    acquireSlot hw s = (s, some i) := by
  simp only [acquireSlot, h]

theorem acquireSlot_of_none {s : State} (h : s.cur = none) :
    acquireSlot hw s = allocateInbound hw s := by
  simp only [acquireSlot, h]

theorem acquireSlot_of_full {s : State} (hcur : s.cur = none)
    (hfull : ∀ x ∈ (cleanup hw s).ib, x.st ≠ .free) :
    acquireSlot hw s = (cleanup hw s, none) := by
  rw [acquireSlot_of_none hcur]
  rcases allocateInbound_cases hw s with ⟨ha, _⟩ | ⟨i, x, hx, hfree, _⟩
  · exact ha
  · exact absurd hfree (hfull x (List.mem_of_getElem? hx))

/-- The slot of R98 is the one `Read` acquires, with the inbound slots as it then finds them. -/
theorem acquireSlot_of_readerSlot {s : State} {i : Nat} {ib : List InSlot}
    (h : ReaderSlot s i ib) : acquireSlot hw s = ({ s with ib := ib }, some i) := by
  rcases h with ⟨hcur, rfl⟩ | ⟨hcur, x, hx, hlow, rfl⟩
  · exact acquireSlot_of_held hcur
  · rw [acquireSlot_of_none hcur]
    rcases allocateInbound_cases hw s with ⟨_, hfull⟩ | ⟨j, y, hy, hfree, hbelow, ha⟩
    · obtain ⟨⟨z, hz, hzfree⟩, _⟩ := hlow
      exact absurd hzfree (hfull z (List.mem_of_getElem? hz))
    · obtain rfl : i = j := lowest_unique hlow ⟨⟨y, hy, hfree⟩, hbelow⟩
      obtain rfl : x = y := Option.some.inj (hx.symm.trans hy)
      exact ha

/-! ### `READ_STEP` (R98, R118, R125 (a)) -/

theorem exec_readStep {s t : State} {took : Bool} (h : readerStep hw s = (t, took)) :
    exec .readStep s = .next (giveResult [flagByte took] t) := by
  show Host.Outcome.next (giveResult [flagByte (readerStep hw s).2] (readerStep hw s).1) = _
  rw [h]

theorem readerStep_of_no_byte {s : State} (h : s.rxq = []) : readerStep hw s = (s, false) := by
  simp only [readerStep, h]

theorem readerStep_of_no_slot {s s1 : State} (hrx : s.rxq ≠ []) (hin : s.inAck = 0x00)
    (hout : s.outAck = 0x00) (hslot : acquireSlot hw s = (s1, none)) :
    readerStep hw s = (recordEvent .bufferFull 0 s1, false) := by
  rcases readerStep_cases hw s with ⟨_, hstall⟩ | ⟨_, _, _, _, _, ⟨_, hs⟩ | ⟨i, hi, _⟩⟩
  · simp [hrx, hin, hout] at hstall
  · rw [hs, hslot]
  · simp [hslot] at hi

theorem readerStep_of_slot {s s1 : State} {b : Byte} {rest : List Byte} {i : Nat}
    (hrx : s.rxq = b :: rest) (hin : s.inAck = 0x00) (hout : s.outAck = 0x00)
    (hslot : acquireSlot hw s = (s1, some i)) :
    readerStep hw s = (consumeByte hw i b { s1 with rxq := rest }, true) := by
  rcases readerStep_cases hw s with ⟨_, hstall⟩ | ⟨b', rest', hrx', _, _, ⟨hnone, _⟩ | ⟨j, hj, hs⟩⟩
  · simp [hrx, hin, hout] at hstall
  · simp [hslot] at hnone
  · obtain ⟨rfl, rfl⟩ := List.cons.inj (hrx.symm.trans hrx')
    obtain rfl : i = j := by simpa [hslot] using hj
    rw [hs, hslot]

/-- One byte taken: the parse at the end of the slot's history, and what its answer calls for. -/
theorem consumeByte_of_getElem {s : State} {i : Nat} {x : InSlot} (hx : s.ib[i]? = some x)
    (b : Byte) :
    consumeByte hw i b s =
      rdDispatch hw (parseHistory hw (x.hist ++ [b])).status (parseHistory hw (x.hist ++ [b])).view
        { s with
          cur := some i
          ib := s.ib.set i { x with
            hist := (parseHistory hw (x.hist ++ [b])).hist
            ps := (parseHistory hw (x.hist ++ [b])).ps } } := by
  have hslot : inSlot { s with cur := some i } i = x := inSlot_of_getElem hx
  simp only [consumeByte, parseChar, hslot, setInSlot]

/-- Settles O33: a stalled `Read` answers false, and only the stall for want of a slot has run
`Cleanup` by then. -/
theorem readStepStallsInOrder : Obligations.ReadStepStallsInOrder := by
  intro s
  refine ⟨fun hstall => ?_, fun hrx hin hout hcur hfull => ?_⟩
  · have hread : readerStep hw s = (s, false) := by
      rcases hstall with hrx | hpending
      · exact readerStep_of_no_byte hrx
      · exact readerStep_of_pending hpending
    exact exec_readStep hread
  · exact exec_readStep (readerStep_of_no_slot hrx hin hout (acquireSlot_of_full hcur hfull))

/-- Settles O34: the step ends as `Read` dispatches the parse's answer, which for a finished frame is
the frame's row. -/
theorem readStepConsumesOneByte : Obligations.ReadStepConsumesOneByte := by
  intro s b rest i ib x hrx hin hout hslot hx r u
  have hlen : r.view.data.length = r.view.len.toNat := parseHistory_view_length hw _
  have hread : readerStep hw s = (rdDispatch hw r.status r.view u, true) := by
    rw [readerStep_of_slot hrx hin hout (acquireSlot_of_readerSlot hslot),
      consumeByte_of_getElem (s := { s with ib := ib, rxq := rest }) hx]
  have hresults : (rdDispatch hw r.status r.view u).results = s.results :=
    (rdDispatch_readerFrame hw r.status r.view u).results
  refine ⟨fun hinc => parseHistory_parsesTo (run_snoc_ne_overrun hinc b),
    rdDispatch hw r.status r.view u, ?_, fun hst => ?_, fun hst => ?_, fun hst => ?_, fun hst => ?_⟩
  · rw [exec_readStep hread, giveResult, hresults]
    rfl
  · rw [hst, rdDispatch]
  · rw [hst, rdDispatch, exec_frameHeaderError]
  · rw [hst, rdDispatch, exec_frameInstr .parsed hlen]
  · rw [hst, rdDispatch, exec_frameInstr .dataError hlen]

end Sys2Proof.Proofs

/-! PROOFS. The Writer (45_writer.md): the ack rows EMPTY and START and the drain of `out_ack`
(R104), the resend timeout (R105), and `WRITE_STEP` (R103, R106, R107). The ways a `Write` can end
are told apart by what `NextPacket` selects and by `in_ack`. -/

namespace Sys2Proof.Proofs

open Sys2Proof.Machine Sys2Proof.Statements

/-! ### The ack rows (R104) -/

theorem exec_ackEmpty (s : State) : exec .ackEmpty s = .next s := rfl

theorem exec_ackStart (s : State) : exec .ackStart s = .next (wrConsume hw .start s) := rfl

theorem wrConsume_start_of_active {s : State} (h : s.wrStarted = true) :
    wrConsume hw .start s = { s with outAck := 0x00 } := by
  rw [wrConsume, if_pos h]

theorem wrConsume_start_of_handshaking {s : State} (h : s.wrStarted = false) :
    wrConsume hw .start s = wrActivate hw { s with outAck := 0x00 } := by
  rw [wrConsume, if_neg (Bool.eq_false_iff.1 h)]

/-- Activation with this hardware's markers written out. -/
theorem wrActivate_hw (s : State) :
    wrActivate hw s = { s with
      wrStarted := true
      ob := s.ob.map fun x => if x.live = true ∧ x.idx = 0x80 then OutSlot.freed else x
      nextSend := 1
      earliest := 1 } := by
  have hone : seqByte 1 = 1 := by decide
  simp only [wrActivate, mapLive, hw_handshake, firstSeq_hw, hone, Bool.and_eq_true, beq_iff_eq]

/-- Settles O26: the two branches of the row START, and the row EMPTY. -/
theorem startAckActivatesOnce : Obligations.StartAckActivatesOnce := by
  intro s
  refine ⟨exec_ackEmpty s, fun hactive => ?_, fun hshaking => ?_⟩
  · rw [exec_ackStart, wrConsume_start_of_active hactive]
  · rw [exec_ackStart, wrConsume_start_of_handshaking hshaking, wrActivate_hw]

/-- Settles O28: the drain consumes the class of `out_ack`, which is its row, and empties it. -/
theorem drainRunsTheAckRow : Obligations.DrainRunsTheAckRow := fun s =>
  ⟨exec_ackInstr s, wrDrain_outAck s⟩

/-! ### The timeout (R105) -/

/-- The test of R105, with its subtraction modulo 2^64 taken in the numbers. -/
theorem timedOut_iff (t : Time) (s : State) :
    timedOut hw t s = true ↔ 100000 < (t.toNat + 2 ^ 64 - s.lastSend.toNat) % 2 ^ 64 := by
  have hsub : (t.setWidth hw.timeW - s.lastSend.setWidth hw.timeW).toNat =
      (t.toNat + 2 ^ 64 - s.lastSend.toNat) % 2 ^ 64 := by
    have hlast : s.lastSend.toNat < 2 ^ 64 := s.lastSend.isLt
    simp only [BitVec.toNat_sub, BitVec.toNat_setWidth, hw_timeW]
    omega
  rw [timedOut, hsub, hw_resendTimeoutUs, decide_eq_true_iff]

/-- Settles O36: the two outcomes of the timeout, told apart by its test. -/
theorem timeoutMarksEveryLiveFrame : Obligations.TimeoutMarksEveryLiveFrame := by
  intro s t
  rcases wrTimeout_cases hw t s with ⟨hin, he⟩ | ⟨hout, he⟩
  · exact ⟨fun hlate => absurd ((timedOut_iff t s).2 hlate) (Bool.eq_false_iff.1 hin), fun _ => he⟩
  · refine ⟨fun _ => ?_, fun hearly => absurd ((timedOut_iff t s).1 hout) (by omega)⟩
    simp only [he, List.any_eq_true]

/-! ### `WRITE_STEP` (R103, R106, R107) -/

theorem exec_writeStep (s : State) :
    exec .writeStep s = .next (wrEmit hw s.time (wrTimeout hw s.time (wrDrain hw s))) := rfl

/-- Settles O37: each way `wrEmit` can end, after the drain and the timeout, is one of the three
clauses and excludes the other two. -/
theorem writeStepSendsAtMostOneFrame : Obligations.WriteStepSendsAtMostOneFrame := by
  intro s d e
  rw [exec_writeStep]
  rcases wrEmit_cases hw s.time d with ⟨i, hi, hsend⟩ | ⟨hi, hpend, halone⟩ | ⟨hi, hempty, hidle⟩
  · refine ⟨fun j x hj hx => ?_, fun hnone => (nomatch hi.symm.trans hnone),
      fun hnone => (nomatch hi.symm.trans hnone)⟩
    obtain rfl : i = j := Option.some.inj (hi.symm.trans hj)
    exact congrArg _ (hsend.trans (wrSend_eq (s := updateNextIndex hw d) s.time hx))
  · exact ⟨fun j x hj => (nomatch hi.symm.trans hj), fun _ _ => congrArg _ halone,
      fun _ hempty => absurd hempty hpend⟩
  · exact ⟨fun j x hj => (nomatch hi.symm.trans hj), fun _ hpend => absurd hempty hpend,
      fun _ _ => congrArg _ hidle⟩

end Sys2Proof.Proofs

/-! PROOFS. The pair and the host (46_pair_and_host.md): what `TICK` does and leaves alone (R114),
which instructions read the inputs of CORE (R43, R110, R111), and `INITIALIZED` (R117). -/

namespace Sys2Proof.Proofs

open Sys2Proof.Machine Sys2Proof.Statements

/-! ### `TICK` (R114) -/

/-- Settles O39: `TICK`'s fuel is one more than the bytes to come, so its loop ends in a stall. -/
theorem tickDrainsThenWritesOnce : Obligations.TickDrainsThenWritesOnce := fun s =>
  ⟨readLoop hw (arrivals s + 1) s, readLoop_drains _ s (Nat.lt_succ_self _), exec_tick s⟩

/-- Settles O40: the frames of the Reader's loop and of the Writer leave the host's side alone. -/
theorem tickLeavesHostSideAlone : Obligations.TickLeavesHostSideAlone := by
  intro s t h
  obtain rfl : tick hw s = t := Host.Outcome.next.inj ((exec_tick s).symm.trans h)
  exact tick_hostFrame hw s

/-! ### The inputs of CORE (R43, R110, R111) -/

/-- From `s` to `t` no byte was taken and the environment did not act: the receive queue, the time
input and the environment's plan are the same. -/
def InputsKept (s t : State) : Prop := t.rxq = s.rxq ∧ t.time = s.time ∧ t.env = s.env

theorem InputsKept.refl (s : State) : InputsKept s s := ⟨rfl, rfl, rfl⟩

theorem inputsKept_of_writerFrame {s t : State} (h : WriterFrame s t) : InputsKept s t :=
  ⟨h.rxq, h.time, h.env⟩

theorem giveResult_inputsKept (bytes : List Byte) {s t : State} (h : InputsKept s t) :
    InputsKept s (giveResult bytes t) := h

theorem popPacket_inputsKept (s : State) : InputsKept s (popPacket hw s).1 := by
  rcases popPacket_cases hw s with ⟨hp, _⟩ | ⟨_, i, x, _, _, _, _, hp⟩ <;> rw [hp]
  · exact .refl s
  · exact ⟨rfl, rfl, rfl⟩

/-- Handling a finished frame reads none of the inputs: its bytes were taken before. -/
theorem rdFrame_inputsKept (fin : FrameEnd) (v : View) (s : State) :
    InputsKept s (rdFrame hw fin v s) := by
  cases fin with
  | parsed => exact rdDispatch_ports hw .parsed v s
  | dataError => exact rdDispatch_ports hw .dataError v s

theorem wrConsume_inputsKept (k : AckClass) (s : State) : InputsKept s (wrConsume hw k s) :=
  inputsKept_of_writerFrame (wrConsume_writerFrame hw k s)

/-- Of the host's commands only `TICK` and `READ_STEP` contain a `Read` or a boundary. -/
theorem inputsKept_of_command {i : Instr} {s t : State} (h : CommandEffect i s t)
    (htick : i ≠ .tick) (hread : i ≠ .readStep) : InputsKept s t := by
  cases h with
  | tick => exact absurd rfl htick
  | readStep => exact absurd rfl hread
  | transmit data =>
    exact giveResult_inputsKept _ (inputsKept_of_writerFrame (addToOutgoingQueue_writerFrame data s))
  | receive => exact giveResult_inputsKept _ (popPacket_inputsKept s)
  | writeStep => exact inputsKept_of_writerFrame (writerStep_writerFrame hw s)
  | answer _ bytes => exact giveResult_inputsKept bytes (.refl s)
  | reset => exact ⟨rfl, rfl, rfl⟩
  | reserved => exact ⟨rfl, rfl, rfl⟩

/-- Settles O49: the commands, then the rows that are no command: `TICKS`, which is set aside, the
frame rows and the ack rows. -/
theorem onlyReadsTakeBytes : Obligations.OnlyReadsTakeBytes := by
  intro i s t h htick hread hticks
  by_cases hc : channelOf i = .command
  · exact inputsKept_of_command (commandEffect_of_exec hc h) htick hread
  · cases i with
    | ticks n => exact absurd rfl (hticks n)
    | frameAckonly fin _ _ => cases h; exact rdFrame_inputsKept fin _ s
    | frameData fin _ _ _ => cases h; exact rdFrame_inputsKept fin _ s
    | frameHandshake fin _ _ => cases h; exact rdFrame_inputsKept fin _ s
    | frameResv fin _ _ _ => cases h; exact rdFrame_inputsKept fin _ s
    | frameHeaderError => cases h; exact ⟨rfl, rfl, rfl⟩
    | ackEmpty => cases h; exact wrConsume_inputsKept .empty s
    | ackStart => cases h; exact wrConsume_inputsKept .start s
    | ackPos n => cases h; exact wrConsume_inputsKept (.pos n) s
    | ackNeg n => cases h; exact wrConsume_inputsKept (.neg n) s
    | reset | tick | transmit _ | receive | initialized | reserved05 | reserved06 _ | reserved08 _
    | readStep | writeStep | peekPacket _ | peekResendPacket | reserved14 _ | reserved18 _
    | reserved20 _ | reserved40 _ | reserved80 _ => exact absurd rfl hc

/-! ### `INITIALIZED` (R117) -/

theorem exec_initialized (s : State) :
    exec .initialized s = .next (giveResult [flagByte (isInitialized s)] s) := rfl

theorem isInitialized_iff (s : State) :
    isInitialized s = true ↔ s.rdStarted = true ∧ s.wrStarted = true := by
  rw [isInitialized, Bool.and_eq_true]

theorem isInitialized_eq_false_iff (s : State) :
    isInitialized s = false ↔ s.rdStarted = false ∨ s.wrStarted = false := by
  rw [isInitialized, Bool.and_eq_false_iff]

/-- Settles O44: the result is the flag of `isInitialized`, in each of its two values. -/
theorem initializedReadsBothFlags : Obligations.InitializedReadsBothFlags := by
  intro s
  rw [exec_initialized]
  refine ⟨fun hboth => ?_, fun hmissing => ?_⟩
  · rw [(isInitialized_iff s).2 hboth]
    rfl
  · rw [(isInitialized_eq_false_iff s).2 hmissing]
    rfl

end Sys2Proof.Proofs

/-! PROOFS. The absence of exceptions (60_exceptions.md): every instruction and every step has a next
state (R121), a step without a command is a boundary alone (R133), and the connection, the only state
that acts as a mode, is ended by `RESET` alone (R128). -/

namespace Sys2Proof.Proofs

open Sys2Proof.Machine Sys2Proof.Statements

/-! ### Every step has a next state (R121, R133) -/

theorem exec_next (i : Instr) (s : State) : ∃ t, exec i s = .next t := by
  obtain ⟨t, _, hexec, _⟩ := exec_sends i s
  exact ⟨t, hexec⟩

theorem runCommand_next (bytes : List Byte) (s : State) : ∃ t, runCommand bytes s = .next t := by
  cases hdec : decodeCommand bytes with
  | ok i =>
    rw [runCommand_of_ok hdec]
    exact exec_next i s
  | error e => exact ⟨refuse s, runCommand_of_error hdec s⟩

/-- Settles O45: an idle step is a boundary, and a command that is no instruction is a refusal, which
has a next state too. -/
theorem nothingEverStops : Obligations.NothingEverStops := by
  refine ⟨exec_next, fun s => ?_⟩
  rcases step_cases s with ⟨_, hidle⟩ | ⟨bytes, rest, _, hrun⟩
  · exact ⟨envTurn s, hidle⟩
  · rw [hrun]
    exact runCommand_next bytes _

theorem step_of_no_cmds {s : State} (h : s.cmds = []) : step s = .next (envTurn s) := by
  rcases step_cases s with ⟨_, hidle⟩ | ⟨bytes, rest, hcmds, _⟩
  · exact hidle
  · exact absurd (h.symm.trans hcmds) nofun

/-- Settles O51: an idle step is a boundary, which writes the environment's part only. -/
theorem idleStepChangesNothing : Obligations.IdleStepChangesNothing := by
  intro s hcmds
  rw [step_of_no_cmds hcmds, ← envTurn_eq]

/-! ### What keeps the connection (R128, R22, R28) -/

/-- From `s` to `t` neither half of the connection ended: an active Writer stayed active, a started
Reader stayed started. -/
def ConnectionKept (s t : State) : Prop :=
  (s.wrStarted = true → t.wrStarted = true) ∧ (s.rdStarted = true → t.rdStarted = true)

theorem ConnectionKept.refl (s : State) : ConnectionKept s s := ⟨id, id⟩

theorem ConnectionKept.trans {s t u : State} (h : ConnectionKept s t) (h' : ConnectionKept t u) :
    ConnectionKept s u :=
  ⟨h'.1 ∘ h.1, h'.2 ∘ h.2⟩

/-- The Reader's side never writes the Writer's flag, and a restart of the sequence starts the
Reader. -/
theorem connectionKept_of_reader {s t : State} (hframe : ReaderFrame s t)
    (hrestart : KeptOrRestarted s t) : ConnectionKept s t := by
  refine ⟨fun hactive => hframe.wrStarted.trans hactive, fun hstarted => ?_⟩
  rcases hrestart with ⟨_, hsame⟩ | ⟨_, hset⟩
  · exact hsame.trans hstarted
  · exact hset

/-- The Writer's side never writes the Reader's flag. -/
theorem connectionKept_of_writer {s t : State} (hframe : WriterFrame s t)
    (hactive : s.wrStarted = true → t.wrStarted = true) : ConnectionKept s t :=
  ⟨hactive, fun hstarted => hframe.rdStarted.trans hstarted⟩

theorem envTurn_connectionKept (s : State) : ConnectionKept s (envTurn s) :=
  connectionKept_of_reader (envTurn_readerFrame s) (envTurn_keptOrRestarted s)

/-! ### The Reader's side -/

theorem rdFrame_connectionKept (fin : FrameEnd) (v : View) (s : State) :
    ConnectionKept s (rdFrame hw fin v s) :=
  connectionKept_of_reader (rdFrame_readerFrame hw fin v s) (rdFrame_keptOrRestarted fin v s)

theorem popPacket_rdStarted (s : State) : (popPacket hw s).1.rdStarted = s.rdStarted := by
  rcases popPacket_cases hw s with ⟨hp, _⟩ | ⟨_, i, x, _, _, _, _, hp⟩ <;> rw [hp]
  rfl

theorem popPacket_connectionKept (s : State) : ConnectionKept s (popPacket hw s).1 :=
  ⟨(popPacket_readerFrame s).wrStarted.trans, (popPacket_rdStarted s).trans⟩

theorem readerStep_connectionKept (s : State) : ConnectionKept s (readerStep hw s).1 :=
  connectionKept_of_reader (readerStep_readerFrame hw s) (readerStep_keptOrRestarted s)

theorem readLoop_connectionKept (n : Nat) (s : State) : ConnectionKept s (readLoop hw n s) :=
  connectionKept_of_reader (readLoop_readerFrame hw n s) (readLoop_keptOrRestarted n s)

/-! ### The Writer's side -/

/-- An active Writer stays active whatever ack it consumes: a start-sequence ack is then ignored. -/
theorem wrConsume_wrStarted {s : State} (h : s.wrStarted = true) (k : AckClass) :
    (wrConsume hw k s).wrStarted = true := by
  cases k with
  | empty => exact h
  | start =>
    rw [wrConsume_start_of_active h]
    exact h
  | pos n => exact h
  | neg n => exact h

theorem wrTimeout_wrStarted (t : Time) (s : State) :
    (wrTimeout hw t s).wrStarted = s.wrStarted := by
  rcases wrTimeout_cases hw t s with ⟨_, he⟩ | ⟨_, he⟩ <;> rw [he]

theorem wrEmit_wrStarted (t : Time) (s : State) : (wrEmit hw t s).wrStarted = s.wrStarted := by
  rcases wrEmit_cases hw t s with ⟨j, hj, he⟩ | ⟨_, _, he⟩ | ⟨_, _, he⟩ <;> rw [he]
  · obtain ⟨x, hx, _⟩ := selectPacket_some hj
    rw [wrSend_eq t hx, updateNextIndex_wrStarted]
  · rfl
  · rfl

theorem addToOutgoingQueue_wrStarted (data : List Byte) (s : State) :
    (addToOutgoingQueue hw data s).1.wrStarted = s.wrStarted := by
  rcases addToOutgoingQueue_cases data s with ⟨_, he⟩ | ⟨_, _, he⟩ | ⟨_, j, x, _, _, _, he⟩ <;>
    rw [he]
  rfl

theorem wrConsume_connectionKept (k : AckClass) (s : State) :
    ConnectionKept s (wrConsume hw k s) :=
  connectionKept_of_writer (wrConsume_writerFrame hw k s) (wrConsume_wrStarted · k)

theorem writerStep_connectionKept (s : State) : ConnectionKept s (writerStep hw s) := by
  refine connectionKept_of_writer (writerStep_writerFrame hw s) fun hactive => ?_
  rw [writerStep, wrEmit_wrStarted, wrTimeout_wrStarted, wrDrain]
  exact wrConsume_wrStarted hactive _

theorem addToOutgoingQueue_connectionKept (data : List Byte) (s : State) :
    ConnectionKept s (addToOutgoingQueue hw data s).1 :=
  connectionKept_of_writer (addToOutgoingQueue_writerFrame data s)
    (addToOutgoingQueue_wrStarted data s).trans

/-! ### Instructions -/

theorem tick_connectionKept (s : State) : ConnectionKept s (tick hw s) :=
  ((readLoop_connectionKept _ s).trans (envTurn_connectionKept _)).trans
    (writerStep_connectionKept _)

theorem moreTicks_connectionKept (n : Nat) (s : State) : ConnectionKept s (moreTicks hw n s) := by
  induction n generalizing s with
  | zero => exact .refl s
  | succ n ih => exact ((envTurn_connectionKept s).trans (tick_connectionKept _)).trans (ih _)

theorem ticks_connectionKept (n : Nat) (s : State) : ConnectionKept s (ticks hw n s) := by
  cases n with
  | zero => exact .refl s
  | succ n => exact (tick_connectionKept s).trans (moreTicks_connectionKept n _)

theorem giveResult_connectionKept (bytes : List Byte) {s t : State} (h : ConnectionKept s t) :
    ConnectionKept s (giveResult bytes t) := h

theorem connectionKept_of_command {i : Instr} {s t : State} (h : CommandEffect i s t)
    (hi : i ≠ .reset) : ConnectionKept s t := by
  cases h with
  | reset => exact absurd rfl hi
  | tick => exact tick_connectionKept s
  | transmit data => exact giveResult_connectionKept _ (addToOutgoingQueue_connectionKept data s)
  | receive => exact giveResult_connectionKept _ (popPacket_connectionKept s)
  | readStep => exact giveResult_connectionKept _ (readerStep_connectionKept s)
  | writeStep => exact writerStep_connectionKept s
  | answer _ bytes => exact giveResult_connectionKept bytes (.refl s)
  | reserved => exact .refl s

/-- Settles O46: the commands by their effects, then the rows that are no command: `TICKS`, the frame
rows, which are the Reader's, and the ack rows, which are the Writer's. -/
theorem onlyResetEndsTheConnection : Obligations.OnlyResetEndsTheConnection := by
  intro i s t h hi
  by_cases hc : channelOf i = .command
  · exact connectionKept_of_command (commandEffect_of_exec hc h) hi
  · cases i with
    | ticks n => cases h; exact ticks_connectionKept n s
    | frameAckonly fin _ _ => cases h; exact rdFrame_connectionKept fin _ s
    | frameData fin _ _ _ => cases h; exact rdFrame_connectionKept fin _ s
    | frameHandshake fin _ _ => cases h; exact rdFrame_connectionKept fin _ s
    | frameResv fin _ _ _ => cases h; exact rdFrame_connectionKept fin _ s
    | frameHeaderError => cases h; exact ConnectionKept.refl s
    | ackEmpty => cases h; exact wrConsume_connectionKept .empty s
    | ackStart => cases h; exact wrConsume_connectionKept .start s
    | ackPos n => cases h; exact wrConsume_connectionKept (.pos n) s
    | ackNeg n => cases h; exact wrConsume_connectionKept (.neg n) s
    | reset | tick | transmit _ | receive | initialized | reserved05 | reserved06 _ | reserved08 _
    | readStep | writeStep | peekPacket _ | peekResendPacket | reserved14 _ | reserved18 _
    | reserved20 _ | reserved40 _ | reserved80 _ => exact absurd rfl hc

end Sys2Proof.Proofs

/-! PROOFS. Reset and hazards (70_reset_and_hazards.md): what `RESET` writes (R134), the state at
power-on (R135), the exchange that connects two COREs (R136), and the payload error that a resync
hides (R142). -/

namespace Sys2Proof.Proofs

open Sys2Proof.Machine Sys2Proof.Statements

/-! ### `RESET` and power-on (R134, R135) -/

theorem exec_reset (s : State) : exec .reset s = .next (resetCore hw s) := rfl

/-- Settles O42: `resetCore` with this hardware's parameters read. -/
theorem resetGivesResetValues : Obligations.ResetGivesResetValues := by
  intro s
  rw [exec_reset, resetCore, lastSeq_hw, firstSeq_hw]
  rfl

/-- The state at power-on has every register at its reset value already. -/
theorem resetCore_reset : resetCore hw State.reset = State.reset := rfl

/-- Settles O43: `RESET` finds nothing to write. -/
theorem powerOnIsTheResetState : Obligations.PowerOnIsTheResetState := by
  refine ⟨?_, rfl⟩
  rw [exec_reset, resetCore_reset]

/-! ### The exchange that connects two COREs (R136)

The states of the two ends after each of the four `TICK`s: a `TICK` of the exchange transmits one frame
without payload, or none, and drains the one that the other end transmitted before it. -/

/-- The handshake frame of the end that ticks first, with no ack to give. -/
def openingFrame : List Byte := [0x0A, 0x3C, 0x00, 0x80, 0x00, 0xC6, 0x22, 0x00, 0x00]

/-- The handshake frame of the other end, with the start-sequence ack piggy-backed. -/
def answerFrame : List Byte := [0x0A, 0x3C, 0x80, 0x80, 0x00, 0x46, 0xA2, 0x00, 0x00]

/-- The ack-only frame with the start-sequence ack. -/
def confirmFrame : List Byte := [0x0A, 0x3C, 0x80, 0x00, 0x00, 0xC6, 0xA2, 0x00, 0x00]

/-- Just reset but for the handshake frame, which was sent with the ack `ack` and waits for its own. -/
def handshakeSent (ack : Byte) : State :=
  { State.reset with
    ob := { OutSlot.handshake hw with ack := ack, pending := false } ::
      List.replicate 3 OutSlot.freed }

/-- End A after its first `TICK`. -/
def opened : State := { handshakeSent 0x00 with txs := openingFrame }

/-- End B after its first `TICK`. -/
def answered : State := { handshakeSent 0x80 with rdStarted := true, txs := answerFrame }

/-- An end that is initialized and has nothing queued, having transmitted `txs`. -/
def connected (txs : List Byte) : State :=
  { State.reset with
    rdStarted := true, wrStarted := true, earliest := 0x01, txs := txs
    ob := List.replicate 4 OutSlot.freed }

/-- Step 1: A sends its handshake frame. -/
theorem linkReset_opens :
    linkRunA .tick linkReset = { a := opened, b := deliver openingFrame State.reset } := by decide

/-- Step 2: B starts its Reader and answers. -/
theorem opening_is_answered :
    linkRunB .tick { a := opened, b := deliver openingFrame State.reset } =
      { a := deliver answerFrame opened, b := answered } := by decide

/-- Step 3: A starts its Reader, its Writer becomes active, and it sends the ack alone. -/
theorem answer_is_confirmed :
    linkRunA .tick { a := deliver answerFrame opened, b := answered } =
      { a := connected (openingFrame ++ confirmFrame), b := deliver confirmFrame answered } := by
  decide

/-- Step 4: B's Writer becomes active and B sends nothing. -/
theorem confirmation_ends_exchange :
    linkRunB .tick
        { a := connected (openingFrame ++ confirmFrame), b := deliver confirmFrame answered } =
      { a := connected (openingFrame ++ confirmFrame), b := connected answerFrame } := by decide

/-- Settles O54, step by step; the states reached are written out above. -/
theorem handshakeExchangeConnects : Obligations.HandshakeExchangeConnects := by
  unfold Obligations.HandshakeExchangeConnects
  dsimp only
  rw [linkReset_opens, opening_is_answered, answer_is_confirmed, confirmation_ends_exchange]
  exact ⟨rfl, rfl, rfl, rfl, rfl, rfl, rfl, rfl⟩

/-! ### A payload error that a resync hides (R142, R71) -/

/-- A tail that does not begin with the first sync byte is passed over by the resync (R68, R71). -/
theorem firstGoodTail_of_ne_sync0 {b : Byte} (h : b ≠ 0x0A) (rest : List Byte) :
    firstGoodTail hw (b :: rest) = firstGoodTail hw rest := by
  have hrun : (run hw (b :: rest)).1 = .headerError :=
    runFrom_of_headerError (codecStep_bad_sync0 rfl h) rest
  refine firstGoodTail_of_not_good ?_
  rintro (hinc | hparsed)
  · exact nomatch hrun.symm.trans hinc
  · exact nomatch hrun.symm.trans hparsed

/-- The resync passes over a stretch without the first sync byte. -/
theorem firstGoodTail_skip {xs : List Byte} (h : ∀ b ∈ xs, b ≠ 0x0A) (rest : List Byte) :
    firstGoodTail hw (xs ++ rest) = firstGoodTail hw rest := by
  induction xs with
  | nil => rfl
  | cons b xs ih =>
    rw [List.cons_append, firstGoodTail_of_ne_sync0 (h b List.mem_cons_self)]
    exact ih fun c hc => h c (List.mem_cons_of_mem b hc)

/-- A good tail that begins here is the one the resync takes (R71). -/
theorem firstGoodTail_of_incomplete {b : Byte} {rest : List Byte} {ps : ParserState}
    (h : run hw (b :: rest) = (.incomplete, ps)) :
    firstGoodTail hw (b :: rest) = some (b :: rest, .incomplete, ps) := by
  simp only [firstGoodTail, h]

/-- A payload error found at the last of two sync bytes, the first such pair behind the frame's own,
leaves no trace: the frame goes on as those two bytes (R70 (e)). -/
theorem parseHistory_of_dataError_at_sync {b : Byte} {xs : List Byte}
    (herr : (run hw (b :: (xs ++ [0x0A, 0x3C]))).1 = .dataError) (hxs : ∀ c ∈ xs, c ≠ 0x0A) :
    (parseHistory hw (b :: (xs ++ [0x0A, 0x3C]))).status = .incomplete ∧
      (parseHistory hw (b :: (xs ++ [0x0A, 0x3C]))).hist = [0x0A, 0x3C] := by
  rcases hrun : run hw (b :: (xs ++ [0x0A, 0x3C])) with ⟨st, ps⟩
  obtain rfl : st = .dataError := by rwa [hrun] at herr
  have hresync : reProcess hw (b :: (xs ++ [0x0A, 0x3C])) =
      some ([0x0A, 0x3C], .incomplete, (run hw [0x0A, 0x3C]).2) :=
    (firstGoodTail_skip hxs _).trans (firstGoodTail_of_incomplete rfl)
  rw [parseHistory_of_dataError hrun]
  simp only [recoverFrame, hresync, and_self]

/-- Settles O11: the example fails at its last byte, a bad payload checksum, and of the bytes after
the first only the last two begin with the first sync byte. -/
theorem payloadErrorVanishesInResync : Obligations.PayloadErrorVanishesInResync := by
  have herr : (run hw (0x0A :: ([0x3C, 0x00, 0x01, 0x01, 0x48, 0x25] ++ [0x0A, 0x3C]))).1 =
      .dataError := by decide
  exact ⟨herr, parseHistory_of_dataError_at_sync herr (by decide)⟩

end Sys2Proof.Proofs
